-- ==== Sys2Proof/Word.lean ====
section
/-! DEFINITION. The plain data types the whole model is written over: one binary64 memory word, one
instruction word, a 16-bit virtual index, a line of text, a word-addressed memory. -/

namespace Sys2Proof

/-- One IEEE 754 binary64 value by its bit pattern: the accumulator and every memory word (R21, R50, D1).
All 64 bits are kept, NaN payloads and signed zeros included (R71). -/
abbrev F64 := BitVec 64

/-- One 128-bit instruction word, RSV | OP | IMM_I | IMM_F (R100). -/
abbrev InstrWord := BitVec 128

/-- A virtual index that has passed the range check of R53: an integer in [0, 65536), 16 bits (R52). -/
abbrev VIndex := BitVec 16

/-- A line of text: what the host's feeds carry (R173, R174) and what a program source is made of (R108). -/
abbrev Text := List Char

/-- A word memory: the listed (word index, word) pairs. An index that is not listed reads as +0.0, the
reference value of MEM0 (R40, D15; log entry 3). The spec's memory unit is the word and it gives no byte view
(R50), so a cell is a whole word (log entry 2). Canonical form: `Memory.Wf` in Machine/State.lean. -/
abbrev Memory := List (Nat × F64)

end Sys2Proof
end

