-- ==== Sys2Proof/Config.lean ====
section
/-! DEFINITION. What a configuration fixes and what the spec leaves free.

Fixed parameters (R7), written as these literals throughout the model: 1024 words a page, 8 PDEs of 8 PTEs,
64 virtual pages, 65536 words of virtual space, 4 frames, 4096 words of physical memory, 65536 words of swap,
32 TLB entries, 200 instruction slots.

OPEN parameters (R8): NUM_PORTS, the processors and their ids, the bindings and DUMP_MODE are the fields of
`Wiring`, plain data held in State and changed by no step; MEM0 is an argument of `State.create`
(Machine/Boot.lean), which starts every processor's memory from it. A statement about every state is so a
statement about every value of them.

Free values: the opaque constants at the end. Nothing in Lean can evaluate them or prove a value of them. -/

namespace Sys2Proof

/-- DUMP_MODE, how DUMPREG reads memory (R8, R231, D28). -/
inductive DumpMode where
  | peek
  | viaMmu
deriving DecidableEq, Repr

/-- A port endpoint (P, p): processor P, by its place in declaration order, and port number p (R27, R170). -/
structure Endpoint where
  proc : Nat
  port : Nat
deriving DecidableEq, Repr

/-- What one endpoint is bound to (R170 (a) to (d)). -/
inductive Binding where
  /-- (a) a channel whose other end is this endpoint -/
  | channel (other : Endpoint)
  /-- (b) the stdin feed -/
  | stdin
  /-- (c) the stdout sink -/
  | stdout
  /-- (d) nothing -/
  | unbound
deriving DecidableEq, Repr

/-- The configuration of a run, fixed for the whole run (R27, R260): the processors' ids in declaration order
(R261), NUM_PORTS (R8), the channels by their two ends (R170, undirected), the endpoints bound to stdin and to
stdout (at most one each, R242), and DUMP_MODE (R8). -/
structure Wiring where
  ids : List Text
  numPorts : Nat
  channels : List (Endpoint × Endpoint)
  stdinPort : Option Endpoint
  stdoutPort : Option Endpoint
  dumpMode : DumpMode
deriving DecidableEq, Repr

/-- FREE VALUE (R201, R8, D2; log entry 8). The sign (bit 51) and the 51 payload bits of the quiet NaN that an
arithmetic instruction delivers in the step numbered by its argument. -/
opaque Config.freeQuietNan : Nat → BitVec 52

/-- FREE VALUE (R176, D26; log entry 9). The sign (bit 52) and the 52 fraction bits of the NaN that a port
delivers in the step numbered by its argument. -/
opaque Config.freePortNan : Nat → BitVec 53

/-- FREE VALUE (R263, D32; log entry 10). The processor the schedule turns to for the step numbered by its argument,
the first step of a run being number 0: the spec allows any interleaving of enabled steps. -/
opaque Config.freeTurn : Nat → Nat

end Sys2Proof
end

