-- ==== Sys2Proof/Syntax.lean ====
section
/-! DEFINITION. The instruction set: one constructor per row of spec/opcode_table.json (R105), each with the one
operand field its opcode consumes (R104). -/

namespace Sys2Proof

/-- The 23 instructions and the unrecognized opcodes. `port`, `idx` and `target` are the 32 bits of IMM_I, read
as a two's complement integer where they are used (R102); `lit` is IMM_F, a binary64 bit pattern (R103). -/
inductive Instr where
  /-- R150 -/
  | stop
  /-- R151 -/
  | start
  /-- R161 -/
  | in_ (port : BitVec 32)
  /-- R162 -/
  | out (port : BitVec 32)
  /-- R181 -/
  | load (idx : BitVec 32)
  /-- R182 -/
  | store (idx : BitVec 32)
  /-- R183 -/
  | loadnum (lit : F64)
  /-- R204 -/
  | add (idx : BitVec 32)
  /-- R205 -/
  | sub (idx : BitVec 32)
  /-- R206 -/
  | mul (idx : BitVec 32)
  /-- R207 -/
  | div (idx : BitVec 32)
  /-- R208 -/
  | addnum (lit : F64)
  /-- R209 -/
  | subnum (lit : F64)
  /-- R210 -/
  | mulnum (lit : F64)
  /-- R211 -/
  | divnum (lit : F64)
  /-- R221 -/
  | jump (target : BitVec 32)
  /-- R222 -/
  | jumpneg (target : BitVec 32)
  /-- R223 -/
  | jumppos (target : BitVec 32)
  /-- R224 -/
  | jumpnull (target : BitVec 32)
  /-- R184 -/
  | loadind (idx : BitVec 32)
  /-- R185 -/
  | storeind (idx : BitVec 32)
  /-- R231 -/
  | dumpreg
  /-- R232 -/
  | dumpprog
  /-- R152: the OP value, one that has no row of its own (R106) -/
  | unrecognized (op : BitVec 8)
deriving DecidableEq, Repr

end Sys2Proof
end

