-- ==== Sys2Proof/WellFormed.lean ====
section
/-! DEFINITION. Which terms of Instr stand for an instruction word. Every value of an operand field is encodable
(R102, R103), so the one check is that an unrecognized opcode is one without a row of its own (R106). -/

namespace Sys2Proof

/-- The OP values without a row of their own: 0x00 and 0x18..0xFF (R105, R106). -/
def unrecognizedOp (op : BitVec 8) : Bool :=
  op == 0x00#8 || (0x18#8).ule op

/-- The instruction is one that a word of R100 stands for. -/
def Instr.wellFormed : Instr → Bool
  | .stop => true
  | .start => true
  | .in_ _ => true
  | .out _ => true
  | .load _ => true
  | .store _ => true
  | .loadnum _ => true
  | .add _ => true
  | .sub _ => true
  | .mul _ => true
  | .div _ => true
  | .addnum _ => true
  | .subnum _ => true
  | .mulnum _ => true
  | .divnum _ => true
  | .jump _ => true
  | .jumpneg _ => true
  | .jumppos _ => true
  | .jumpnull _ => true
  | .loadind _ => true
  | .storeind _ => true
  | .dumpreg => true
  | .dumpprog => true
  | .unrecognized op => unrecognizedOp op

end Sys2Proof
end

