-- ==== Sys2Proof/Decode.lean ====
section
/-! DEFINITION. Instruction words: the decoder, total on every 128-bit word, and after it the encoder.

Decode cannot fail (R132): no encoding is illegal (R106), so nothing is rejected (log entry 1), and an OP value without a row
of its own decodes to `unrecognized`. There is one word per program slot and one length (R107), and the spec
gives an instruction word no byte order (R50, R100), so the word is decoded whole. -/

namespace Sys2Proof

/-- W[103:96], the opcode tag (R100). -/
def opField (w : InstrWord) : BitVec 8 := w.extractLsb' 96 8

/-- W[95:64], the integer interpretation of the operand (R100, R102). -/
def immIField (w : InstrWord) : BitVec 32 := w.extractLsb' 64 32

/-- W[63:0], the floating interpretation of the operand (R100, R103). -/
def immFField (w : InstrWord) : F64 := w.extractLsb' 0 64

/-- W[127:104], reserved: decode ignores it (R100, R101). -/
def rsvField (w : InstrWord) : BitVec 24 := w.extractLsb' 104 24

/-- Decode reads OP to select the instruction and takes the one field the opcode consumes (R101, R104, R105,
R132). -/
def decode (w : InstrWord) : Instr :=
  match opField w with
  | 0x01#8 => .stop
  | 0x02#8 => .start
  | 0x03#8 => .in_ (immIField w)
  | 0x04#8 => .out (immIField w)
  | 0x05#8 => .load (immIField w)
  | 0x06#8 => .store (immIField w)
  | 0x07#8 => .loadnum (immFField w)
  | 0x08#8 => .add (immIField w)
  | 0x09#8 => .sub (immIField w)
  | 0x0A#8 => .mul (immIField w)
  | 0x0B#8 => .div (immIField w)
  | 0x0C#8 => .addnum (immFField w)
  | 0x0D#8 => .subnum (immFField w)
  | 0x0E#8 => .mulnum (immFField w)
  | 0x0F#8 => .divnum (immFField w)
  | 0x10#8 => .jump (immIField w)
  | 0x11#8 => .jumpneg (immIField w)
  | 0x12#8 => .jumppos (immIField w)
  | 0x13#8 => .jumpnull (immIField w)
  | 0x14#8 => .loadind (immIField w)
  | 0x15#8 => .storeind (immIField w)
  | 0x16#8 => .dumpreg
  | 0x17#8 => .dumpprog
  | op => .unrecognized op

/-- The host's numbering of a table row's bits, bit 0 the least significant bit of the one 128-bit word. Every bit
above nbits is 0 there, and no instruction is longer than 128 bits (R107). -/
def decodeTableWord (nbits w : Nat) : Option Instr :=
  if nbits ≤ 128 then some (decode (BitVec.ofNat 128 w)) else none

/-- A word of R100 from its fields, RSV written as 0. -/
def packWord (op : BitVec 8) (immI : BitVec 32) (immF : F64) : InstrWord :=
  0#24 ++ op ++ immI ++ immF

/-- The OP value of R105's table. -/
def Instr.opcode : Instr → BitVec 8
  | .stop => 0x01#8
  | .start => 0x02#8
  | .in_ _ => 0x03#8
  | .out _ => 0x04#8
  | .load _ => 0x05#8
  | .store _ => 0x06#8
  | .loadnum _ => 0x07#8
  | .add _ => 0x08#8
  | .sub _ => 0x09#8
  | .mul _ => 0x0A#8
  | .div _ => 0x0B#8
  | .addnum _ => 0x0C#8
  | .subnum _ => 0x0D#8
  | .mulnum _ => 0x0E#8
  | .divnum _ => 0x0F#8
  | .jump _ => 0x10#8
  | .jumpneg _ => 0x11#8
  | .jumppos _ => 0x12#8
  | .jumpnull _ => 0x13#8
  | .loadind _ => 0x14#8
  | .storeind _ => 0x15#8
  | .dumpreg => 0x16#8
  | .dumpprog => 0x17#8
  | .unrecognized op => op

/-- The IMM_I field the instruction consumes, 0 where it consumes none (R104). -/
def Instr.immI : Instr → BitVec 32
  | .stop => 0
  | .start => 0
  | .in_ p => p
  | .out p => p
  | .load i => i
  | .store i => i
  | .loadnum _ => 0
  | .add i => i
  | .sub i => i
  | .mul i => i
  | .div i => i
  | .addnum _ => 0
  | .subnum _ => 0
  | .mulnum _ => 0
  | .divnum _ => 0
  | .jump t => t
  | .jumpneg t => t
  | .jumppos t => t
  | .jumpnull t => t
  | .loadind i => i
  | .storeind i => i
  | .dumpreg => 0
  | .dumpprog => 0
  | .unrecognized _ => 0

/-- The IMM_F field the instruction consumes, 0 where it consumes none (R104). -/
def Instr.immF : Instr → F64
  | .stop => 0
  | .start => 0
  | .in_ _ => 0
  | .out _ => 0
  | .load _ => 0
  | .store _ => 0
  | .loadnum c => c
  | .add _ => 0
  | .sub _ => 0
  | .mul _ => 0
  | .div _ => 0
  | .addnum c => c
  | .subnum c => c
  | .mulnum c => c
  | .divnum c => c
  | .jump _ => 0
  | .jumpneg _ => 0
  | .jumppos _ => 0
  | .jumpnull _ => 0
  | .loadind _ => 0
  | .storeind _ => 0
  | .dumpreg => 0
  | .dumpprog => 0
  | .unrecognized _ => 0

/-- The instruction's word, with RSV and the fields it does not consume written as 0 (R100, R104, R105). The
assembler of Machine/Assembler.lean fills both operand fields instead, as R109 says; decode reads neither
difference (R101). -/
def encode (i : Instr) : InstrWord :=
  packWord i.opcode i.immI i.immF

end Sys2Proof
end

