-- ==== Sys2Proof/Machine/State.lean ====
section
/-! DEFINITION. The machine's state as plain data, holding everything spec/10_state.md gives it, the reasons a
step can stop, and the state after reset. -/

namespace Sys2Proof.Machine

open Sys2Proof

/-- The canonical form of a word memory of `size` words: addresses strictly rising, each below `size`, and no cell
equal to what an unlisted address reads as (+0.0). Equal memories are then equal lists. -/
abbrev Memory.Wf (size : Nat) (m : Memory) : Prop :=
  m.Pairwise (fun c d => c.1 < d.1) ∧ ∀ c ∈ m, c.1 < size ∧ c.2 ≠ 0#64

/-- R22. -/
inductive RunState where
  | running
  | halted
deriving DecidableEq, Repr

/-- What an AddressError records (R241): the offending integer index, or the offending binary64 pointer. -/
inductive BadAddress where
  | index (i : Int)
  | pointer (x : F64)
deriving DecidableEq, Repr

/-- The run-time fault causes of R241, the only values of a processor's fault record (R24). -/
inductive Cause where
  | addressError (a : BadAddress)
  | pcOutOfRange (pc : Int)
  | portRange (p : Int)
  | portDecode (p : Nat)
deriving DecidableEq, Repr

/-- A page table entry (R31). -/
structure Pte where
  present : Bool
  dirty : Bool
  accessed : Bool
  frame : Fin 4
  swapOff : BitVec 16
deriving DecidableEq, Repr

/-- A TLB entry (R34). -/
structure TlbEntry where
  tag : BitVec 16
  frame : Fin 4
  valid : Bool
deriving DecidableEq, Repr

/-- One processor's Memory Engine (R30 to R36) with its page-fault log (R39: the requested pages, oldest first).
`pt` is indexed by virtual page number, PDE d and PTE t being entry d*8 + t (R31, R32). -/
structure Mmu where
  phys : Memory
  pt : Vector Pte 64
  swap : Memory
  tlb : Vector TlbEntry 32
  tlbHead : Fin 32
  scCursor : Fin 64
  faultLog : List (Fin 64)
deriving DecidableEq, Repr

/-- A record of the dump sink (R246). -/
inductive DumpRecord where
  | memWord (i : Nat) (x : F64)
  | progWord (k : Nat) (w : InstrWord)
deriving DecidableEq, Repr

/-- A record of PORT_HIST (R246). -/
inductive PortRecord where
  | transfer (src dst : Endpoint) (v : F64)
  | stdinLine (p : Nat) (t : Text)
  | stdoutLine (p : Nat) (t : Text)
deriving DecidableEq, Repr

/-- One processor (R21 to R25, R39) with its private Memory Engine. Histories hold their oldest record first. -/
structure Proc where
  acc : F64
  pc : Int
  state : RunState
  fault : Option Cause
  prog : Vector InstrWord 200
  progLen : Nat
  mmu : Mmu
  dumpOut : List DumpRecord
  portHist : List PortRecord
deriving DecidableEq, Repr

/-- The whole run: the processors in declaration order (R261), the fixed configuration (R260), the lines of the
stdin feed still to come (R173) and the lines the stdout sink has received (R174).

`turn` and `ticks` are the model's own (log entries 8 and 10): `turn` is the processor whose step it is, `ticks`
counts the steps and is the argument of the free values. No statement rests on a value of either. -/
structure State where
  procs : List Proc
  wiring : Wiring
  stdin : List Text
  stdout : List Text
  turn : Nat
  ticks : Nat
deriving DecidableEq, Repr

/-- The reasons a step or a meaning has no next state. None of them is a processor's fault record: raising a
`Cause` is a next state (R250). All are safe: the model stops, it invents nothing (log entries 11 and 12). -/
inductive Fault where
  /-- step: every processor is HALTED with no fault, the end of a run (R262). Safe. -/
  | runEnded
  /-- step: no agent has a step and some processor holds a fault, a faulted state (R262). Safe. -/
  | runFaulted
  /-- step: no agent has a step, no processor holds a fault, and some processor waits at IN or OUT for ever
  (R175, R243, R262: PortDeadlock, an observable permanent stall). Safe. -/
  | deadlock
  /-- IN or OUT executed while its endpoint has no ready producer or consumer: it has no transition before then
  (R161, R162). step never selects such a processor. Safe. -/
  | portStall
  /-- step: a RUNNING processor without a fault whose pc is outside [0, 200). No run reaches it (R131). Safe. -/
  | fetchOutOfRange
  /-- a meaning: `turn` names no processor. step never selects one. Safe. -/
  | noProcessor
  /-- a memory access: no page is present, so the sweep of R62 never ends. Invariant I1 (R37) rules it out. Safe. -/
  | sweepNeverEnds
deriving DecidableEq, Repr

/-- No meaning for an instruction. Every instruction of this hardware has one, so nothing raises it. -/
inductive Refusal where
  /-- exec's arm of an instruction not modelled yet. Safe. -/
  | notModelled (mnemonic : String)
deriving DecidableEq, Repr

/-- Why a Memory Engine operation does not complete: the range check of R53, or a sweep with no present page. -/
inductive MmuStop where
  | address (i : Int)
  | noVictim
deriving DecidableEq, Repr

/-- What can complete an IN: a line of the feed with the lines after it (R173), or a processor whose next
instruction is a matching OUT, with its endpoint (R171). -/
inductive Producer where
  | line (t : Text) (rest : List Text)
  | processor (q : Endpoint) (r : Proc)
deriving DecidableEq, Repr

/-- What can complete an OUT: the stdout sink (R174), or a processor whose next instruction is a matching IN, with
its endpoint (R171). -/
inductive Consumer where
  | sink
  | processor (q : Endpoint) (r : Proc)
deriving DecidableEq, Repr

/-- The outcome type of exec and step. -/
abbrev Outcome := Host.Outcome State Fault Refusal

/-- The reset page table (R40): pages 0..3 present in frames 0..3, every flag else clear, swap_off = n*1024. -/
def Pte.reset (n : Fin 64) : Pte where
  present := decide (n.val < 4)
  dirty := false
  accessed := false
  frame := if h : n.val < 4 then ⟨n.val, h⟩ else 0
  swapOff := BitVec.ofNat 16 (n.val * 1024)

/-- R40 for the Memory Engine, with MEM0 all +0.0 (log entry 3). -/
def Mmu.reset : Mmu where
  phys := []
  pt := Vector.ofFn Pte.reset
  swap := []
  tlb := Vector.replicate 32 { tag := 0, frame := 0, valid := false }
  tlbHead := 0
  scCursor := 0
  faultLog := []

/-- R40 for one processor, with no program loaded: every slot the all-zero word (R25; log entry 4). -/
def Proc.reset : Proc where
  acc := 0
  pc := 0
  state := .running
  fault := none
  prog := Vector.replicate 200 0
  progLen := 0
  mmu := Mmu.reset
  dumpOut := []
  portHist := []

/-- The configuration of State.reset (log entry 5): one processor with four ports, none of them bound, and
DUMP_MODE at its reference value (R8). -/
def Wiring.reset : Wiring where
  ids := [['A']]
  numPorts := 4
  channels := []
  stdinPort := none
  stdoutPort := none
  dumpMode := .peek

/-- The machine right after reset (R40, R280), one processor with no program loaded. `State.create` in
Machine/Boot.lean gives the state after reset of every configuration, program and MEM0. With one processor every `turn`
picks it, so 0 orders nothing (log entry 10). -/
def State.reset : State where
  procs := [Proc.reset]
  wiring := Wiring.reset
  stdin := []
  stdout := []
  turn := 0
  ticks := 0

end Sys2Proof.Machine
end

