-- ==== Sys2Proof/Machine/Float.lean ====
section
/-! DEFINITION. IEEE 754 binary64 arithmetic and comparison on bit patterns (R14, R200 to R203), computed exactly and
rounded once, to nearest with ties to even.

Every finite binary64 value is a whole number of units of 2^-1074, the least subnormal, so a finite value is held as
an integer count of units. -/

namespace Sys2Proof.Machine

open Sys2Proof

/-- The sign bit. -/
def F64.sign (x : F64) : Bool := x.msb

/-- The 63 bits below the sign: exponent and fraction. They order the magnitudes. -/
def F64.mag (x : F64) : Nat := x.toNat % 2 ^ 63

/-- The magnitude bits of an infinity. -/
def F64.infMag : Nat := 0x7FF0000000000000

/-- The value with a sign and magnitude bits. -/
def F64.ofMag (neg : Bool) (mag : Nat) : F64 :=
  BitVec.ofNat 64 ((if neg then 2 ^ 63 else 0) + mag)

def F64.isNan (x : F64) : Bool := decide (F64.infMag < F64.mag x)

def F64.isInf (x : F64) : Bool := decide (F64.mag x = F64.infMag)

def F64.isZero (x : F64) : Bool := decide (F64.mag x = 0)

def F64.isFinite (x : F64) : Bool := decide (F64.mag x < F64.infMag)

/-- The magnitude of a finite value in units of 2^-1074: subnormals have exponent field 0 and no hidden bit. -/
def F64.units (x : F64) : Nat :=
  let e := F64.mag x / 2 ^ 52
  let f := F64.mag x % 2 ^ 52
  if e = 0 then f else (2 ^ 52 + f) * 2 ^ (e - 1)

/-- A finite value in units of 2^-1074, with its sign. -/
def F64.fixed (x : F64) : Int :=
  if F64.sign x then -(F64.units x : Int) else (F64.units x : Int)

/-- The magnitude bits of num/den units of 2^-1074 rounded to nearest, ties to even, with gradual underflow, and an
infinity on overflow (R200). `e` is the number of binary places dropped so that 53 bits are kept; adding the rounded
significand to e*2^52 sets the exponent field, also where rounding carries into it. -/
def F64.roundMag (num den : Nat) : Nat :=
  let e := Nat.log2 (num / den) - 52
  let d := den * 2 ^ e
  let q := num / d
  let r := num % d
  let q := if d < 2 * r ∨ (2 * r = d ∧ q % 2 = 1) then q + 1 else q
  min F64.infMag (e * 2 ^ 52 + q)

/-- Negation: the sign bit flipped. -/
def F64.neg (x : F64) : F64 := x ^^^ (1#64 <<< 63)

/-- `a + b` (R200, R203). `nan` is the NaN delivered where the result is a NaN (R201). -/
def F64.add (nan a b : F64) : F64 :=
  if F64.isNan a || F64.isNan b then nan
  else if F64.isInf a then (if F64.isInf b && F64.sign a != F64.sign b then nan else a)
  else if F64.isInf b then b
  else
    let z := F64.fixed a + F64.fixed b
    if z = 0 then F64.ofMag (F64.sign a && F64.sign b) 0
    else F64.ofMag (decide (z < 0)) (F64.roundMag z.natAbs 1)

/-- `a - b`, which IEEE 754 defines as a + (-b). -/
def F64.sub (nan a b : F64) : F64 := F64.add nan a (F64.neg b)

/-- `a * b` (R200, R203). -/
def F64.mul (nan a b : F64) : F64 :=
  let neg := F64.sign a != F64.sign b
  if F64.isNan a || F64.isNan b then nan
  else if (F64.isInf a && F64.isZero b) || (F64.isZero a && F64.isInf b) then nan
  else if F64.isInf a || F64.isInf b then F64.ofMag neg F64.infMag
  else F64.ofMag neg (F64.roundMag (F64.units a * F64.units b) (2 ^ 1074))

/-- `a / b` (R200, R203): a finite non-zero value over a zero is an infinity, zero over zero a NaN. -/
def F64.div (nan a b : F64) : F64 :=
  let neg := F64.sign a != F64.sign b
  if F64.isNan a || F64.isNan b then nan
  else if (F64.isInf a && F64.isInf b) || (F64.isZero a && F64.isZero b) then nan
  else if F64.isInf a || F64.isZero b then F64.ofMag neg F64.infMag
  else if F64.isInf b then F64.ofMag neg 0
  else F64.ofMag neg (F64.roundMag (F64.units a * 2 ^ 1074) (F64.units b))

/-- The place of a non-NaN value in the order of the numbers; both zeros have place 0. -/
def F64.place (x : F64) : Int :=
  if F64.sign x then -(F64.mag x : Int) else (F64.mag x : Int)

/-- `a < b`: false with a NaN (R14). -/
def F64.lt (a b : F64) : Bool :=
  !F64.isNan a && !F64.isNan b && decide (F64.place a < F64.place b)

/-- `a == b`: false with a NaN, and -0.0 == +0.0 (R14). -/
def F64.eq (a b : F64) : Bool :=
  !F64.isNan a && !F64.isNan b && decide (F64.place a = F64.place b)

/-- The integer value of a finite integral value, -0.0 giving 0; nothing for any other value (R180). -/
def F64.toInt? (x : F64) : Option Int :=
  if F64.isFinite x ∧ F64.fixed x % 2 ^ 1074 = 0 then some (F64.fixed x / 2 ^ 1074) else none

/-- The quiet NaN with a sign (bit 51) and payload (bits 50..0): every quiet NaN is one of these (R201). -/
def quietNan (b : BitVec 52) : F64 :=
  b.extractLsb' 51 1 ++ 0xFFF#12 ++ b.extractLsb' 0 51

/-- The NaN with a sign (bit 52) and fraction (bits 51..0), a fraction of 0 standing for 1, since 0 would be an
infinity: every NaN is one of these (R176). -/
def anyNan (b : BitVec 53) : F64 :=
  let frac := b.extractLsb' 0 52
  b.extractLsb' 52 1 ++ 0x7FF#11 ++ (if frac = 0#52 then 1#52 else frac)

/-- The NaN an arithmetic instruction delivers in step `tick` (R201; log entry 8). -/
def arithNan (tick : Nat) : F64 := quietNan (Config.freeQuietNan tick)

/-- The NaN a port delivers in step `tick` (R176; log entry 9). -/
def portNan (tick : Nat) : F64 := anyNan (Config.freePortNan tick)

/-- Wire(v) between processors (R176): v itself, and for a NaN some NaN. -/
def wire (nan v : F64) : F64 := if F64.isNan v then nan else v

end Sys2Proof.Machine
end

