-- ==== Sys2Proof/Machine/Flags.lean ====
section
/-! DEFINITION. The conditions. The machine has no flags and no condition codes (R26): JUMPNEG, JUMPPOS and JUMPNULL
test the accumulator directly, by the IEEE comparisons with 0.0 (R222 to R224, D33). -/

namespace Sys2Proof.Machine

open Sys2Proof

/-- `acc < 0.0` (R222). -/
def isNegative (acc : F64) : Bool := F64.lt acc 0#64

/-- `acc > 0.0` (R223). -/
def isPositive (acc : F64) : Bool := F64.lt 0#64 acc

/-- `acc == 0.0` (R224). -/
def isNull (acc : F64) : Bool := F64.eq acc 0#64

end Sys2Proof.Machine
end

