-- ==== Sys2Proof/Machine/Decimal.lean ====
section
/-! DEFINITION. Decimal text: the literals of the assembler (R109) and the wire codec of the ports (R176).

A decimal floating literal is an optional sign, one or more digits, an optional fraction (a point and one or more
digits) and an optional exponent (e or E, an optional sign, one or more digits), with nothing before or after it
(R109; log entry 6). -/

namespace Sys2Proof.Machine

open Sys2Proof

/-- The value of a decimal digit. -/
def digitVal (c : Char) : Option Nat :=
  if 48 ≤ c.toNat ∧ c.toNat ≤ 57 then some (c.toNat - 48) else none

/-- Reads the digits a text begins with: their number, their value on top of `acc`, and the rest of the text. -/
def readDigits : Text → Nat → Nat → Nat × Nat × Text
  | [], n, acc => (n, acc, [])
  | c :: cs, n, acc =>
    match digitVal c with
    | some d => readDigits cs (n + 1) (acc * 10 + d)
    | none => (n, acc, c :: cs)

/-- Reads an optional sign: whether it is a minus, and the rest. -/
def readSign : Text → Bool × Text
  | '+' :: cs => (false, cs)
  | '-' :: cs => (true, cs)
  | cs => (false, cs)

/-- A decimal integer, an optional sign and one or more digits (R109). -/
def parseInt (t : Text) : Option Int :=
  let (neg, cs) := readSign t
  match readDigits cs 0 0 with
  | (n, v, rest) =>
    if n ≠ 0 ∧ rest = [] then some (if neg then -(v : Int) else (v : Int)) else none

/-- The exponent part of a literal, 0 where there is none; nothing if what stands there is no exponent. -/
def readExponent : Text → Option Int
  | [] => some 0
  | c :: cs => if c = 'e' ∨ c = 'E' then parseInt cs else none

/-- A decimal floating literal as (minus sign, coefficient, exponent of ten), its value coefficient*10^exponent. -/
def parseDecimal (t : Text) : Option (Bool × Nat × Int) :=
  let (neg, cs) := readSign t
  match readDigits cs 0 0 with
  | (n, v, rest) =>
    if n = 0 then none
    else match rest with
      | '.' :: fs =>
        match readDigits fs 0 v with
        | (k, w, rest') =>
          if k = 0 then none else (readExponent rest').map fun e => (neg, w, e - (k : Int))
      | _ => (readExponent rest).map fun e => (neg, v, e)

/-- The magnitude bits of coeff*10^exp rounded to the nearest binary64, ties to even. The two clamps only keep
the powers small: above 10^400 every value overflows, and below 10^-399 every value rounds to zero. -/
def decimalMag (coeff : Nat) (exp : Int) : Nat :=
  match exp with
  | .ofNat e =>
    if coeff = 0 then 0
    else if 400 < e then F64.infMag
    else F64.roundMag (coeff * 10 ^ e * 2 ^ 1074) 1
  | .negSucc e =>
    if Nat.log2 coeff + 400 < e + 1 then 0
    else F64.roundMag (coeff * 2 ^ 1074) (10 ^ (e + 1))

/-- A decimal floating literal as the nearest binary64 (R109, R176); an infinity where it overflows. -/
def decimalToF64 (t : Text) : Option F64 :=
  (parseDecimal t).map fun (neg, coeff, exp) => F64.ofMag neg (decimalMag coeff exp)

/-- DecodeText(t) (R176): a decimal floating literal, or "+Inf", "-Inf", "Inf" or "NaN". `nan` is the NaN that
"NaN" gives (log entry 9). -/
def decodeText (nan : F64) (t : Text) : Option F64 :=
  if t = ['+', 'I', 'n', 'f'] ∨ t = ['I', 'n', 'f'] then some (F64.ofMag false F64.infMag)
  else if t = ['-', 'I', 'n', 'f'] then some (F64.ofMag true F64.infMag)
  else if t = ['N', 'a', 'N'] then some nan
  else decimalToF64 t

/-- The integer part and the remainder of u units of 2^-1074 in multiples of 10^-q. -/
def decimalDiv (u : Nat) (q : Int) : Nat × Nat × Nat :=
  match q with
  | .ofNat k => (u * 10 ^ k / 2 ^ 1074, u * 10 ^ k % 2 ^ 1074, 2 ^ 1074)
  | .negSucc k => (u / (2 ^ 1074 * 10 ^ (k + 1)), u % (2 ^ 1074 * 10 ^ (k + 1)), 2 ^ 1074 * 10 ^ (k + 1))

/-- The multiple of 10^-q that reads back as the magnitude `mag` of u units of 2^-1074, if one of the two around it
does: the nearer of them if both do, the even one if they are equally near (log entry 16). -/
def decimalAt (mag u : Nat) (q : Int) : Option Nat :=
  match decimalDiv u q with
  | (c, r, d) =>
    let below := decimalMag c (-q) = mag
    let above := decimalMag (c + 1) (-q) = mag
    if below ∧ (¬above ∨ 2 * r < d ∨ (2 * r = d ∧ c % 2 = 0)) then some c
    else if above then some (c + 1)
    else none

/-- The coarsest decimal that reads back as the magnitude: the first q, counting up, for which `decimalAt` finds
one. At q = 1074 the decimal is exact, so the search from -309 ends within 1384 places. -/
def shortestFrom (mag u : Nat) : Nat → Int → Nat × Int
  | 0, q => ((decimalDiv u q).1, q)
  | fuel + 1, q =>
    match decimalAt mag u q with
    | some c => (c, q)
    | none => shortestFrom mag u fuel (q + 1)

/-- The decimal digits of a number, most significant first. -/
def natDigits (n : Nat) : Text := Nat.toDigits 10 n

/-- c*10^-q in positional notation with no exponent: zeros appended where q is not positive, else a point before the
last q digits. -/
def positional (c : Nat) (q : Int) : Text :=
  match q with
  | .ofNat 0 => natDigits c
  | .ofNat k =>
    let ds := natDigits c
    let ds := List.replicate (k + 1 - ds.length) '0' ++ ds
    ds.take (ds.length - k) ++ '.' :: ds.drop (ds.length - k)
  | .negSucc k => natDigits c ++ List.replicate (k + 1) '0'

/-- The digits of a finite magnitude: the shortest decimal that reads back as exactly it (R176). -/
def shortestText (v : F64) : Text :=
  if F64.isZero v then ['0']
  else
    let r := shortestFrom (F64.mag v) (F64.units v) 1383 (-309)
    positional r.1 r.2

/-- EncodeText(v) (R176): the shortest decimal string that reads back as exactly v, in positional notation, with
"-" before a negative value; "+Inf", "-Inf" and "NaN". -/
def encodeText (v : F64) : Text :=
  if F64.isNan v then ['N', 'a', 'N']
  else if F64.isInf v then (if F64.sign v then ['-', 'I', 'n', 'f'] else ['+', 'I', 'n', 'f'])
  else (if F64.sign v then ['-'] else []) ++ shortestText v

end Sys2Proof.Machine
end

