-- ==== Sys2Proof/Machine/Memory.lean ====
section
/-! DEFINITION. The operations on a word memory: one read, one write, one block copy. Each keeps the canonical
form of State.lean (Laws/Memory.lean). -/

namespace Sys2Proof.Machine

open Sys2Proof

/-- The word at an index; an index not listed holds +0.0 (log entry 3). -/
def Memory.read : Memory → Nat → F64
  | [], _ => 0#64
  | (b, w) :: rest, a => if b = a then w else Memory.read rest a

/-- Writes one word, all 64 bits (R71). Writing what an unlisted index reads as removes the cell. -/
def Memory.write : Memory → Nat → F64 → Memory
  | [], a, v => if v = 0#64 then [] else [(a, v)]
  | (b, w) :: rest, a, v =>
    if a < b then (if v = 0#64 then (b, w) :: rest else (a, v) :: (b, w) :: rest)
    else if a = b then (if v = 0#64 then rest else (a, v) :: rest)
    else (b, w) :: Memory.write rest a v

/-- The cells of `m` in [base, base + len), moved to start at `dest`. -/
def Memory.block (m : Memory) (base len dest : Nat) : Memory :=
  (m.filter fun c => base ≤ c.1 ∧ c.1 < base + len).map fun c => (c.1 - base + dest, c.2)

/-- `for k in 0..len-1: dst[dstBase + k] <- src[srcBase + k]`, the copy loop of R64 and R65. -/
def Memory.copy (src : Memory) (srcBase len : Nat) (dst : Memory) (dstBase : Nat) : Memory :=
  (dst.filter fun c => c.1 < dstBase)
    ++ Memory.block src srcBase len dstBase
    ++ (dst.filter fun c => dstBase + len ≤ c.1)

end Sys2Proof.Machine
end

