-- ==== Sys2Proof/Machine/Mmu.lean ====
section
/-! DEFINITION. The Memory Engine (spec/20_memory.md): address decomposition, TLB, page-table walk, page fault with
second-chance replacement and swap transfer, and the read, write and peek operations. -/

namespace Sys2Proof.Machine

open Sys2Proof

/-! ## Address decomposition (R52) -/

/-- `i & 0xFC00`: the index with its low 10 bits cleared. -/
def pageStart (i : VIndex) : BitVec 16 := i &&& 0xFC00#16

/-- `i & 0x03FF`: the low 10 bits. -/
def offset (i : VIndex) : Nat := (i &&& 0x03FF#16).toNat

/-- `i[15:13]`, the directory index. -/
def dirIndex (i : VIndex) : Nat := (i.extractLsb' 13 3).toNat

/-- `i[12:10]`, the table index. -/
def tblIndex (i : VIndex) : Nat := (i.extractLsb' 10 3).toNat

/-- `i >> 10`, the virtual page number, the index of the PTE in PT[0..63]. -/
def vpn (i : VIndex) : Fin 64 :=
  ⟨i.toNat >>> 10, by have := i.isLt; rw [Nat.shiftRight_eq_div_pow]; omega⟩

/-- `n << 10`, the page-start of virtual page n (R65). -/
def pageTag (n : Fin 64) : BitVec 16 := BitVec.ofNat 16 (n.val <<< 10)

/-- The physical word of an offset in a frame, `f*1024 + offset` (R54). -/
def frameWord (f : Fin 4) (o : Nat) : Nat := f.val * 1024 + o

/-- The range check of R53: an integer in [0, 65536) as a virtual index, nothing otherwise. Never clamped, never
wrapped. -/
def checkIndex (i : Int) : Option VIndex :=
  if 0 ≤ i ∧ i < 65536 then some (BitVec.ofInt 16 i) else none

/-! ## Page table and TLB entries -/

/-- PT[n] (R31). -/
def Mmu.pte (m : Mmu) (n : Fin 64) : Pte := m.pt[n]

/-- Writes PT[n]. -/
def Mmu.setPte (m : Mmu) (n : Fin 64) (e : Pte) : Mmu := { m with pt := m.pt.set n e }

/-- TLB[k] (R34). -/
def Mmu.tlbEntry (m : Mmu) (k : Fin 32) : TlbEntry := m.tlb[k]

/-- `PT[n].accessed <- 1` (R56, R57). -/
def Mmu.markAccessed (m : Mmu) (n : Fin 64) : Mmu :=
  m.setPte n { m.pte n with accessed := true }

/-- `PT[n].dirty <- 1` (R71). -/
def Mmu.markDirty (m : Mmu) (n : Fin 64) : Mmu :=
  m.setPte n { m.pte n with dirty := true }

/-- The probe of R55: the first k in ascending order with TLB[k] valid and its tag the page-start. -/
def Mmu.probe (m : Mmu) (ps : BitVec 16) : Option (Fin 32) :=
  (List.finRange 32).find? fun k => (m.tlbEntry k).valid && (m.tlbEntry k).tag == ps

/-- Invalidates every valid entry of frame f, the loop at the head of TLBInsert (R58). -/
def invalidateFrame (tlb : Vector TlbEntry 32) (f : Fin 4) : Vector TlbEntry 32 :=
  Vector.ofFn fun k : Fin 32 =>
    if tlb[k].valid = true ∧ tlb[k].frame = f then { tlb[k] with valid := false } else tlb[k]

/-- TLBInsert(tag, f) (R58): invalidate the aliases of frame f, overwrite TLB[TLB_HEAD], advance the head
mod 32. -/
def Mmu.tlbInsert (m : Mmu) (tag : BitVec 16) (f : Fin 4) : Mmu :=
  { m with
    tlb := (invalidateFrame m.tlb f).set m.tlbHead { tag := tag, frame := f, valid := true }
    tlbHead := m.tlbHead + 1 }

/-! ## Page fault (R60 to R66) -/

/-- The sweep of R62 from index j over at most `fuel` indices: the victim and the page table with the accessed bits
it cleared, or nothing if the fuel ran out (log entry 12). -/
def sweep : Nat → Fin 64 → Vector Pte 64 → Option (Fin 64 × Vector Pte 64)
  | 0, _, _ => none
  | fuel + 1, j, pt =>
    if pt[j].present then
      if pt[j].accessed then sweep fuel (j + 1) (pt.set j { pt[j] with accessed := false })
      else some (j, pt)
    else sweep fuel (j + 1) pt

/-- SecondChanceSelect() (R62): the victim, with the accessed bits cleared on the way and SC_CURSOR moved past it.
With a present page the sweep ends within 127 indices (R61), so 128 of them are enough; nothing means that no page
is present and the loop of R62 never ends. -/
def Mmu.secondChance (m : Mmu) : Option (Fin 64 × Mmu) :=
  match sweep 128 m.scCursor m.pt with
  | none => none
  | some (v, pt) => some (v, { m with pt := pt, scCursor := v + 1 })

/-- SwapOut(v, f) (R64): the frame's 1024 words to the victim's swap slot, and its dirty bit cleared. -/
def Mmu.swapOut (m : Mmu) (v : Fin 64) (f : Fin 4) : Mmu :=
  ({ m with swap := Memory.copy m.phys (frameWord f 0) 1024 m.swap (m.pte v).swapOff.toNat }).setPte v
    { m.pte v with dirty := false }

/-- PT[v] made absent and PT[n] present in frame f, in that order (R65). -/
def Mmu.remap (m : Mmu) (n v : Fin 64) (f : Fin 4) : Mmu :=
  let m := m.setPte v { m.pte v with present := false }
  m.setPte n { m.pte n with present := true, frame := f }

/-- SwapIn(n, v, f) (R65): the requested page's words into the frame, the page table updated, the TLB refreshed. -/
def Mmu.swapIn (m : Mmu) (n v : Fin 64) (f : Fin 4) : Mmu :=
  (({ m with phys := Memory.copy m.swap (m.pte n).swapOff.toNat 1024 m.phys (frameWord f 0) }).remap n v f).tlbInsert
    (pageTag n) f

/-- `emit FaultLog(n)` (R63). -/
def Mmu.logFault (m : Mmu) (n : Fin 64) : Mmu := { m with faultLog := m.faultLog ++ [n] }

/-- PageFault(n) (R60): log, select, swap out if dirty, swap in. Nothing if the selection never ends. -/
def Mmu.pageFault (m : Mmu) (n : Fin 64) : Option Mmu :=
  match (m.logFault n).secondChance with
  | none => none
  | some (v, m) =>
    let f := (m.pte v).frame
    let m := if (m.pte v).dirty then m.swapOut v f else m
    some (m.swapIn n v f)

/-! ## Translation (R55 to R58, R68) -/

/-- Step 1, the TLB (R55, R56), and step 2, the walk (R57): the physical word index and the state after, or nothing
where the page is absent. -/
def Mmu.lookup (m : Mmu) (i : VIndex) : Option (Nat × Mmu) :=
  match m.probe (pageStart i) with
  | some k => some (frameWord (m.tlbEntry k).frame (offset i), m.markAccessed (vpn i))
  | none =>
    if (m.pte (vpn i)).present then
      some (frameWord (m.pte (vpn i)).frame (offset i),
        (m.markAccessed (vpn i)).tlbInsert (pageStart i) (m.pte (vpn i)).frame)
    else none

/-- Translate(i) for an index in range (R68): steps 1 and 2, and on an absent page one page fault (R60) and the
retry (R66). Nothing if the page fault's sweep never ends. -/
def Mmu.translate (m : Mmu) (i : VIndex) : Option (Nat × Mmu) :=
  match m.lookup i with
  | some r => some r
  | none =>
    match m.pageFault (vpn i) with
    | none => none
    | some m' => m'.lookup i

/-! ## The contract (R53, R70 to R72) -/

/-- MMU.read(i) (R70): the range check first (R53), then the translated word. -/
def Mmu.read (m : Mmu) (i : Int) : Except MmuStop (F64 × Mmu) :=
  match checkIndex i with
  | none => .error (.address i)
  | some j =>
    match m.translate j with
    | none => .error .noVictim
    | some (p, m') => .ok (Memory.read m'.phys p, m')

/-- MMU.write(i, v) (R71): the range check, the translation, the dirty bit, the word. -/
def Mmu.write (m : Mmu) (i : Int) (v : F64) : Except MmuStop Mmu :=
  match checkIndex i with
  | none => .error (.address i)
  | some j =>
    match m.translate j with
    | none => .error .noVictim
    | some (p, m') =>
      let m' := m'.markDirty (vpn j)
      .ok { m' with phys := Memory.write m'.phys p v }

/-- V(i), the architectural memory value (R38): the frame's word if the page is present, the swap slot's if not. -/
def Mmu.value (m : Mmu) (i : VIndex) : F64 :=
  if (m.pte (vpn i)).present then Memory.read m.phys (frameWord (m.pte (vpn i)).frame (offset i))
  else Memory.read m.swap ((vpn i).val * 1024 + offset i)

/-- MMU.peek(i) (R72): V(i), with no side effect. -/
def Mmu.peek (m : Mmu) (i : Int) : Except MmuStop F64 :=
  match checkIndex i with
  | none => .error (.address i)
  | some j => .ok (m.value j)

end Sys2Proof.Machine
end

