-- ==== Sys2Proof/Machine/Operands.lean ====
section
/-! DEFINITION. The operand forms of R104: a port, a memory index, a jump target (each IMM_I read as a two's complement
integer, R102) and a literal (IMM_F as it stands, R103), and the memory-indirect form's conversion of a word to an
index (R180). Range checks happen when the operand is used, not at decode (R102, R139). -/

namespace Sys2Proof.Machine

open Sys2Proof

/-- `imm_i = sext_32(W[95:64])` (R102), used unscaled as an index, a port or a target. -/
def immI (f : BitVec 32) : Int := f.toInt

/-- The port operand check (R160): p itself if it lies in [0, NUM_PORTS), nothing otherwise. -/
def checkPort (numPorts : Nat) (p : Int) : Option Nat :=
  if 0 ≤ p ∧ p < (numPorts : Int) then some p.toNat else none

/-- ToIndex(x) (R180): the integer that a finite integral word holds, or the AddressError of x. The range check of
the index comes after it, in the Memory Engine (R53). -/
def toIndex (x : F64) : Except Cause Int :=
  match F64.toInt? x with
  | some i => .ok i
  | none => .error (.addressError (.pointer x))

/-- The port an instruction receives on, for IN alone. -/
def inPort? : Instr → Option (BitVec 32)
  | .stop => none
  | .start => none
  | .in_ p => some p
  | .out _ => none
  | .load _ => none
  | .store _ => none
  | .loadnum _ => none
  | .add _ => none
  | .sub _ => none
  | .mul _ => none
  | .div _ => none
  | .addnum _ => none
  | .subnum _ => none
  | .mulnum _ => none
  | .divnum _ => none
  | .jump _ => none
  | .jumpneg _ => none
  | .jumppos _ => none
  | .jumpnull _ => none
  | .loadind _ => none
  | .storeind _ => none
  | .dumpreg => none
  | .dumpprog => none
  | .unrecognized _ => none

/-- The port an instruction sends on, for OUT alone. -/
def outPort? : Instr → Option (BitVec 32)
  | .stop => none
  | .start => none
  | .in_ _ => none
  | .out p => some p
  | .load _ => none
  | .store _ => none
  | .loadnum _ => none
  | .add _ => none
  | .sub _ => none
  | .mul _ => none
  | .div _ => none
  | .addnum _ => none
  | .subnum _ => none
  | .mulnum _ => none
  | .divnum _ => none
  | .jump _ => none
  | .jumpneg _ => none
  | .jumppos _ => none
  | .jumpnull _ => none
  | .loadind _ => none
  | .storeind _ => none
  | .dumpreg => none
  | .dumpprog => none
  | .unrecognized _ => none

end Sys2Proof.Machine
end

