-- ==== Sys2Proof/Machine/Ops.lean ====
section
/-! DEFINITION. The named operations on one processor that the meanings share: raising a fault, the end of a step,
jumping, and the memory accesses through the Memory Engine. -/

namespace Sys2Proof.Machine

open Sys2Proof

/-! ## Registers -/

/-- `acc <- v` (R21). -/
def Proc.setAcc (p : Proc) (v : F64) : Proc := { p with acc := v }

/-- `pc <- k` (R23). -/
def Proc.setPc (p : Proc) (k : Int) : Proc := { p with pc := k }

/-- `state <- r` (R22). -/
def Proc.setRunState (p : Proc) (r : RunState) : Proc := { p with state := r }

/-- The processor with its Memory Engine after an operation. -/
def Proc.setMmu (p : Proc) (m : Mmu) : Proc := { p with mmu := m }

/-- `emit Dump(...)` for records in emission order (R13, R230). -/
def Proc.emitDump (p : Proc) (rs : List DumpRecord) : Proc := { p with dumpOut := p.dumpOut ++ rs }

/-- Appends a completed transfer to PORT_HIST (R39). -/
def Proc.recordPort (p : Proc) (r : PortRecord) : Proc := { p with portHist := p.portHist ++ [r] }

/-! ## Taking a fault, and the end of a step -/

/-- `raise Fault(cause)` (R11, R250): the cause is recorded, acc and pc keep the values they have, and whatever the
Memory Engine has done stays done. There is no vector, no handler and no return (R250, R251): a processor with a
fault takes no further step (R130). -/
def Proc.raise (p : Proc) (c : Cause) : Proc := { p with fault := some c }

/-- The end of every step: the capacity guard (R134), else the negative-pc fault (R135). -/
def Proc.guardPc (p : Proc) : Proc :=
  if p.state = .running ∧ 200 ≤ p.pc then p.setRunState .halted
  else if p.state = .running ∧ p.pc < 0 then p.raise (.pcOutOfRange p.pc)
  else p

/-- The generic increment (R133) and then the checks at the end of the step (R136). -/
def Proc.finish (p : Proc) : Proc := (p.setPc (p.pc + 1)).guardPc

/-- A taken jump to T: `pc <- T - 1`, in exact arithmetic (R133, R220), so that the generic increment lands on T. -/
def Proc.jumpTo (p : Proc) (target : Int) : Proc := p.setPc (target - 1)

/-! ## Memory accesses -/

/-- `x <- MMU.read(i)` and then the rest of the instruction. On AddressError the instruction ends and nothing has
changed (R53, R250). -/
def Proc.withRead (p : Proc) (i : Int) (k : F64 → Proc → Except Fault Proc) : Except Fault Proc :=
  match p.mmu.read i with
  | .error (.address a) => .ok (p.raise (.addressError (.index a)))
  | .error .noVictim => .error .sweepNeverEnds
  | .ok (x, m) => k x (p.setMmu m)

/-- `MMU.write(i, v)` and then the rest of the instruction, with the same fault. -/
def Proc.withWrite (p : Proc) (i : Int) (v : F64) (k : Proc → Except Fault Proc) : Except Fault Proc :=
  match p.mmu.write i v with
  | .error (.address a) => .ok (p.raise (.addressError (.index a)))
  | .error .noVictim => .error .sweepNeverEnds
  | .ok m => k (p.setMmu m)

/-- `a <- ToIndex(MMU.read(i))` and then the rest of the instruction: the first access of LOADIND and STOREIND.
Where the conversion faults, the first access's side effects stay (R139, R184). -/
def Proc.withPointer (p : Proc) (i : Int) (k : Int → Proc → Except Fault Proc) : Except Fault Proc :=
  p.withRead i fun x p =>
    match toIndex x with
    | .error c => .ok (p.raise c)
    | .ok a => k a p

/-! ## The processor whose step it is -/

/-- The processor whose step it is. -/
def State.current (s : State) : Option Proc := s.procs[s.turn]?

/-- The state with that processor replaced. -/
def State.setCurrent (s : State) (p : Proc) : State := { s with procs := s.procs.set s.turn p }

/-- Gives processor k the turn. -/
def State.setTurn (s : State) (k : Nat) : State := { s with turn := k }

/-- The part of a step that one processor takes alone (R136): every instruction but IN and OUT. -/
def State.onCurrent (s : State) (f : Proc → Except Fault Proc) : Outcome :=
  match s.current with
  | none => .fault .noProcessor
  | some p =>
    match f p with
    | .error e => .fault e
    | .ok p' => .next (s.setCurrent p')

/-! ## Fetch and decode (R131, R132) -/

/-- `W <- PROG[pc]` (R131); nothing where pc names no slot. -/
def Proc.fetch (p : Proc) : Option InstrWord :=
  if h : 0 ≤ p.pc ∧ p.pc < 200 then some (p.prog[p.pc.toNat]'(by omega)) else none

/-- The instruction at pc, decoded (R132). -/
def Proc.nextInstr (p : Proc) : Option Instr := p.fetch.map decode

/-- The condition of R130: RUNNING and no fault. -/
def Proc.ready (p : Proc) : Bool := p.state == .running && p.fault.isNone

end Sys2Proof.Machine
end

