-- ==== Sys2Proof/Machine/Arithmetic.lean ====
section
/-! DEFINITION. ADD, SUB, MUL, DIV with a memory word and ADDNUM, SUBNUM, MULNUM, DIVNUM with a literal
(spec/44_arithmetic.md). The accumulator is always the left operand. A NaN result is the free value of the step
(R201; log entry 8). -/

namespace Sys2Proof.Machine

open Sys2Proof

/-- The memory-operand form: `m <- MMU.read(i); acc <- acc op m`. -/
def Proc.arithMem (p : Proc) (op : F64 → F64 → F64) (i : Int) : Except Fault Proc :=
  p.withRead i fun m p => .ok (p.setAcc (op p.acc m)).finish

/-- The literal-operand form: `acc <- acc op c`. -/
def Proc.arithLit (p : Proc) (op : F64 → F64 → F64) (c : F64) : Except Fault Proc :=
  .ok (p.setAcc (op p.acc c)).finish

/-- ADD (R204). -/
def execAdd (idx : BitVec 32) (s : State) : Outcome :=
  s.onCurrent fun p => p.arithMem (F64.add (arithNan s.ticks)) (immI idx)

/-- SUB (R205): acc minus memory. -/
def execSub (idx : BitVec 32) (s : State) : Outcome :=
  s.onCurrent fun p => p.arithMem (F64.sub (arithNan s.ticks)) (immI idx)

/-- MUL (R206). -/
def execMul (idx : BitVec 32) (s : State) : Outcome :=
  s.onCurrent fun p => p.arithMem (F64.mul (arithNan s.ticks)) (immI idx)

/-- DIV (R207): acc divided by memory. -/
def execDiv (idx : BitVec 32) (s : State) : Outcome :=
  s.onCurrent fun p => p.arithMem (F64.div (arithNan s.ticks)) (immI idx)

/-- ADDNUM (R208). -/
def execAddnum (lit : F64) (s : State) : Outcome :=
  s.onCurrent fun p => p.arithLit (F64.add (arithNan s.ticks)) lit

/-- SUBNUM (R209). -/
def execSubnum (lit : F64) (s : State) : Outcome :=
  s.onCurrent fun p => p.arithLit (F64.sub (arithNan s.ticks)) lit

/-- MULNUM (R210). -/
def execMulnum (lit : F64) (s : State) : Outcome :=
  s.onCurrent fun p => p.arithLit (F64.mul (arithNan s.ticks)) lit

/-- DIVNUM (R211). -/
def execDivnum (lit : F64) (s : State) : Outcome :=
  s.onCurrent fun p => p.arithLit (F64.div (arithNan s.ticks)) lit

end Sys2Proof.Machine
end

