-- ==== Sys2Proof/Machine/Control.lean ====
section
/-! DEFINITION. STOP, START and the unrecognized opcodes (spec/41_control.md). -/

namespace Sys2Proof.Machine

open Sys2Proof

/-- STOP (R150): HALTED, and the increment follows. -/
def execStop (s : State) : Outcome :=
  s.onCurrent fun p => .ok (p.setRunState .halted).finish

/-- START (R151): RUNNING, then the increment and the guard. -/
def execStart (s : State) : Outcome :=
  s.onCurrent fun p => .ok (p.setRunState .running).finish

/-- An unrecognized opcode (R152): nothing but the increment and the guard, whatever the OP value. -/
def execUnrecognized (_op : BitVec 8) (s : State) : Outcome :=
  s.onCurrent fun p => .ok p.finish

end Sys2Proof.Machine
end

