-- ==== Sys2Proof/Machine/Jumps.lean ====
section
/-! DEFINITION. JUMP, JUMPNEG, JUMPPOS and JUMPNULL (spec/45_jumps.md). -/

namespace Sys2Proof.Machine

open Sys2Proof

/-- A jump to `target` if `taken`, and the end of the step (R220). -/
def Proc.jumpIf (p : Proc) (taken : Bool) (target : Int) : Proc :=
  (if taken then p.jumpTo target else p).finish

/-- JUMP (R221). -/
def execJump (target : BitVec 32) (s : State) : Outcome :=
  s.onCurrent fun p => .ok (p.jumpIf true (immI target))

/-- JUMPNEG (R222). -/
def execJumpneg (target : BitVec 32) (s : State) : Outcome :=
  s.onCurrent fun p => .ok (p.jumpIf (isNegative p.acc) (immI target))

/-- JUMPPOS (R223). -/
def execJumppos (target : BitVec 32) (s : State) : Outcome :=
  s.onCurrent fun p => .ok (p.jumpIf (isPositive p.acc) (immI target))

/-- JUMPNULL (R224). -/
def execJumpnull (target : BitVec 32) (s : State) : Outcome :=
  s.onCurrent fun p => .ok (p.jumpIf (isNull p.acc) (immI target))

end Sys2Proof.Machine
end

