-- ==== Sys2Proof/Machine/LoadStore.lean ====
section
/-! DEFINITION. LOAD, STORE, LOADNUM, LOADIND and STOREIND (spec/43_load_store.md). -/

namespace Sys2Proof.Machine

open Sys2Proof

/-- LOAD (R181): `acc <- MMU.read(i)`. -/
def execLoad (idx : BitVec 32) (s : State) : Outcome :=
  s.onCurrent fun p => p.withRead (immI idx) fun x p => .ok (p.setAcc x).finish

/-- STORE (R182): `MMU.write(i, acc)`. -/
def execStore (idx : BitVec 32) (s : State) : Outcome :=
  s.onCurrent fun p => p.withWrite (immI idx) p.acc fun p => .ok p.finish

/-- LOADNUM (R183): `acc <- c`, all 64 bits. -/
def execLoadnum (lit : F64) (s : State) : Outcome :=
  s.onCurrent fun p => .ok (p.setAcc lit).finish

/-- LOADIND (R184): `a <- ToIndex(MMU.read(i)); acc <- MMU.read(a)`. -/
def execLoadind (idx : BitVec 32) (s : State) : Outcome :=
  s.onCurrent fun p => p.withPointer (immI idx) fun a p =>
    p.withRead a fun x p => .ok (p.setAcc x).finish

/-- STOREIND (R185): `a <- ToIndex(MMU.read(i)); MMU.write(a, acc)`. -/
def execStoreind (idx : BitVec 32) (s : State) : Outcome :=
  s.onCurrent fun p => p.withPointer (immI idx) fun a p =>
    p.withWrite a p.acc fun p => .ok p.finish

end Sys2Proof.Machine
end

