-- ==== Sys2Proof/Machine/Observation.lean ====
section
/-! DEFINITION. DUMPREG and DUMPPROG (spec/46_observation.md). The dump sink never blocks, and a whole dump is one
step (R230, R245). -/

namespace Sys2Proof.Machine

open Sys2Proof

/-- The records of DUMPREG with DUMP_MODE = peek: V(i) for i in 0..65535, in index order, no side effect (R231,
R72). -/
def Mmu.dumpPeek (m : Mmu) : List DumpRecord :=
  (List.range 65536).map fun i => .memWord i (m.value (BitVec.ofNat 16 i))

/-- One read of the loop of R231, its record before those of the rest of the loop. -/
def Mmu.dumpNext (i : Nat) (rest : Mmu → Except MmuStop (List DumpRecord × Mmu)) (r : Except MmuStop (F64 × Mmu)) :
    Except MmuStop (List DumpRecord × Mmu) :=
  match r with
  | .error e => .error e
  | .ok (x, m) =>
    match rest m with
    | .error e => .error e
    | .ok (rs, m) => .ok (.memWord i x :: rs, m)

/-- `for i in start..start+n-1: emit MemWord(i, MMU.read(i))` (R231): the records in order, and the engine after. -/
def Mmu.dumpRead : Nat → Nat → Mmu → Except MmuStop (List DumpRecord × Mmu)
  | 0, _, m => .ok ([], m)
  | n + 1, i, m => Mmu.dumpNext i (Mmu.dumpRead n (i + 1)) (m.read (i : Int))

/-- DUMPREG on one processor (R231). Every index is in range, so no AddressError can come of it. -/
def Proc.dumpMemory (p : Proc) (mode : DumpMode) : Except Fault Proc :=
  match mode with
  | .peek => .ok (p.emitDump p.mmu.dumpPeek).finish
  | .viaMmu =>
    match Mmu.dumpRead 65536 0 p.mmu with
    | .error (.address a) => .ok (p.raise (.addressError (.index a)))
    | .error .noVictim => .error .sweepNeverEnds
    | .ok (rs, m) => .ok ((p.setMmu m).emitDump rs).finish

/-- The records of DUMPPROG: the prog_len loaded words in slot order (R232). -/
def Proc.dumpProgram (p : Proc) : List DumpRecord :=
  (p.prog.toList.take p.progLen).zipIdx.map fun (w, k) => .progWord k w

/-- DUMPREG (R231). -/
def execDumpreg (s : State) : Outcome :=
  s.onCurrent fun p => p.dumpMemory s.wiring.dumpMode

/-- DUMPPROG (R232). -/
def execDumpprog (s : State) : Outcome :=
  s.onCurrent fun p => .ok (p.emitDump p.dumpProgram).finish

end Sys2Proof.Machine
end

