-- ==== Sys2Proof/Machine/Rendezvous.lean ====
section
/-! DEFINITION. Endpoints and port transfers (spec/42_ports.md R170 to R176): what an endpoint is bound to, when an IN or
an OUT is enabled, and the joint step of two processors. -/

namespace Sys2Proof.Machine

open Sys2Proof

/-- The other end of the channel an endpoint belongs to, if it belongs to one (R170 (a)); a channel is undirected. -/
def channelPeer : List (Endpoint × Endpoint) → Endpoint → Option Endpoint
  | [], _ => none
  | (a, b) :: rest, e => if a = e then some b else if b = e then some a else channelPeer rest e

/-- What an endpoint is bound to (R170). In a configuration R242 accepts, no endpoint is bound twice
(log entry 13). -/
def bindingOf (w : Wiring) (e : Endpoint) : Binding :=
  if w.stdinPort = some e then .stdin
  else if w.stdoutPort = some e then .stdout
  else match channelPeer w.channels e with
    | some q => .channel q
    | none => .unbound

/-- The processor at endpoint e, if it may step (R130) and its next instruction is an OUT (`port?` = outPort?) or an
IN (`port?` = inPort?) on exactly this port, the port having passed R160 (R171). -/
def State.partner (s : State) (port? : Instr → Option (BitVec 32)) (e : Endpoint) : Option Proc :=
  match s.procs[e.proc]? with
  | none => none
  | some r =>
    match r.nextInstr.bind port? with
    | none => none
    | some f => if r.ready = true ∧ checkPort s.wiring.numPorts (immI f) = some e.port then some r else none

/-- The ready producer of an IN at endpoint e: the next line of the feed on the stdin port (R173), or a processor at
a matching OUT on the other end of the channel, not the same processor (R171). There is none on the stdout port
(R174), on an unbound endpoint (R175), or past the end of the feed (R173). -/
def State.producer (s : State) (e : Endpoint) : Option Producer :=
  match bindingOf s.wiring e with
  | .stdin =>
    match s.stdin with
    | [] => none
    | t :: rest => some (.line t rest)
  | .channel q => if q.proc = e.proc then none else (s.partner outPort? q).map (.processor q)
  | .stdout => none
  | .unbound => none

/-- The ready consumer of an OUT at endpoint e: the stdout sink, always ready (R174), or a processor at a matching IN
on the other end of the channel (R171). There is none on the stdin port (R173) or an unbound endpoint (R175). -/
def State.consumer (s : State) (e : Endpoint) : Option Consumer :=
  match bindingOf s.wiring e with
  | .stdout => some .sink
  | .channel q => if q.proc = e.proc then none else (s.partner inPort? q).map (.processor q)
  | .stdin => none
  | .unbound => none

/-- The rendezvous of R171: processor `p` at endpoint `src` sends its accumulator to processor `q` at endpoint `dst`.
Both complete, with the same record in both histories; nothing is held in between. -/
def State.transfer (s : State) (src : Endpoint) (p : Proc) (dst : Endpoint) (q : Proc) : State :=
  let r := PortRecord.transfer src dst p.acc
  { s with
    procs := (s.procs.set src.proc (p.recordPort r).finish).set dst.proc
      ((q.setAcc (wire (portNan s.ticks) p.acc)).recordPort r).finish }

/-- An IN at endpoint e of processor p, with its producer ready: the line decoded into acc, or PortDecode with the
line consumed (R173; log entry 7); or the joint step with the sender (R171). -/
def State.receive (s : State) (e : Endpoint) (p : Proc) : Producer → State
  | .line t rest =>
    match decodeText (portNan s.ticks) t with
    | some x => { s.setCurrent ((p.setAcc x).recordPort (.stdinLine e.port t)).finish with stdin := rest }
    | none => { s.setCurrent (p.raise (.portDecode e.port)) with stdin := rest }
  | .processor q r => s.transfer q r e p

/-- An OUT at endpoint e of processor p, with its consumer ready: the text of acc appended to stdout (R174), or the
joint step with the receiver (R171). -/
def State.deliver (s : State) (e : Endpoint) (p : Proc) : Consumer → State
  | .sink =>
    let t := encodeText p.acc
    { s.setCurrent (p.recordPort (.stdoutLine e.port t)).finish with stdout := s.stdout ++ [t] }
  | .processor q r => s.transfer e p q r

end Sys2Proof.Machine
end

