-- ==== Sys2Proof/Machine/Ports.lean ====
section
/-! DEFINITION. IN and OUT (spec/42_ports.md R160 to R162). -/

namespace Sys2Proof.Machine

open Sys2Proof

/-- IN (R161): the port check (R160), then the receive from the ready producer. Without one the instruction has no
transition. -/
def execIn (port : BitVec 32) (s : State) : Outcome :=
  match s.current with
  | none => .fault .noProcessor
  | some p =>
    match checkPort s.wiring.numPorts (immI port) with
    | none => .next (s.setCurrent (p.raise (.portRange (immI port))))
    | some n =>
      match s.producer ⟨s.turn, n⟩ with
      | none => .fault .portStall
      | some src => .next (s.receive ⟨s.turn, n⟩ p src)

/-- OUT (R162): the port check (R160), then the delivery to the ready consumer. Without one the instruction has no
transition. -/
def execOut (port : BitVec 32) (s : State) : Outcome :=
  match s.current with
  | none => .fault .noProcessor
  | some p =>
    match checkPort s.wiring.numPorts (immI port) with
    | none => .next (s.setCurrent (p.raise (.portRange (immI port))))
    | some n =>
      match s.consumer ⟨s.turn, n⟩ with
      | none => .fault .portStall
      | some dst => .next (s.deliver ⟨s.turn, n⟩ p dst)

end Sys2Proof.Machine
end

