-- ==== Sys2Proof/Machine/Dispatch.lean ====
section
/-! DEFINITION. One arm per constructor of Instr: the meaning of the instruction for the processor whose step it is. -/

namespace Sys2Proof.Machine

open Sys2Proof

def exec (i : Instr) (s : State) : Host.Outcome State Fault Refusal :=
  match i with
  | .stop => Sys2Proof.Machine.execStop s
  | .start => Sys2Proof.Machine.execStart s
  | .in_ port => Sys2Proof.Machine.execIn port s
  | .out port => Sys2Proof.Machine.execOut port s
  | .load idx => Sys2Proof.Machine.execLoad idx s
  | .store idx => Sys2Proof.Machine.execStore idx s
  | .loadnum lit => Sys2Proof.Machine.execLoadnum lit s
  | .add idx => Sys2Proof.Machine.execAdd idx s
  | .sub idx => Sys2Proof.Machine.execSub idx s
  | .mul idx => Sys2Proof.Machine.execMul idx s
  | .div idx => Sys2Proof.Machine.execDiv idx s
  | .addnum lit => Sys2Proof.Machine.execAddnum lit s
  | .subnum lit => Sys2Proof.Machine.execSubnum lit s
  | .mulnum lit => Sys2Proof.Machine.execMulnum lit s
  | .divnum lit => Sys2Proof.Machine.execDivnum lit s
  | .jump target => Sys2Proof.Machine.execJump target s
  | .jumpneg target => Sys2Proof.Machine.execJumpneg target s
  | .jumppos target => Sys2Proof.Machine.execJumppos target s
  | .jumpnull target => Sys2Proof.Machine.execJumpnull target s
  | .loadind idx => Sys2Proof.Machine.execLoadind idx s
  | .storeind idx => Sys2Proof.Machine.execStoreind idx s
  | .dumpreg => Sys2Proof.Machine.execDumpreg s
  | .dumpprog => Sys2Proof.Machine.execDumpprog s
  | .unrecognized op => Sys2Proof.Machine.execUnrecognized op s

end Sys2Proof.Machine
end

