-- ==== Sys2Proof/Machine/Schedule.lean ====
section
/-! DEFINITION. Which agent moves, and what surrounds exec in a step (R130, R136, R262, R263). -/

namespace Sys2Proof.Machine

open Sys2Proof

/-- Processor k has a step (R130): it is RUNNING without a fault, and where its next instruction is IN or OUT with a
port in range, the producer or consumer is ready (R136, R171, R173, R174). -/
def State.enabled (s : State) (k : Nat) : Bool :=
  match s.procs[k]? with
  | none => false
  | some p =>
    p.ready &&
      (match p.nextInstr.bind inPort? with
        | none => true
        | some f =>
          match checkPort s.wiring.numPorts (immI f) with
          | none => true
          | some n => (s.producer ⟨k, n⟩).isSome) &&
      (match p.nextInstr.bind outPort? with
        | none => true
        | some f =>
          match checkPort s.wiring.numPorts (immI f) with
          | none => true
          | some n => (s.consumer ⟨k, n⟩).isSome)

/-- The processors that have a step, in declaration order. -/
def State.enabledList (s : State) : List Nat := (List.range s.procs.length).filter s.enabled

/-- The processor that takes the next step: the only one that has a step, or else the first that has one at or after
`turn`, or the first of all. Since `turn` is free before every step of a booted run, so is the choice (R263; log entry
10). -/
def State.pick (s : State) : Option Nat :=
  match s.enabledList with
  | [] => none
  | [k] => some k
  | k :: l :: ks => some (((k :: l :: ks).find? fun j => decide (s.turn ≤ j)).getD k)

/-- What a state in which no agent has a step is (R262): the end of the run if every processor is HALTED with no
fault, a faulted state if some processor holds a fault, a deadlock otherwise (log entries 11 and 17). -/
def State.stopReason (s : State) : Fault :=
  if s.procs.all (fun p => p.state == .halted && p.fault.isNone) then .runEnded
  else if s.procs.any (fun p => p.fault.isSome) then .runFaulted
  else .deadlock

/-- The instruction of the processor whose step it is: fetched and decoded (R131, R132). -/
def State.fetchDecode (s : State) : Option Instr := s.current.bind Proc.nextInstr

/-- After a step: the step is counted, and the turn of the next one is free (R263; log entries 8 to 10). -/
def State.endStep (s : State) : State :=
  { s with turn := Config.freeTurn (s.ticks + 1), ticks := s.ticks + 1 }

/-- The outcome of a step from that of its instruction. -/
def endOutcome (o : Outcome) : Outcome :=
  match o with
  | .next s => .next s.endStep
  | .fault e => .fault e
  | .refused r => .refused r

/-- The processor with one instruction word in the slot at pc, PROG long enough to hold it (R25). -/
def Proc.loadWord (p : Proc) (w : InstrWord) : Proc :=
  if h : 0 ≤ p.pc ∧ p.pc < 200 then
    { p with prog := p.prog.set p.pc.toNat w (by omega), progLen := max p.progLen (p.pc.toNat + 1) }
  else p

/-- That, on the processor whose step it is. -/
def State.loadCurrent (s : State) (w : InstrWord) : State :=
  match s.current with
  | none => s
  | some p => s.setCurrent (p.loadWord w)

end Sys2Proof.Machine
end

