-- ==== Sys2Proof/Machine/Step.lean ====
section
/-! DEFINITION. One step of the machine (R136, R171, R263). -/

namespace Sys2Proof.Machine

open Sys2Proof

/-- One step: the schedule gives the turn to a processor that has a step, which fetches, decodes and executes its
instruction. Where none has a step there is no next state, and the reason says which of R262's cases it is. -/
def step (s : State) : Host.Outcome State Fault Refusal :=
  match s.pick with
  | none => .fault s.stopReason
  | some k =>
    match (s.setTurn k).fetchDecode with
    | none => .fault .fetchOutOfRange
    | some i => endOutcome (exec i (s.setTurn k))

/-- s with the instruction word w in the slot at the pc of the processor whose turn it is, and prog_len covering it
(log entry 4). An instruction is one 128-bit word, so the bits above nbits are the zeros of w itself. -/
def State.withFetchWord (s : State) (_nbits w : Nat) : State := s.loadCurrent (BitVec.ofNat 128 w)

end Sys2Proof.Machine
end

