-- ==== Sys2Proof/Machine/Assembler.lean ====
section
/-! DEFINITION. The words a conforming loader makes of a program source (spec/30_encoding.md R108 to R111). Reading the
file is outside the spec's scope (R6); the text of the source is the input here. -/

namespace Sys2Proof.Machine

open Sys2Proof

/-- Which interpretation of the operand an opcode consumes (R104). -/
inductive OperandForm where
  | nothing
  | integer
  | literal
deriving DecidableEq, Repr

/-- Why a program source is refused (R242): a line of more than two tokens (R108), an operand that fails the
interpretation its opcode consumes (R109), more than 200 lines (R111). -/
inductive ProgramError where
  | tooManyTokens
  | badOperand
  | tooManyLines
deriving DecidableEq, Repr

/-- The 23 mnemonics, matched letter for letter, with their OP values and operand forms (R104, R105, R108). -/
def mnemonicTable : List (Text × BitVec 8 × OperandForm) :=
  [ ("STOP".toList, 0x01#8, .nothing), ("START".toList, 0x02#8, .nothing),
    ("IN".toList, 0x03#8, .integer), ("OUT".toList, 0x04#8, .integer),
    ("LOAD".toList, 0x05#8, .integer), ("STORE".toList, 0x06#8, .integer),
    ("LOADNUM".toList, 0x07#8, .literal),
    ("ADD".toList, 0x08#8, .integer), ("SUB".toList, 0x09#8, .integer),
    ("MUL".toList, 0x0A#8, .integer), ("DIV".toList, 0x0B#8, .integer),
    ("ADDNUM".toList, 0x0C#8, .literal), ("SUBNUM".toList, 0x0D#8, .literal),
    ("MULNUM".toList, 0x0E#8, .literal), ("DIVNUM".toList, 0x0F#8, .literal),
    ("JUMP".toList, 0x10#8, .integer), ("JUMPNEG".toList, 0x11#8, .integer),
    ("JUMPPOS".toList, 0x12#8, .integer), ("JUMPNULL".toList, 0x13#8, .integer),
    ("LOADIND".toList, 0x14#8, .integer), ("STOREIND".toList, 0x15#8, .integer),
    ("DUMPREG".toList, 0x16#8, .nothing), ("DUMPPROG".toList, 0x17#8, .nothing) ]

/-- The OP value and operand form of a first token; OP 0x00 and no operand consumed for any other token (R110). -/
def lookupMnemonic (t : Text) : BitVec 8 × OperandForm :=
  match mnemonicTable.find? fun r => r.1 == t with
  | some r => r.2
  | none => (0x00#8, .nothing)

/-- The lines of a source; a final line break begins no line (R108). A source of no characters has no line, where R108
leaves open whether it has none or one empty line (log entry 18). -/
def splitLines : Text → List Text
  | [] => []
  | c :: cs =>
    if c = '\n' then [] :: splitLines cs
    else match splitLines cs with
      | [] => [[c]]
      | l :: ls => (c :: l) :: ls

/-- The tokens of a line, split at white space (R108): the token the text begins with (empty where it begins with
white space), and the tokens after it. -/
def splitTokensFrom : Text → Text × List Text
  | [] => ([], [])
  | c :: cs =>
    match splitTokensFrom cs with
    | (t, ts) =>
      if c.isWhitespace then ([], if t = [] then ts else t :: ts) else (c :: t, ts)

/-- The tokens of a line. -/
def splitTokens (line : Text) : List Text :=
  match splitTokensFrom line with
  | (t, ts) => if t = [] then ts else t :: ts

/-- IMM_I of an operand token (R109): the decimal integer if it lies in [-2^31, 2^31 - 1]. -/
def tokenInt (t : Text) : Option (BitVec 32) :=
  match parseInt t with
  | none => none
  | some i => if -2147483648 ≤ i ∧ i ≤ 2147483647 then some (BitVec.ofInt 32 i) else none

/-- IMM_F of an operand token (R109): the decimal floating literal if it does not round to an infinity. -/
def tokenFloat (t : Text) : Option F64 :=
  match decimalToF64 t with
  | none => none
  | some x => if F64.isInf x then none else some x

/-- One line as an instruction word (R108 to R110). -/
def assembleLine (line : Text) : Except ProgramError InstrWord :=
  match splitTokens line with
  | [] => .ok (packWord 0x00#8 0 0)
  | [m] => .ok (packWord (lookupMnemonic m).1 0 0)
  | [m, t] =>
    let (op, form) := lookupMnemonic m
    match form, tokenInt t, tokenFloat t with
    | .integer, none, _ => .error .badOperand
    | .literal, _, none => .error .badOperand
    | _, i, f => .ok (packWord op (i.getD 0) (f.getD 0))
  | _ => .error .tooManyTokens

/-- The lines' words in order, or the first error. -/
def assembleLines : List Text → Except ProgramError (List InstrWord)
  | [] => .ok []
  | l :: ls =>
    match assembleLine l with
    | .error e => .error e
    | .ok w =>
      match assembleLines ls with
      | .error e => .error e
      | .ok ws => .ok (w :: ws)

/-- A program source as its instruction words, line k in slot k (R108, R111). -/
def assemble (source : Text) : Except ProgramError (List InstrWord) :=
  let lines := splitLines source
  if 200 < lines.length then .error .tooManyLines else assembleLines lines

end Sys2Proof.Machine
end

