-- ==== Sys2Proof/Machine/Boot.lean ====
section
/-! DEFINITION. Configuration, instantiation and reset (R242, R260, R261, R280): from a topology with its program
sources, and the host's stdin lines, the machine at the start of a run, or the ConfigError that refuses it. Reading
the topology's text is outside the spec's scope (R6), so a topology is its four sections as data. -/

namespace Sys2Proof.Machine

open Sys2Proof

/-- An endpoint as a topology names it, `<id>:<port>` (R260). -/
structure PortRef where
  id : Text
  port : Int
deriving DecidableEq, Repr

/-- A topology (R260): the processor declarations with their program sources, the connections, the bindings to
stdin and to stdout, and the OPEN parameters NUM_PORTS, DUMP_MODE and MEM0 (R8). MEM0 is given by the words that
are not +0.0, in any order; a later pair for an index is overridden by an earlier one. -/
structure Topology where
  procs : List (Text × Text)
  connections : List (PortRef × PortRef)
  stdins : List PortRef
  stdouts : List PortRef
  numPorts : Nat
  dumpMode : DumpMode
  mem0 : List (Nat × F64)
deriving DecidableEq, Repr

/-- Why a configuration is refused (R242); `malformed` is a NUM_PORTS of 0 (R8: at least 1; log entry 14). -/
inductive ConfigError where
  | malformed
  | duplicateId
  | undeclaredId
  | portNumber
  | endpointBoundTwice
  | stdinBoundTwice
  | stdoutBoundTwice
  | program (e : ProgramError)
deriving DecidableEq, Repr

/-- The canonical memory of an image's listed words, those below 65536 (R40). -/
def imageMemory : List (Nat × F64) → Memory
  | [] => []
  | (a, v) :: rest => if a < 65536 then Memory.write (imageMemory rest) a v else imageMemory rest

/-- The Memory Engine at reset from an image (R40): SWAP holds all of it, frame f the words of page f. -/
def Mmu.create (mem0 : Memory) : Mmu :=
  { Mmu.reset with phys := mem0.filter (fun c => c.1 < 4096), swap := mem0 }

/-- A processor at reset with its program loaded (R25, R111, R280): slots past the program hold the all-zero word. -/
def Proc.create (mem0 : Memory) (words : List InstrWord) : Proc :=
  { Proc.reset with
    prog := Vector.ofFn fun k : Fin 200 => words.getD k.val 0
    progLen := words.length
    mmu := Mmu.create mem0 }

/-- The state after reset of a configuration: its processors with their programs, each with its own Memory Engine
(R261, R280), and the stdin feed before its first line (R264). Which of them takes the first step is as free as every
later choice (R263, I8; log entry 10): the spec gives no order, so the turn is the free value of step 0. -/
def State.create (w : Wiring) (mem0 : Memory) (programs : List (List InstrWord)) (feed : List Text) : State :=
  { State.reset with
    procs := programs.map (Proc.create mem0)
    wiring := w
    stdin := feed
    turn := Config.freeTurn 0 }

/-- The programs of the declared processors as words (R280 step 1). -/
def assembleAll : List (Text × Text) → Except ConfigError (List (List InstrWord))
  | [] => .ok []
  | (_, source) :: rest =>
    match assemble source with
    | .error e => .error (.program e)
    | .ok ws =>
      match assembleAll rest with
      | .error e => .error e
      | .ok wss => .ok (ws :: wss)

/-- An endpoint by its processor's place in declaration order, if the id is declared and the port is in range. -/
def resolvePort (ids : List Text) (numPorts : Nat) (r : PortRef) : Except ConfigError Endpoint :=
  match ids.idxOf? r.id with
  | none => .error .undeclaredId
  | some k => if 0 ≤ r.port ∧ r.port < (numPorts : Int) then .ok ⟨k, r.port.toNat⟩ else .error .portNumber

/-- A list of endpoints, or the first error. -/
def resolvePorts (ids : List Text) (numPorts : Nat) : List PortRef → Except ConfigError (List Endpoint)
  | [] => .ok []
  | r :: rs =>
    match resolvePort ids numPorts r with
    | .error e => .error e
    | .ok e =>
      match resolvePorts ids numPorts rs with
      | .error e => .error e
      | .ok es => .ok (e :: es)

/-- The endpoints a wiring binds, each as often as it is bound. -/
def boundEndpoints (w : Wiring) : List Endpoint :=
  w.channels.flatMap (fun c => [c.1, c.2]) ++ w.stdinPort.toList ++ w.stdoutPort.toList

/-- The wiring of a topology, or the ConfigError that refuses it (R242, R260). -/
def wire? (t : Topology) : Except ConfigError Wiring :=
  let ids := t.procs.map Prod.fst
  if t.numPorts = 0 then .error .malformed
  else if ¬ids.Nodup then .error .duplicateId
  else
    match resolvePorts ids t.numPorts (t.connections.map Prod.fst),
      resolvePorts ids t.numPorts (t.connections.map Prod.snd),
      resolvePorts ids t.numPorts t.stdins, resolvePorts ids t.numPorts t.stdouts with
    | .ok xs, .ok ys, .ok ins, .ok outs =>
      if 1 < ins.length then .error .stdinBoundTwice
      else if 1 < outs.length then .error .stdoutBoundTwice
      else
        let w : Wiring :=
          { ids := ids, numPorts := t.numPorts, channels := xs.zip ys, stdinPort := ins.head?,
            stdoutPort := outs.head?, dumpMode := t.dumpMode }
        if (boundEndpoints w).Nodup then .ok w else .error .endpointBoundTwice
    | .error e, _, _, _ => .error e
    | _, .error e, _, _ => .error e
    | _, _, .error e, _ => .error e
    | _, _, _, .error e => .error e

/-- The start of a run (R280): any ConfigError refuses the whole configuration, else every processor is created and
all start together. -/
def boot (t : Topology) (feed : List Text) : Except ConfigError State :=
  match wire? t with
  | .error e => .error e
  | .ok w =>
    match assembleAll t.procs with
    | .error e => .error e
    | .ok programs => .ok (State.create w (imageMemory t.mem0) programs feed)

end Sys2Proof.Machine
end

