-- ==== Sys2Proof/Safety.lean ====
section
/-! DEFINITION. The terms claims are stated in: the invariants of R37, R23, R25 and R131, the ends of a run of R262, and
the Memory Engine with every TLB probe forced to miss, for the cache transparency of R87. -/

namespace Sys2Proof.Machine

open Sys2Proof

/-! ## Invariants -/

/-- The pages that are present. -/
def Mmu.presentPages (m : Mmu) : Finset (Fin 64) := Finset.univ.filter fun n => (m.pte n).present = true

/-- The invariants I1 to I7 of R37, with the tag format of R34 and the canonical form of the two memories. -/
structure Mmu.Inv (m : Mmu) : Prop where
  /-- I1: exactly 4 PTEs are present. -/
  presentFour : m.presentPages.card = 4
  /-- I2: no two present PTEs have the same frame. -/
  framesDistinct : ∀ a b, (m.pte a).present = true → (m.pte b).present = true →
    (m.pte a).frame = (m.pte b).frame → a = b
  /-- I3: a valid TLB entry agrees with the walk; its tag is a page-start (R34). -/
  tlbAgrees : ∀ k, (m.tlbEntry k).valid = true →
    (m.pte (vpn (m.tlbEntry k).tag)).present = true ∧
    (m.pte (vpn (m.tlbEntry k).tag)).frame = (m.tlbEntry k).frame ∧
    (m.tlbEntry k).tag = pageTag (vpn (m.tlbEntry k).tag)
  /-- I4: no two valid TLB entries have the same frame. -/
  tlbFrames : ∀ k l, (m.tlbEntry k).valid = true → (m.tlbEntry l).valid = true →
    (m.tlbEntry k).frame = (m.tlbEntry l).frame → k = l
  /-- I4: no two valid TLB entries have the same tag. -/
  tlbTags : ∀ k l, (m.tlbEntry k).valid = true → (m.tlbEntry l).valid = true →
    (m.tlbEntry k).tag = (m.tlbEntry l).tag → k = l
  /-- I5: the swap slot of page n starts at n*1024. -/
  swapSlots : ∀ n, (m.pte n).swapOff = BitVec.ofNat 16 (n.val * 1024)
  /-- I6: an absent PTE has dirty = 0 and accessed = 0. -/
  absentClear : ∀ n, (m.pte n).present = false → (m.pte n).dirty = false ∧ (m.pte n).accessed = false
  /-- I7: a present PTE with dirty = 0 holds the same words in its frame as in its swap slot. -/
  cleanEqual : ∀ n, (m.pte n).present = true → (m.pte n).dirty = false → ∀ o, o < 1024 →
    Memory.read m.phys (frameWord (m.pte n).frame o) = Memory.read m.swap (n.val * 1024 + o)
  /-- PHYS has 4096 words, in canonical form (R30). -/
  physWf : Memory.Wf 4096 m.phys
  /-- SWAP has 65536 words, in canonical form (R33). -/
  swapWf : Memory.Wf 65536 m.swap

/-- What every run keeps of one processor. -/
structure Proc.Inv (p : Proc) : Prop where
  mmu : p.mmu.Inv
  /-- R23: pc is a 32-bit signed integer. -/
  pcRange : -2147483648 ≤ p.pc ∧ p.pc ≤ 2147483647
  /-- R131: a RUNNING processor without a fault has its pc in a slot. -/
  pcInProg : p.state = .running → p.fault = none → 0 ≤ p.pc ∧ p.pc < 200
  /-- R250: a faulted processor is not HALTED. -/
  faultRunning : p.fault ≠ none → p.state = .running
  /-- R25: prog_len is at most 200. -/
  progLen : p.progLen ≤ 200
  /-- R25: the slots from prog_len on hold the all-zero word. -/
  padding : ∀ k : Fin 200, p.progLen ≤ k.val → p.prog[k] = 0#128

/-- A configuration that R242 accepts, for n processors: ids distinct, NUM_PORTS at least 1, every bound endpoint a
declared one with its port in range, none bound twice. -/
structure WiringValid (w : Wiring) (n : Nat) : Prop where
  idsLength : w.ids.length = n
  idsDistinct : w.ids.Nodup
  somePort : 1 ≤ w.numPorts
  bound : ∀ e ∈ boundEndpoints w, e.proc < n ∧ e.port < w.numPorts
  boundOnce : (boundEndpoints w).Nodup

/-- What every run keeps. -/
structure State.Inv (s : State) : Prop where
  procs : ∀ p ∈ s.procs, p.Inv
  wiring : WiringValid s.wiring s.procs.length

/-! ## The end of an instruction -/

/-- p' is p after the end of a step that leaves pc at `pc'`, acc, memory and histories aside (R133 to R136): a RUNNING
processor halts at pc' >= 200 (R134) and faults at pc' < 0 (R135). -/
structure Proc.EndsAt (p p' : Proc) (pc' : Int) : Prop where
  pc : p'.pc = pc'
  state : p'.state = if p.state = .running ∧ 200 ≤ pc' then .halted else p.state
  fault : p'.fault = if p.state = .running ∧ pc' < 0 then some (.pcOutOfRange pc') else p.fault

/-- What every instruction keeps: the program store, which no instruction writes (R25, R84). -/
structure Proc.SameProgram (p p' : Proc) : Prop where
  prog : p'.prog = p.prog
  progLen : p'.progLen = p.progLen

/-- No record is added to the dump sink or to PORT_HIST. -/
structure Proc.SameRecords (p p' : Proc) : Prop where
  dumpOut : p'.dumpOut = p.dumpOut
  portHist : p'.portHist = p.portHist

/-- p' is p but for the cause it recorded (R250): acc, pc, run state, program, memory engine and histories kept. -/
structure Proc.OnlyFaulted (p p' : Proc) (c : Cause) : Prop where
  fault : p'.fault = some c
  rest : { p' with fault := p.fault } = p

/-- No other processor and nothing outside the processors changes; p' stands where the processor of the turn stood. -/
structure State.OnlyCurrent (s t : State) (p' : Proc) : Prop where
  current : t.procs[s.turn]? = some p'
  others : ∀ k, k ≠ s.turn → t.procs[k]? = s.procs[k]?
  rest : { t with procs := s.procs } = s

/-! ## Ends of a run (R262) -/

/-- The end of a run: every processor HALTED with no fault, the join's condition. -/
def State.ended (s : State) : Prop := ∀ p ∈ s.procs, p.state = .halted ∧ p.fault = none

/-- No agent has a step. -/
def State.stuck (s : State) : Prop := ∀ k, s.enabled k = false

/-! ## Memory of other processors (R80) -/

/-- s with the Memory Engine of processor j replaced by the reset one: what s shows without j's memory. -/
def State.hideMemory (j : Nat) (s : State) : State :=
  { s with procs := s.procs.modify j fun p => p.setMmu Mmu.reset }

/-! ## Order of the values on a channel (R172) -/

/-- A record of a transfer from endpoint e to endpoint f. -/
def isTransferOf (e f : Endpoint) : PortRecord → Bool
  | .transfer src dst _ => decide (src = e) && decide (dst = f)
  | .stdinLine _ _ => false
  | .stdoutLine _ _ => false

/-- Sender and receiver have recorded the same transfers, in the same order, for every pair of endpoints. -/
def State.historiesAgree (s : State) : Prop :=
  ∀ (e f : Endpoint) (p q : Proc), s.procs[e.proc]? = some p → s.procs[f.proc]? = some q →
    p.portHist.filter (isTransferOf e f) = q.portHist.filter (isTransferOf e f)

/-! ## What one access does to a Memory Engine -/

/-- m' is m after an access to index i of a page that is present (R56, R57), which stored the word `stored`, if it is a
write (R71): the page's PTE accessed, and dirty after a write; a TLB hit leaves the TLB and its head alone, a walk puts
the page's entry where the head was; PHYS changes at the stored word alone, and nothing else changes at all. -/
structure Mmu.Touched (m m' : Mmu) (i : VIndex) (stored : Option F64) : Prop where
  page : m'.pte (vpn i) =
    { m.pte (vpn i) with accessed := true, dirty := (m.pte (vpn i)).dirty || stored.isSome }
  otherPages : ∀ n, n ≠ vpn i → m'.pte n = m.pte n
  /-- a TLB hit (R56) -/
  hit : (∃ k, (m.tlbEntry k).valid = true ∧ (m.tlbEntry k).tag = pageStart i) →
    m'.tlb = m.tlb ∧ m'.tlbHead = m.tlbHead
  /-- a TLB miss, answered by the walk (R57) -/
  walk : (∀ k, (m.tlbEntry k).valid = true → (m.tlbEntry k).tag ≠ pageStart i) →
    m'.tlbEntry m.tlbHead = { tag := pageStart i, frame := (m.pte (vpn i)).frame, valid := true } ∧
    (∀ k, k ≠ m.tlbHead → m'.tlbEntry k = m.tlbEntry k) ∧ m'.tlbHead = m.tlbHead + 1
  cursor : m'.scCursor = m.scCursor
  swap : m'.swap = m.swap
  faultLog : m'.faultLog = m.faultLog
  stores : ∀ v, stored = some v → ∀ a, Memory.read m'.phys a =
    if a = frameWord (m.pte (vpn i)).frame (offset i) then v else Memory.read m.phys a
  reads : stored = none → m'.phys = m.phys

/-- m' is m after an access to index i: at once if its page is present, else after one page fault (R60, R66). -/
def Mmu.Accessed (m m' : Mmu) (i : VIndex) (stored : Option F64) : Prop :=
  if (m.pte (vpn i)).present then m.Touched m' i stored
  else ∃ m₁, m.pageFault (vpn i) = some m₁ ∧ m₁.Touched m' i stored

/-! ## Correct rounding (R200) -/

/-- r is the binary64 result of an operation on finite operands whose exact result is num/den units of 2^-1074: no NaN;
an infinity exactly from half a unit in the last place above the largest finite value, (2^54 - 1)*2^2044 units; of the
sign of an exact result that is not zero; of the magnitude that rounds the exact one, ties to even; and so, if finite, at
least as near to it as any finite value. -/
structure F64.RoundsTo (r : F64) (num : Int) (den : Nat) : Prop where
  notNan : F64.isNan r = false
  overflow : F64.isInf r = true ↔ (2 ^ 54 - 1) * 2 ^ 2044 * den ≤ num.natAbs
  sign : num ≠ 0 → F64.sign r = decide (num < 0)
  magnitude : F64.mag r = F64.roundMag num.natAbs den
  nearest : F64.isFinite r = true → ∀ x : F64, F64.isFinite x = true →
    |F64.fixed r * den - num| ≤ |F64.fixed x * den - num|

/-! ## The Memory Engine without its TLB (R87) -/

/-- Step 2 alone: the walk (R57). -/
def Mmu.lookupMiss (m : Mmu) (i : VIndex) : Option (Nat × Mmu) :=
  if (m.pte (vpn i)).present then
    some (frameWord (m.pte (vpn i)).frame (offset i),
      (m.markAccessed (vpn i)).tlbInsert (pageStart i) (m.pte (vpn i)).frame)
  else none

/-- Translate with step 1 always missing. -/
def Mmu.translateMiss (m : Mmu) (i : VIndex) : Option (Nat × Mmu) :=
  match m.lookupMiss i with
  | some r => some r
  | none =>
    match m.pageFault (vpn i) with
    | none => none
    | some m' => m'.lookupMiss i

/-- One access of a trace. -/
inductive Access where
  | read (i : Int)
  | write (i : Int) (v : F64)
deriving DecidableEq, Repr

/-- The page of an access whose index is in range. -/
def Access.page : Access → Option (Fin 64)
  | .read i => (checkIndex i).map vpn
  | .write i _ => (checkIndex i).map vpn

/-- What an access answers: a value read, a write done, or the reason it did not complete. -/
inductive Answer where
  | value (x : F64)
  | done
  | stopped (e : MmuStop)
deriving DecidableEq, Repr

/-- One access with its answer; an access that does not complete leaves the engine as it was. -/
def Mmu.access (m : Mmu) : Access → Answer × Mmu
  | .read i =>
    match m.read i with
    | .ok (x, m') => (.value x, m')
    | .error e => (.stopped e, m)
  | .write i v =>
    match m.write i v with
    | .ok m' => (.done, m')
    | .error e => (.stopped e, m)

/-- The same access with every TLB probe forced to miss: MMU.read and MMU.write over `translateMiss`. -/
def Mmu.accessMiss (m : Mmu) : Access → Answer × Mmu
  | .read i =>
    match checkIndex i with
    | none => (.stopped (.address i), m)
    | some j =>
      match m.translateMiss j with
      | none => (.stopped .noVictim, m)
      | some (p, m') => (.value (Memory.read m'.phys p), m')
  | .write i v =>
    match checkIndex i with
    | none => (.stopped (.address i), m)
    | some j =>
      match m.translateMiss j with
      | none => (.stopped .noVictim, m)
      | some (p, m') =>
        (.done, { m'.markDirty (vpn j) with phys := Memory.write (m'.markDirty (vpn j)).phys p v })

/-- The answers of a trace, and the engine after it. -/
def Mmu.runTrace (step : Mmu → Access → Answer × Mmu) : List Access → Mmu → List Answer × Mmu
  | [], m => ([], m)
  | a :: as, m =>
    let r := step m a
    let rest := Mmu.runTrace step as r.2
    (r.1 :: rest.1, rest.2)

/-- Equal but for the TLB and its head (R87). -/
def Mmu.sameButTlb (m m' : Mmu) : Prop :=
  m.pt = m'.pt ∧ m.scCursor = m'.scCursor ∧ m.phys = m'.phys ∧ m.swap = m'.swap ∧ m.faultLog = m'.faultLog

end Sys2Proof.Machine
end

