-- ==== Sys2Proof/Certificates/Slice0/Obligations.lean ====
section
/-! DEFINITION. The statements for the provers. Each docstring names the rules of spec/ it formalises; OBLIGATIONS.json
holds its words. -/

open Sys2Proof Sys2Proof.Machine

/-! ## Encoding (spec/30_encoding.md) -/

/-- R100, R104, R105: encoding and decoding agree on every well-formed instruction, at every operand value. -/
def Obligations.DecodeAfterEncode : Prop :=
  ∀ i : Instr, i.wellFormed = true → decode (encode i) = i

/-- R105: the opcode map, row by row, with the operand field of R104. -/
def Obligations.OpcodeMap : Prop :=
  ∀ w : InstrWord,
    (opField w = 0x01#8 → decode w = .stop) ∧ (opField w = 0x02#8 → decode w = .start) ∧
    (opField w = 0x03#8 → decode w = .in_ (w.extractLsb' 64 32)) ∧
    (opField w = 0x04#8 → decode w = .out (w.extractLsb' 64 32)) ∧
    (opField w = 0x05#8 → decode w = .load (w.extractLsb' 64 32)) ∧
    (opField w = 0x06#8 → decode w = .store (w.extractLsb' 64 32)) ∧
    (opField w = 0x07#8 → decode w = .loadnum (w.extractLsb' 0 64)) ∧
    (opField w = 0x08#8 → decode w = .add (w.extractLsb' 64 32)) ∧
    (opField w = 0x09#8 → decode w = .sub (w.extractLsb' 64 32)) ∧
    (opField w = 0x0A#8 → decode w = .mul (w.extractLsb' 64 32)) ∧
    (opField w = 0x0B#8 → decode w = .div (w.extractLsb' 64 32)) ∧
    (opField w = 0x0C#8 → decode w = .addnum (w.extractLsb' 0 64)) ∧
    (opField w = 0x0D#8 → decode w = .subnum (w.extractLsb' 0 64)) ∧
    (opField w = 0x0E#8 → decode w = .mulnum (w.extractLsb' 0 64)) ∧
    (opField w = 0x0F#8 → decode w = .divnum (w.extractLsb' 0 64)) ∧
    (opField w = 0x10#8 → decode w = .jump (w.extractLsb' 64 32)) ∧
    (opField w = 0x11#8 → decode w = .jumpneg (w.extractLsb' 64 32)) ∧
    (opField w = 0x12#8 → decode w = .jumppos (w.extractLsb' 64 32)) ∧
    (opField w = 0x13#8 → decode w = .jumpnull (w.extractLsb' 64 32)) ∧
    (opField w = 0x14#8 → decode w = .loadind (w.extractLsb' 64 32)) ∧
    (opField w = 0x15#8 → decode w = .storeind (w.extractLsb' 64 32)) ∧
    (opField w = 0x16#8 → decode w = .dumpreg) ∧ (opField w = 0x17#8 → decode w = .dumpprog) ∧
    (opField w = 0x00#8 ∨ 0x18 ≤ (opField w).toNat → decode w = .unrecognized (opField w))

/-- R101: RSV and the fields an opcode does not consume (R104) do not matter. -/
def Obligations.IgnoredFieldsDoNotMatter : Prop :=
  ∀ w w' : InstrWord, opField w = opField w' →
    ((opField w).toNat ∈ [3, 4, 5, 6, 8, 9, 10, 11, 16, 17, 18, 19, 20, 21] → immIField w = immIField w') →
    ((opField w).toNat ∈ [7, 12, 13, 14, 15] → immFField w = immFField w') →
    decode w = decode w' ∧ ∀ s, exec (decode w) s = exec (decode w') s

/-- R106, R132: decode cannot fail; what it gives is well-formed and has the word's own OP value. -/
def Obligations.DecodeGivesWellFormed : Prop :=
  ∀ w : InstrWord, (decode w).wellFormed = true ∧ (decode w).opcode = opField w

/-- R113: every row of the table: what the line assembles to (R108, R109), and what that word decodes to. -/
def Obligations.EncodingExamples : Prop :=
  ∀ row ∈ ([ ("STOP", 0x00000001000000000000000000000000#128, .stop),
      ("LOADNUM 5", 0x00000007000000054014000000000000#128, .loadnum 0x4014000000000000#64),
      ("ADDNUM 3", 0x0000000C000000034008000000000000#128, .addnum 0x4008000000000000#64),
      ("STORE 0", 0x00000006000000000000000000000000#128, .store 0#32),
      ("LOADNUM 42", 0x000000070000002A4045000000000000#128, .loadnum 0x4045000000000000#64),
      ("OUT 0", 0x00000004000000000000000000000000#128, .out 0#32),
      ("IN 0", 0x00000003000000000000000000000000#128, .in_ 0#32),
      ("LOADNUM 2.5", 0x00000007000000004004000000000000#128, .loadnum 0x4004000000000000#64),
      ("JUMP -1", 0x00000010FFFFFFFFBFF0000000000000#128, .jump 0xFFFFFFFF#32),
      ("LOAD 70000", 0x000000050001117040F1170000000000#128, .load 70000#32),
      ("FOO 7", 0x0000000000000007401C000000000000#128, .unrecognized 0#8) ] :
        List (String × InstrWord × Instr)),
    assembleLine row.1.toList = .ok row.2.1 ∧ decode row.2.1 = row.2.2

/-! ## The step and the schedule (spec/40_execution.md, R262, R263) -/

/-- R131, R132, R136: a step of the processor the schedule picks is exec of the instruction decoded from the slot at
its pc; after it the step is counted and the turn of the next one is free (log entries 8 to 10). -/
def Obligations.StepRunsDecodedInstruction : Prop :=
  ∀ (s : State) (k : Nat) (p : Proc) (w : InstrWord), s.pick = some k → s.procs[k]? = some p →
    0 ≤ p.pc → p.prog[p.pc.toNat]? = some w →
    step s = match exec (decode w) { s with turn := k } with
      | .next t => .next { t with turn := Config.freeTurn (t.ticks + 1), ticks := t.ticks + 1 }
      | .fault e => .fault e
      | .refused r => .refused r

/-- R130, R263: the schedule picks only a processor that has a step, picks none only if none has one, and picks whichever
of them some value of the free turn names (log entry 10). -/
def Obligations.ScheduleMayPickAnyEnabledProcessor : Prop :=
  ∀ s : State, (∀ k, s.pick = some k → s.enabled k = true) ∧ (s.pick = none ↔ ∀ k, s.enabled k = false) ∧
    ∀ k, s.enabled k = true → ∃ n, ({ s with turn := n } : State).pick = some k

/-- R130, R136: a processor has a step only if it is RUNNING without a fault; and it then has one, unless it stands at
an IN or OUT. -/
def Obligations.EnabledWhenReady : Prop :=
  ∀ (s : State) (k : Nat),
    (s.enabled k = true → ∃ p, s.procs[k]? = some p ∧ p.state = .running ∧ p.fault = none) ∧
    (∀ p i, s.procs[k]? = some p → p.state = .running → p.fault = none → p.nextInstr = some i →
      (∀ f, i ≠ .in_ f) → (∀ f, i ≠ .out f) → s.enabled k = true)

/-- R130, R24, R250, R257: no step changes a processor that is HALTED or holds a fault. -/
def Obligations.HaltedOrFaultedNeverChanges : Prop :=
  ∀ (s t : State) (k : Nat) (p : Proc), step s = .next t → s.procs[k]? = some p →
    (p.state = .halted ∨ p.fault ≠ none) → t.procs[k]? = some p

/-- R262: what a state without a step is. -/
def Obligations.StuckStatesAreClassified : Prop :=
  ∀ s : State, (∀ k, s.enabled k = false) →
    ((∀ p ∈ s.procs, p.state = .halted ∧ p.fault = none) → step s = .fault .runEnded) ∧
    ((∃ p ∈ s.procs, p.fault ≠ none) → step s = .fault .runFaulted) ∧
    ((∃ p ∈ s.procs, p.state = .running) → (∀ p ∈ s.procs, p.fault = none) → step s = .fault .deadlock)

/-! ## Invariants -/

/-- R40, R37: the machine after reset meets the invariants (its configuration, MEM0 and empty program are log entries 3 to
5). -/
def Obligations.ResetMeetsInvariants : Prop := State.reset.Inv

/-- R37, R23, R25, R131, R250, R242: every step keeps the invariants. -/
def Obligations.StepKeepsInvariants : Prop :=
  ∀ s t : State, s.Inv → step s = .next t → t.Inv

/-- R131, R62, R262: in a state that meets the invariants a step has a next state whenever some processor is enabled,
and otherwise stops as R262 says; it stops in no other way. -/
def Obligations.ProgressUnderInvariants : Prop :=
  ∀ s : State, s.Inv →
    ((∃ k, s.enabled k = true) → ∃ t, step s = .next t) ∧
    ((∀ k, s.enabled k = false) →
      step s = .fault .runEnded ∨ step s = .fault .runFaulted ∨ step s = .fault .deadlock)

/-- R37, R40, R242, R280: a configuration that is not refused starts in a state that meets the invariants. -/
def Obligations.BootMeetsInvariants : Prop :=
  ∀ (t : Topology) (feed : List Text) (s : State), boot t feed = .ok s → s.Inv

/-- R172: sender and receiver have the same transfers on record, in the same order, and every step keeps it so. -/
def Obligations.StepKeepsChannelOrder : Prop :=
  ∀ s t : State, s.historiesAgree → step s = .next t → t.historiesAgree

/-- R39: the histories only grow; the stdin feed is only consumed from its front and stdout only appended to (R173,
R174). -/
def Obligations.HistoriesOnlyGrow : Prop :=
  ∀ s t : State, step s = .next t →
    s.stdout <+: t.stdout ∧ t.stdin <:+ s.stdin ∧
    ∀ (k : Nat) (p : Proc), s.procs[k]? = some p → ∃ p', t.procs[k]? = some p' ∧
      p.mmu.faultLog <+: p'.mmu.faultLog ∧ p.dumpOut <+: p'.dumpOut ∧ p.portHist <+: p'.portHist

/-- R25, R84, R27, R260: no step writes a program store, and the configuration is fixed for the run. -/
def Obligations.ProgramAndWiringAreFixed : Prop :=
  ∀ s t : State, step s = .next t →
    t.wiring = s.wiring ∧ t.procs.length = s.procs.length ∧
    ∀ (k : Nat) (p : Proc), s.procs[k]? = some p → ∃ p', t.procs[k]? = some p' ∧
      p'.prog = p.prog ∧ p'.progLen = p.progLen

/-- R80: a step of one processor leaves every other processor's Memory Engine and dump sink as they were. -/
def Obligations.OtherMemoriesUntouched : Prop :=
  ∀ (s t : State) (j k : Nat) (p : Proc), s.pick = some k → step s = .next t → j ≠ k → s.procs[j]? = some p →
    ∃ p', t.procs[j]? = some p' ∧ p'.mmu = p.mmu ∧ p'.dumpOut = p.dumpOut

/-- R80: no processor can observe another's memory: two states that differ only in processor j's Memory Engine give the
turn to the same processor, and while that is not j the states after the step differ only there too. -/
def Obligations.MemoryIsPrivate : Prop :=
  ∀ (s s' t : State) (j k : Nat), s.hideMemory j = s'.hideMemory j → s.pick = some k → k ≠ j → step s = .next t →
    s'.pick = some k ∧ ∃ t', step s' = .next t' ∧ t.hideMemory j = t'.hideMemory j

/-! ## Memory Engine (spec/20_memory.md) -/

/-- R52: the decomposition of a virtual index. -/
def Obligations.IndexDecomposition : Prop :=
  ∀ i : VIndex, pageStart i = i &&& 0xFC00#16 ∧ offset i = (i &&& 0x03FF#16).toNat ∧
    dirIndex i = (i.extractLsb 15 13).toNat ∧ tblIndex i = (i.extractLsb 12 10).toNat ∧
    (vpn i).val = (i >>> 10).toNat ∧ (vpn i).val = dirIndex i * 8 + tblIndex i ∧
    i.toNat = (pageStart i).toNat + offset i

/-- R53: an index out of range raises AddressError in every operation of the Memory Engine, before anything else. -/
def Obligations.OutOfRangeIndexIsRefused : Prop :=
  ∀ (m : Mmu) (i : Int) (v : F64), i < 0 ∨ 65536 ≤ i →
    m.read i = .error (.address i) ∧ m.write i v = .error (.address i) ∧ m.peek i = .error (.address i)

/-- R86: a read right after a write to the same index returns the word written. -/
def Obligations.ReadAfterWriteRoundTrip : Prop :=
  ∀ (m : Mmu) (i : VIndex) (v : F64), m.Inv →
    ∃ m₁ m₂, m.write (i.toNat : Int) v = .ok m₁ ∧ m₁.read (i.toNat : Int) = .ok (v, m₂)

/-- R87: every trace of reads and writes gives the same answers, and leaves the same page table, cursor, memories and
fault log, with every TLB probe forced to miss. -/
def Obligations.TlbIsTransparent : Prop :=
  ∀ (m : Mmu) (trace : List Access), m.Inv →
    (Mmu.runTrace Mmu.access trace m).1 = (Mmu.runTrace Mmu.accessMiss trace m).1 ∧
    (Mmu.runTrace Mmu.access trace m).2.sameButTlb (Mmu.runTrace Mmu.accessMiss trace m).2

/-- R62: the victim is the first present page with accessed = 0 in circular order from the cursor, or the first present
page if all have accessed = 1; the present pages the sweep passed have their accessed bits cleared, no other entry
changes, and the cursor moves to the victim's successor. Nothing else changes. -/
def Obligations.SecondChanceVictim : Prop :=
  ∀ m : Mmu, m.Inv → ∃ v m', m.secondChance = some (v, m') ∧
    { m' with pt := m.pt, scCursor := m.scCursor } = m ∧ m'.scCursor = v + 1 ∧ (m.pte v).present = true ∧
    ((∃ n, (m.pte n).present = true ∧ (m.pte n).accessed = false) →
      (m.pte v).accessed = false ∧
      ∀ n, if (m.pte n).present = true ∧ (n - m.scCursor).val < (v - m.scCursor).val
        then (m.pte n).accessed = true ∧ m'.pte n = { m.pte n with accessed := false }
        else m'.pte n = m.pte n) ∧
    ((∀ n, (m.pte n).present = true → (m.pte n).accessed = true) →
      (∀ n, (m.pte n).present = true → (v - m.scCursor).val ≤ (n - m.scCursor).val) ∧
      ∀ n, if (m.pte n).present = true then m'.pte n = { m.pte n with accessed := false }
        else m'.pte n = m.pte n)

/-- R60, R63 to R65: a page fault logs the page, reuses the victim's frame, writes a dirty victim's words to its swap
slot, loads the page's words, leaves exactly one valid TLB entry for the frame, and changes no V(i) and nothing else. -/
def Obligations.PageFaultEffect : Prop :=
  ∀ (m : Mmu) (n : Fin 64), m.Inv → (m.pte n).present = false →
    ∃ v m₁ m', (m.logFault n).secondChance = some (v, m₁) ∧ m.pageFault n = some m' ∧ v ≠ n ∧
      m'.faultLog = m.faultLog ++ [n] ∧
      m'.pte v = { m₁.pte v with present := false, dirty := false } ∧
      m'.pte n = { m.pte n with present := true, frame := (m.pte v).frame } ∧
      (∀ k, k ≠ v → k ≠ n → m'.pte k = m₁.pte k) ∧
      (∀ o, o < 1024 → Memory.read m'.phys (frameWord (m.pte v).frame o) = Memory.read m.swap (n.val * 1024 + o)) ∧
      (∀ a, (∀ o, o < 1024 → a ≠ frameWord (m.pte v).frame o) → Memory.read m'.phys a = Memory.read m.phys a) ∧
      (∀ o, o < 1024 → Memory.read m'.swap (v.val * 1024 + o) = Memory.read m.phys (frameWord (m.pte v).frame o)) ∧
      (∀ a, (∀ o, o < 1024 → a ≠ v.val * 1024 + o) → Memory.read m'.swap a = Memory.read m.swap a) ∧
      m'.scCursor = m₁.scCursor ∧ m'.tlbHead = m.tlbHead + 1 ∧
      (∀ k, (m'.tlbEntry k).valid = true → (m'.tlbEntry k).frame = (m.pte v).frame → k = m.tlbHead) ∧
      (∀ k, k ≠ m.tlbHead → (m.tlbEntry k).frame ≠ (m.pte v).frame → m'.tlbEntry k = m.tlbEntry k) ∧
      m'.tlbEntry m.tlbHead = { tag := pageTag n, frame := (m.pte v).frame, valid := true } ∧
      (∀ i, m'.value i = m.value i) ∧ m'.Inv

/-- R58, R59 (a): after any insertion exactly one valid entry has the frame, in the slot before the head. -/
def Obligations.TlbInsertLeavesOneEntry : Prop :=
  ∀ (m : Mmu) (tag : BitVec 16) (f : Fin 4),
    (m.tlbInsert tag f).tlbEntry m.tlbHead = { tag := tag, frame := f, valid := true } ∧
    (m.tlbInsert tag f).tlbHead = m.tlbHead + 1 ∧
    (∀ k, ((m.tlbInsert tag f).tlbEntry k).valid = true → ((m.tlbInsert tag f).tlbEntry k).frame = f →
      k = m.tlbHead) ∧
    (∀ k, k ≠ m.tlbHead → (m.tlbEntry k).frame ≠ f → (m.tlbInsert tag f).tlbEntry k = m.tlbEntry k)

/-- R88: accesses that touch 5 distinct pages take at least one page fault. -/
def Obligations.FivePagesForceAFault : Prop :=
  ∀ (m : Mmu) (trace : List Access), m.Inv → 5 ≤ (trace.filterMap Access.page).toFinset.card →
    ∃ n l, (Mmu.runTrace Mmu.access trace m).2.faultLog = m.faultLog ++ n :: l

/-! ## Control (spec/41_control.md) -/

/-- R150. -/
def Obligations.StopHalts : Prop :=
  (∀ w : InstrWord, opField w = 0x01#8 → decode w = .stop) ∧
  ∀ (s : State) (p : Proc), s.current = some p →
    ∃ t p', exec .stop s = .next t ∧ s.OnlyCurrent t p' ∧ p'.state = .halted ∧ p'.pc = p.pc + 1 ∧
      { p' with state := p.state, pc := p.pc } = p

/-- R151: RUNNING, then the increment and the guard of R134; nothing else changes. -/
def Obligations.StartForcesRunning : Prop :=
  (∀ w : InstrWord, opField w = 0x02#8 → decode w = .start) ∧
  ∀ (s : State) (p : Proc), s.current = some p →
    ∃ t p', exec .start s = .next t ∧ s.OnlyCurrent t p' ∧
      ({ p with state := .running } : Proc).EndsAt p' (p.pc + 1) ∧
      { p' with state := p.state, pc := p.pc, fault := p.fault } = p

/-- R152: a no-op that advances pc, whatever the OP value without a row of its own. -/
def Obligations.UnrecognizedIsNoOp : Prop :=
  (∀ w : InstrWord, opField w = 0x00#8 ∨ 0x18 ≤ (opField w).toNat → decode w = .unrecognized (opField w)) ∧
  ∀ (s : State) (p : Proc) (op : BitVec 8), s.current = some p →
    ∃ t p', exec (.unrecognized op) s = .next t ∧ s.OnlyCurrent t p' ∧ p.EndsAt p' (p.pc + 1) ∧
      { p' with state := p.state, pc := p.pc, fault := p.fault } = p

/-! ## Load and store (spec/43_load_store.md) -/

/-- R183. -/
def Obligations.LoadnumLoadsLiteral : Prop :=
  (∀ w : InstrWord, opField w = 0x07#8 → decode w = .loadnum (immFField w)) ∧
  ∀ (s : State) (p : Proc) (c : F64), s.current = some p →
    ∃ t p', exec (.loadnum c) s = .next t ∧ s.OnlyCurrent t p' ∧ p'.acc = c ∧ p.EndsAt p' (p.pc + 1) ∧
      p'.mmu = p.mmu ∧ p.SameProgram p' ∧ p.SameRecords p'

/-- R181, R70: LOAD of an index in range gives V(i) and only what MMU.read does to the engine, a read access of that index
(R56, R57, R66); out of range it raises AddressError and nothing else changes. -/
def Obligations.LoadReadsMemory : Prop :=
  (∀ w : InstrWord, opField w = 0x05#8 → decode w = .load (immIField w)) ∧
  (∀ (s : State) (p : Proc) (idx : BitVec 32) (i : VIndex), s.current = some p → p.mmu.Inv →
    idx.toInt = (i.toNat : Int) →
    ∃ t p', exec (.load idx) s = .next t ∧ s.OnlyCurrent t p' ∧ p'.acc = p.mmu.value i ∧ p.EndsAt p' (p.pc + 1) ∧
      p.mmu.read (i.toNat : Int) = .ok (p.mmu.value i, p'.mmu) ∧ p.mmu.Accessed p'.mmu i none ∧
      (∀ a, p'.mmu.value a = p.mmu.value a) ∧
      p'.mmu.faultLog = p.mmu.faultLog ++ (if (p.mmu.pte (vpn i)).present then [] else [vpn i]) ∧
      p.SameProgram p' ∧ p.SameRecords p') ∧
  (∀ (s : State) (p : Proc) (idx : BitVec 32), s.current = some p → idx.toInt < 0 ∨ 65536 ≤ idx.toInt →
    ∃ t p', exec (.load idx) s = .next t ∧ s.OnlyCurrent t p' ∧
      p.OnlyFaulted p' (.addressError (.index idx.toInt)))

/-- R182, R71: STORE to an index in range makes V(i) the accumulator, leaves every other V(j), and does to the engine only
what MMU.write does, a write access of that index, which marks the page dirty; out of range it raises AddressError and
nothing else changes. -/
def Obligations.StoreWritesMemory : Prop :=
  (∀ w : InstrWord, opField w = 0x06#8 → decode w = .store (immIField w)) ∧
  (∀ (s : State) (p : Proc) (idx : BitVec 32) (i : VIndex), s.current = some p → p.mmu.Inv →
    idx.toInt = (i.toNat : Int) →
    ∃ t p', exec (.store idx) s = .next t ∧ s.OnlyCurrent t p' ∧ p'.acc = p.acc ∧ p.EndsAt p' (p.pc + 1) ∧
      p.mmu.write (i.toNat : Int) p.acc = .ok p'.mmu ∧ p.mmu.Accessed p'.mmu i (some p.acc) ∧ p'.mmu.value i = p.acc ∧
      (∀ a, a ≠ i → p'.mmu.value a = p.mmu.value a) ∧ (p'.mmu.pte (vpn i)).dirty = true ∧
      p.SameProgram p' ∧ p.SameRecords p') ∧
  (∀ (s : State) (p : Proc) (idx : BitVec 32), s.current = some p → idx.toInt < 0 ∨ 65536 ≤ idx.toInt →
    ∃ t p', exec (.store idx) s = .next t ∧ s.OnlyCurrent t p' ∧
      p.OnlyFaulted p' (.addressError (.index idx.toInt)))

/-- R184, R249: LOADIND. The pointer cell out of range: AddressError of it and nothing else. Else V(i) is read and ToIndex
(R180) converts it: an index a in range gives V(a), by a second read; an integer out of range raises AddressError of it,
a word that is no finite integer AddressError of the word, and then the first read's engine stays (R139). -/
def Obligations.LoadindReadsThroughPointer : Prop :=
  (∀ w : InstrWord, opField w = 0x14#8 → decode w = .loadind (immIField w)) ∧
  ∀ (s : State) (p : Proc) (idx : BitVec 32), s.current = some p →
    (idx.toInt < 0 ∨ 65536 ≤ idx.toInt → ∃ t p', exec (.loadind idx) s = .next t ∧ s.OnlyCurrent t p' ∧
      p.OnlyFaulted p' (.addressError (.index idx.toInt))) ∧
    (∀ i : VIndex, p.mmu.Inv → idx.toInt = (i.toNat : Int) →
      ∃ m, p.mmu.read (i.toNat : Int) = .ok (p.mmu.value i, m) ∧ p.mmu.Accessed m i none ∧
        (∀ b, m.value b = p.mmu.value b) ∧
        (∀ a : VIndex, toIndex (p.mmu.value i) = .ok (a.toNat : Int) →
          ∃ t p', exec (.loadind idx) s = .next t ∧ s.OnlyCurrent t p' ∧ p'.acc = p.mmu.value a ∧
            p.EndsAt p' (p.pc + 1) ∧ m.read (a.toNat : Int) = .ok (p.mmu.value a, p'.mmu) ∧
            m.Accessed p'.mmu a none ∧ (∀ b, p'.mmu.value b = p.mmu.value b) ∧ p.SameProgram p' ∧ p.SameRecords p') ∧
        (∀ a, toIndex (p.mmu.value i) = .ok a → a < 0 ∨ 65536 ≤ a →
          ∃ t p', exec (.loadind idx) s = .next t ∧ s.OnlyCurrent t p' ∧
            ({ p with mmu := m } : Proc).OnlyFaulted p' (.addressError (.index a))) ∧
        (∀ c, toIndex (p.mmu.value i) = .error c →
          ∃ t p', exec (.loadind idx) s = .next t ∧ s.OnlyCurrent t p' ∧
            ({ p with mmu := m } : Proc).OnlyFaulted p' c))

/-- R185, R249: STOREIND, with the same faults as LOADIND; an index a in range makes V(a) the accumulator, also where a is
the pointer cell itself, and leaves every other V(b). -/
def Obligations.StoreindWritesThroughPointer : Prop :=
  (∀ w : InstrWord, opField w = 0x15#8 → decode w = .storeind (immIField w)) ∧
  ∀ (s : State) (p : Proc) (idx : BitVec 32), s.current = some p →
    (idx.toInt < 0 ∨ 65536 ≤ idx.toInt → ∃ t p', exec (.storeind idx) s = .next t ∧ s.OnlyCurrent t p' ∧
      p.OnlyFaulted p' (.addressError (.index idx.toInt))) ∧
    (∀ i : VIndex, p.mmu.Inv → idx.toInt = (i.toNat : Int) →
      ∃ m, p.mmu.read (i.toNat : Int) = .ok (p.mmu.value i, m) ∧ p.mmu.Accessed m i none ∧
        (∀ b, m.value b = p.mmu.value b) ∧
        (∀ a : VIndex, toIndex (p.mmu.value i) = .ok (a.toNat : Int) →
          ∃ t p', exec (.storeind idx) s = .next t ∧ s.OnlyCurrent t p' ∧ p'.acc = p.acc ∧
            p.EndsAt p' (p.pc + 1) ∧ m.write (a.toNat : Int) p.acc = .ok p'.mmu ∧
            m.Accessed p'.mmu a (some p.acc) ∧ p'.mmu.value a = p.acc ∧
            (∀ b, b ≠ a → p'.mmu.value b = p.mmu.value b) ∧ (p'.mmu.pte (vpn a)).dirty = true ∧
            p.SameProgram p' ∧ p.SameRecords p') ∧
        (∀ a, toIndex (p.mmu.value i) = .ok a → a < 0 ∨ 65536 ≤ a →
          ∃ t p', exec (.storeind idx) s = .next t ∧ s.OnlyCurrent t p' ∧
            ({ p with mmu := m } : Proc).OnlyFaulted p' (.addressError (.index a))) ∧
        (∀ c, toIndex (p.mmu.value i) = .error c →
          ∃ t p', exec (.storeind idx) s = .next t ∧ s.OnlyCurrent t p' ∧
            ({ p with mmu := m } : Proc).OnlyFaulted p' c))

/-- R180: ToIndex gives the integer of a finite integral word, -0.0 giving 0, and otherwise, for an infinity, a NaN or a
finite word that is no whole number, AddressError of the word. `F64.fixed x` is the value of a finite x in units of
2^-1074. -/
def Obligations.ToIndexIsExact : Prop :=
  ∀ x : F64,
    (∀ i : Int, toIndex x = .ok i ↔ F64.isFinite x = true ∧ F64.fixed x = i * 2 ^ 1074) ∧
    ((¬∃ i : Int, F64.isFinite x = true ∧ F64.fixed x = i * 2 ^ 1074) →
      toIndex x = .error (.addressError (.pointer x)))

/-! ## Arithmetic (spec/44_arithmetic.md) -/

/-- R208 to R211: acc op c, and nothing else but pc changes. A NaN result is the step's free NaN (log entry 8). -/
def Obligations.LiteralArithmetic : Prop :=
  (∀ w : InstrWord, (opField w = 0x0C#8 → decode w = .addnum (immFField w)) ∧
    (opField w = 0x0D#8 → decode w = .subnum (immFField w)) ∧
    (opField w = 0x0E#8 → decode w = .mulnum (immFField w)) ∧
    (opField w = 0x0F#8 → decode w = .divnum (immFField w))) ∧
  ∀ (s : State) (p : Proc) (c : F64) (i : Instr) (op : F64 → F64 → F64 → F64),
    (i = .addnum c ∧ op = F64.add) ∨ (i = .subnum c ∧ op = F64.sub) ∨
    (i = .mulnum c ∧ op = F64.mul) ∨ (i = .divnum c ∧ op = F64.div) →
    s.current = some p →
    ∃ t p', exec i s = .next t ∧ s.OnlyCurrent t p' ∧ p'.acc = op (arithNan s.ticks) p.acc c ∧
      p.EndsAt p' (p.pc + 1) ∧ p'.mmu = p.mmu ∧ p.SameProgram p' ∧ p.SameRecords p'

/-- R204 to R207: acc op V(i) for an index in range, with only what MMU.read does to the engine, a read access of that
index; out of range AddressError with nothing else changed. A NaN result is the step's free NaN (log entry 8). -/
def Obligations.MemoryArithmetic : Prop :=
  (∀ w : InstrWord, (opField w = 0x08#8 → decode w = .add (immIField w)) ∧
    (opField w = 0x09#8 → decode w = .sub (immIField w)) ∧
    (opField w = 0x0A#8 → decode w = .mul (immIField w)) ∧
    (opField w = 0x0B#8 → decode w = .div (immIField w))) ∧
  ∀ (s : State) (p : Proc) (idx : BitVec 32) (i : Instr) (op : F64 → F64 → F64 → F64),
    (i = .add idx ∧ op = F64.add) ∨ (i = .sub idx ∧ op = F64.sub) ∨
    (i = .mul idx ∧ op = F64.mul) ∨ (i = .div idx ∧ op = F64.div) →
    s.current = some p →
    (∀ j : VIndex, p.mmu.Inv → idx.toInt = (j.toNat : Int) →
      ∃ t p', exec i s = .next t ∧ s.OnlyCurrent t p' ∧
        p'.acc = op (arithNan s.ticks) p.acc (p.mmu.value j) ∧ p.EndsAt p' (p.pc + 1) ∧
        p.mmu.read (j.toNat : Int) = .ok (p.mmu.value j, p'.mmu) ∧ p.mmu.Accessed p'.mmu j none ∧
        (∀ a, p'.mmu.value a = p.mmu.value a) ∧
        p'.mmu.faultLog = p.mmu.faultLog ++ (if (p.mmu.pte (vpn j)).present then [] else [vpn j]) ∧
        p.SameProgram p' ∧ p.SameRecords p') ∧
    (idx.toInt < 0 ∨ 65536 ≤ idx.toInt →
      ∃ t p', exec i s = .next t ∧ s.OnlyCurrent t p' ∧
        p.OnlyFaulted p' (.addressError (.index idx.toInt)))

/-- R200: the rounding of num/den units of 2^-1074 gives the nearest binary64 magnitude, the even one of two equally
near, and an infinity exactly from half a unit in the last place above the largest finite value. -/
def Obligations.RoundingIsNearestEven : Prop :=
  ∀ num den : Nat, 0 < den →
    (F64.roundMag num den = F64.infMag ↔ (2 ^ 54 - 1) * 2 ^ 2044 * den ≤ num) ∧
    (F64.roundMag num den < F64.infMag → ∀ m, m < F64.infMag →
      |(F64.units (F64.ofMag false (F64.roundMag num den)) : Int) * den - num| ≤
        |(F64.units (F64.ofMag false m) : Int) * den - num| ∧
      (|(F64.units (F64.ofMag false (F64.roundMag num den)) : Int) * den - num| =
          |(F64.units (F64.ofMag false m) : Int) * den - num| →
        m = F64.roundMag num den ∨ F64.roundMag num den % 2 = 0))

/-- R200, R14: for finite operands (a divisor that is no zero) every operation is correctly rounded: its result is that of
`F64.RoundsTo` for the exact sum, difference, product or quotient, and where it is a zero its sign is IEEE 754's. `F64.fixed`
counts units of 2^-1074, so a product has 2^1074 of its units in one of them. With an infinite operand the result is IEEE
754's: an infinity, a zero or the NaN of an invalid operation, of the sign its rule gives. -/
def Obligations.OperationsAreCorrectlyRounded : Prop :=
  (∀ nan a b : F64, F64.isFinite a = true → F64.isFinite b = true →
    F64.RoundsTo (F64.add nan a b) (F64.fixed a + F64.fixed b) 1 ∧
    (F64.fixed a + F64.fixed b = 0 → F64.sign (F64.add nan a b) = (F64.sign a && F64.sign b)) ∧
    F64.RoundsTo (F64.sub nan a b) (F64.fixed a - F64.fixed b) 1 ∧
    (F64.fixed a - F64.fixed b = 0 → F64.sign (F64.sub nan a b) = (F64.sign a && !F64.sign b)) ∧
    F64.RoundsTo (F64.mul nan a b) (F64.fixed a * F64.fixed b) (2 ^ 1074) ∧
    F64.sign (F64.mul nan a b) = (F64.sign a != F64.sign b) ∧
    (F64.isZero b = false →
      F64.RoundsTo (F64.div nan a b) (F64.fixed a * 2 ^ 1074 * (F64.fixed b).sign) (F64.fixed b).natAbs ∧
      F64.sign (F64.div nan a b) = (F64.sign a != F64.sign b))) ∧
  (∀ nan i c : F64, F64.isInf i = true → F64.isFinite c = true →
    F64.add nan i c = i ∧ F64.add nan c i = i ∧ F64.sub nan i c = i ∧
    F64.isInf (F64.sub nan c i) = true ∧ F64.sign (F64.sub nan c i) = !F64.sign i ∧
    (F64.isZero c = false →
      F64.isInf (F64.mul nan i c) = true ∧ F64.sign (F64.mul nan i c) = (F64.sign i != F64.sign c) ∧
      F64.isInf (F64.mul nan c i) = true ∧ F64.sign (F64.mul nan c i) = (F64.sign i != F64.sign c)) ∧
    F64.isInf (F64.div nan i c) = true ∧ F64.sign (F64.div nan i c) = (F64.sign i != F64.sign c) ∧
    F64.isZero (F64.div nan c i) = true ∧ F64.sign (F64.div nan c i) = (F64.sign i != F64.sign c)) ∧
  ∀ nan i j : F64, F64.isInf i = true → F64.isInf j = true →
    F64.add nan i j = (if F64.sign i = F64.sign j then i else nan) ∧
    F64.sub nan i j = (if F64.sign i = F64.sign j then nan else i) ∧
    F64.isInf (F64.mul nan i j) = true ∧ F64.sign (F64.mul nan i j) = (F64.sign i != F64.sign j) ∧
    F64.div nan i j = nan

/-- R203, the special-value table, whatever the free NaN is; +Inf is 0x7FF0…, -Inf 0xFFF0…, -0.0 0x8000…. -/
def Obligations.SpecialValues : Prop :=
  ∀ nan : F64,
    (∀ c : F64, F64.isFinite c = true → F64.isZero c = false →
      F64.div nan c 0#64 = (if F64.lt 0#64 c then 0x7FF0000000000000#64 else 0xFFF0000000000000#64) ∧
      F64.div nan c 0x8000000000000000#64 =
        (if F64.lt 0#64 c then 0xFFF0000000000000#64 else 0x7FF0000000000000#64) ∧
      F64.sub nan c c = 0#64) ∧
    (∀ z z' : F64, F64.isZero z = true → F64.isZero z' = true → F64.div nan z z' = nan) ∧
    (∀ i i' : F64, F64.isInf i = true → F64.isInf i' = true → F64.div nan i i' = nan) ∧
    (∀ z i : F64, F64.isZero z = true → F64.isInf i = true → F64.mul nan z i = nan ∧ F64.mul nan i z = nan) ∧
    F64.sub nan 0x7FF0000000000000#64 0x7FF0000000000000#64 = nan ∧
    F64.add nan 0x7FF0000000000000#64 0xFFF0000000000000#64 = nan ∧
    (∀ x y : F64, F64.isNan x = true ∨ F64.isNan y = true →
      F64.add nan x y = nan ∧ F64.sub nan x y = nan ∧ F64.mul nan x y = nan ∧ F64.div nan x y = nan) ∧
    F64.add nan 0#64 0x8000000000000000#64 = 0#64 ∧
    F64.add nan 0x8000000000000000#64 0x8000000000000000#64 = 0x8000000000000000#64 ∧
    F64.sub nan 0#64 0#64 = 0#64 ∧
    F64.mul nan 0x7FE1CCF385EBC8A0#64 0x4024000000000000#64 = 0x7FF0000000000000#64 ∧
    F64.add nan 0x3FB999999999999A#64 0x3FC999999999999A#64 = 0x3FD3333333333334#64

/-- R201: what an arithmetic instruction delivers for a NaN is a quiet NaN, and any quiet NaN may be it: each is the
quiet NaN of some draw. -/
def Obligations.NanDrawCoversQuietNans : Prop :=
  (∀ t, F64.isNan (arithNan t) = true ∧ (arithNan t).getLsbD 51 = true) ∧
  (∀ x : F64, F64.isNan x = true → x.getLsbD 51 = true → ∃ b, quietNan b = x)

/-! ## Jumps (spec/45_jumps.md) -/

/-- R221: the next pc is the target itself; a target of 200 or more halts, a negative one faults. -/
def Obligations.JumpLandsOnTarget : Prop :=
  (∀ w : InstrWord, opField w = 0x10#8 → decode w = .jump (immIField w)) ∧
  ∀ (s : State) (p : Proc) (target : BitVec 32), s.current = some p →
    ∃ t p', exec (.jump target) s = .next t ∧ s.OnlyCurrent t p' ∧ p.EndsAt p' target.toInt ∧
      { p' with state := p.state, pc := p.pc, fault := p.fault } = p

/-- R222 to R224: taken exactly if acc < 0.0, acc > 0.0, acc == 0.0 by the IEEE comparisons; not taken, pc + 1. -/
def Obligations.ConditionalJumps : Prop :=
  (∀ w : InstrWord, (opField w = 0x11#8 → decode w = .jumpneg (immIField w)) ∧
    (opField w = 0x12#8 → decode w = .jumppos (immIField w)) ∧
    (opField w = 0x13#8 → decode w = .jumpnull (immIField w))) ∧
  ∀ (s : State) (p : Proc) (target : BitVec 32) (i : Instr) (taken : Bool),
    (i = .jumpneg target ∧ taken = F64.lt p.acc 0#64) ∨ (i = .jumppos target ∧ taken = F64.lt 0#64 p.acc) ∨
    (i = .jumpnull target ∧ taken = F64.eq p.acc 0#64) →
    s.current = some p →
    ∃ t p', exec i s = .next t ∧ s.OnlyCurrent t p' ∧ p.EndsAt p' (if taken then target.toInt else p.pc + 1) ∧
      { p' with state := p.state, pc := p.pc, fault := p.fault } = p

/-- R225: for a non-NaN acc exactly one of the three conditions holds; for a NaN none does. Which one is the sign of the
value (R14): of `F64.fixed acc` for a finite acc, so that both zeros are null, and the sign of an infinity. -/
def Obligations.ExactlyOneCondition : Prop :=
  ∀ acc : F64,
    (F64.isNan acc = true → isNegative acc = false ∧ isPositive acc = false ∧ isNull acc = false) ∧
    (F64.isNan acc = false →
      (isNegative acc = true ∧ isPositive acc = false ∧ isNull acc = false) ∨
      (isNegative acc = false ∧ isPositive acc = true ∧ isNull acc = false) ∨
      (isNegative acc = false ∧ isPositive acc = false ∧ isNull acc = true)) ∧
    (F64.isFinite acc = true →
      isNegative acc = decide (F64.fixed acc < 0) ∧ isPositive acc = decide (0 < F64.fixed acc) ∧
      isNull acc = decide (F64.fixed acc = 0)) ∧
    (F64.isInf acc = true →
      isNegative acc = F64.sign acc ∧ isPositive acc = !F64.sign acc ∧ isNull acc = false)

/-! ## Ports (spec/42_ports.md) -/

/-- R160: a port outside [0, NUM_PORTS) raises PortRange as a step of the processor alone, and nothing else changes. -/
def Obligations.PortRangeFault : Prop :=
  ∀ (s : State) (p : Proc) (f : BitVec 32) (i : Instr), i = .in_ f ∨ i = .out f → s.current = some p →
    f.toInt < 0 ∨ (s.wiring.numPorts : Int) ≤ f.toInt →
    (p.ready = true → p.nextInstr = some i → s.enabled s.turn = true) ∧
    ∃ t p', exec i s = .next t ∧ s.OnlyCurrent t p' ∧ p.OnlyFaulted p' (.portRange f.toInt)

/-- R161, R162, R136: IN and OUT have a transition exactly while the processor has a step, and no other outcome than the
stall where they have none. -/
def Obligations.PortInstructionsWaitForAPartner : Prop :=
  ∀ (s : State) (p : Proc) (f : BitVec 32) (i : Instr), i = .in_ f ∨ i = .out f → s.current = some p →
    p.ready = true → p.nextInstr = some i →
    (s.enabled s.turn = true → ∃ t, exec i s = .next t) ∧
    (s.enabled s.turn = false → exec i s = .fault .portStall)

/-- R173: the stdin feed. IN on its port has a step while there is a next line, and consumes it: a line that decodes
becomes acc and is recorded; one that does not raises PortDecode (that it is then not recorded is log entry 7). Past the
end of the feed IN has no step, and OUT on the port never has one; in a valid wiring the processor then waits for ever:
every step, whichever processor takes it, leaves it, its wait, the feed's end and the wiring as they were. -/
def Obligations.StdinFeed : Prop :=
  ∀ (s : State) (k : Nat) (p : Proc) (f : BitVec 32) (n : Nat), s.procs[k]? = some p →
    f.toInt = (n : Int) → n < s.wiring.numPorts → s.wiring.stdinPort = some ⟨k, n⟩ →
    (∀ (line : Text) (rest : List Text), s.stdin = line :: rest →
      (p.ready = true → p.nextInstr = some (.in_ f) → s.enabled k = true) ∧
      ∃ t p', exec (.in_ f) { s with turn := k } = .next t ∧
        ({ s with turn := k, stdin := rest } : State).OnlyCurrent t p' ∧
        (∀ x, decodeText (portNan s.ticks) line = some x →
          p'.acc = x ∧ p.EndsAt p' (p.pc + 1) ∧ p'.portHist = p.portHist ++ [.stdinLine n line] ∧
          p'.mmu = p.mmu ∧ p'.dumpOut = p.dumpOut ∧ p.SameProgram p') ∧
        (decodeText (portNan s.ticks) line = none → p.OnlyFaulted p' (.portDecode n))) ∧
    (s.stdin = [] → exec (.in_ f) { s with turn := k } = .fault .portStall ∧
      (p.nextInstr = some (.in_ f) → s.enabled k = false) ∧ ∀ t, step s = .next t → t.stdin = []) ∧
    exec (.out f) { s with turn := k } = .fault .portStall ∧
    (p.nextInstr = some (.out f) → s.enabled k = false) ∧
    (WiringValid s.wiring s.procs.length →
      (p.nextInstr = some (.in_ f) ∧ s.stdin = []) ∨ p.nextInstr = some (.out f) →
      ∀ t, step s = .next t → t.procs[k]? = some p ∧ t.enabled k = false ∧ t.wiring = s.wiring ∧
        WiringValid t.wiring t.procs.length)

/-- R174: the stdout sink. OUT on its port always has a step: it appends the text of acc to stdout, records it, and
leaves acc. IN on the port has no step, and in a valid wiring waits for ever: every step, whichever processor takes it,
leaves the processor, its wait and the wiring as they were. -/
def Obligations.StdoutSink : Prop :=
  ∀ (s : State) (k : Nat) (p : Proc) (f : BitVec 32) (n : Nat), s.procs[k]? = some p → f.toInt = (n : Int) →
    n < s.wiring.numPorts → s.wiring.stdinPort ≠ some ⟨k, n⟩ → s.wiring.stdoutPort = some ⟨k, n⟩ →
    (p.ready = true → p.nextInstr = some (.out f) → s.enabled k = true) ∧
    (∃ t p', exec (.out f) { s with turn := k } = .next t ∧
      ({ s with turn := k, stdout := s.stdout ++ [encodeText p.acc] } : State).OnlyCurrent t p' ∧
      p'.portHist = p.portHist ++ [.stdoutLine n (encodeText p.acc)] ∧ p.EndsAt p' (p.pc + 1) ∧
      p'.acc = p.acc ∧ p'.mmu = p.mmu ∧ p'.dumpOut = p.dumpOut ∧ p.SameProgram p') ∧
    exec (.in_ f) { s with turn := k } = .fault .portStall ∧
    (p.nextInstr = some (.in_ f) → s.enabled k = false) ∧
    (WiringValid s.wiring s.procs.length → p.nextInstr = some (.in_ f) →
      ∀ t, step s = .next t → t.procs[k]? = some p ∧ t.enabled k = false ∧ t.wiring = s.wiring ∧
        WiringValid t.wiring t.procs.length)

/-- R171: the joint step. Both processors have a step, and the turn of either takes the same one: the receiver's acc is
the sender's (R176), both histories get the record, both complete, and nothing else changes. A channel between two ports of
one processor never transfers. -/
def Obligations.RendezvousTransfer : Prop :=
  (∀ (s : State) (k : Nat) (a : Proc) (f : BitVec 32) (n m : Nat), s.procs[k]? = some a → f.toInt = (n : Int) →
    n < s.wiring.numPorts → bindingOf s.wiring ⟨k, n⟩ = .channel ⟨k, m⟩ →
    a.nextInstr = some (.out f) ∨ a.nextInstr = some (.in_ f) → s.enabled k = false) ∧
  ∀ (s : State) (P Q p q : Nat) (fp fq : BitVec 32) (a b : Proc), P ≠ Q →
    s.procs[P]? = some a → s.procs[Q]? = some b → a.ready = true → b.ready = true →
    a.nextInstr = some (.out fp) → b.nextInstr = some (.in_ fq) →
    fp.toInt = (p : Int) → fq.toInt = (q : Int) → p < s.wiring.numPorts → q < s.wiring.numPorts →
    bindingOf s.wiring ⟨P, p⟩ = .channel ⟨Q, q⟩ → bindingOf s.wiring ⟨Q, q⟩ = .channel ⟨P, p⟩ →
    s.enabled P = true ∧ s.enabled Q = true ∧
    ∃ a' b' procs', procs' = (s.procs.set P a').set Q b' ∧
      exec (.out fp) { s with turn := P } = .next { s with turn := P, procs := procs' } ∧
      exec (.in_ fq) { s with turn := Q } = .next { s with turn := Q, procs := procs' } ∧
      a'.acc = a.acc ∧ b'.acc = wire (portNan s.ticks) a.acc ∧
      a'.portHist = a.portHist ++ [.transfer ⟨P, p⟩ ⟨Q, q⟩ a.acc] ∧
      b'.portHist = b.portHist ++ [.transfer ⟨P, p⟩ ⟨Q, q⟩ a.acc] ∧
      a.EndsAt a' (a.pc + 1) ∧ b.EndsAt b' (b.pc + 1) ∧ a'.mmu = a.mmu ∧ b'.mmu = b.mmu ∧
      a'.dumpOut = a.dumpOut ∧ b'.dumpOut = b.dumpOut ∧ a.SameProgram a' ∧ b.SameProgram b'

/-- R175: IN and OUT on an endpoint bound to nothing have no step, and no step of the others changes that: the processor
stays as it is, and the endpoint unbound. On a channel they have one only while the processor at the other end stands at
the matching instruction, on that endpoint. -/
def Obligations.UnboundOrUnmatchedEndpointsStall : Prop :=
  ∀ (s : State) (k : Nat) (p : Proc) (f : BitVec 32) (n : Nat) (i : Instr) (port? : Instr → Option (BitVec 32)),
    (i = .in_ f ∧ port? = outPort?) ∨ (i = .out f ∧ port? = inPort?) →
    s.procs[k]? = some p → p.nextInstr = some i → f.toInt = (n : Int) → n < s.wiring.numPorts →
    (bindingOf s.wiring ⟨k, n⟩ = .unbound →
      s.enabled k = false ∧ exec i { s with turn := k } = .fault .portStall ∧
      ∀ t, step s = .next t → t.procs[k]? = some p ∧ bindingOf t.wiring ⟨k, n⟩ = .unbound) ∧
    (∀ q, bindingOf s.wiring ⟨k, n⟩ = .channel q → s.enabled k = true →
      ∃ r j g, s.procs[q.proc]? = some r ∧ r.state = .running ∧ r.fault = none ∧ r.nextInstr = some j ∧
        port? j = some g ∧ g.toInt = (q.port : Int))

/-- R176: reading back the text of a non-NaN value gives exactly that value, signed zeros and infinities included. -/
def Obligations.TextCodecRoundTrip : Prop :=
  ∀ nan v : F64, F64.isNan v = false → decodeText nan (encodeText v) = some v

/-- R176: between processors a non-NaN value arrives as itself, and a NaN as a NaN, which may be any NaN. -/
def Obligations.WireKeepsNumbers : Prop :=
  (∀ t v, F64.isNan v = false → wire (portNan t) v = v) ∧
  (∀ t v, F64.isNan v = true → F64.isNan (wire (portNan t) v) = true) ∧
  (∀ x : F64, F64.isNan x = true → ∃ b, anyNan b = x)

/-! ## Observation (spec/46_observation.md) -/

/-- R231: with DUMP_MODE = peek, DUMPREG appends MemWord(i, V(i)) for i in 0..65535, in order, and changes nothing else
but pc. -/
def Obligations.DumpregPeek : Prop :=
  ∀ (s : State) (p : Proc), s.current = some p → s.wiring.dumpMode = .peek →
    ∃ t p' rs, exec .dumpreg s = .next t ∧ s.OnlyCurrent t p' ∧ p'.dumpOut = p.dumpOut ++ rs ∧ rs.length = 65536 ∧
      (∀ i : VIndex, rs[i.toNat]? = some (.memWord i.toNat (p.mmu.value i))) ∧ p.EndsAt p' (p.pc + 1) ∧
      p'.acc = p.acc ∧ p'.mmu = p.mmu ∧ p'.portHist = p.portHist ∧ p.SameProgram p'

/-- R231: with DUMP_MODE = via_mmu, DUMPREG emits the same records, and leaves the engine that the reads of 0..65535, in
order, leave; so no V(i) changes, with at least 60 page faults. -/
def Obligations.DumpregThroughMmu : Prop :=
  ∀ (s : State) (p : Proc), s.current = some p → s.wiring.dumpMode = .viaMmu → p.mmu.Inv →
    ∃ t p' rs, exec .dumpreg s = .next t ∧ s.OnlyCurrent t p' ∧ p'.dumpOut = p.dumpOut ++ rs ∧ rs.length = 65536 ∧
      (∀ i : VIndex, rs[i.toNat]? = some (.memWord i.toNat (p.mmu.value i))) ∧ p.EndsAt p' (p.pc + 1) ∧
      p'.mmu = (Mmu.runTrace Mmu.access ((List.range 65536).map fun i : Nat => .read (i : Int)) p.mmu).2 ∧
      (∀ i, p'.mmu.value i = p.mmu.value i) ∧ p'.mmu.Inv ∧
      (∃ l, p'.mmu.faultLog = p.mmu.faultLog ++ l ∧ 60 ≤ l.length) ∧
      p'.acc = p.acc ∧ p'.portHist = p.portHist ∧ p.SameProgram p'

/-- R232: DUMPPROG appends ProgWord(k, PROG[k]) for the prog_len loaded slots, in order, and changes nothing else but
pc. -/
def Obligations.DumpprogEmitsProgram : Prop :=
  (∀ w : InstrWord, opField w = 0x17#8 → decode w = .dumpprog) ∧
  ∀ (s : State) (p : Proc), s.current = some p → p.progLen ≤ 200 →
    ∃ t p' rs, exec .dumpprog s = .next t ∧ s.OnlyCurrent t p' ∧ p'.dumpOut = p.dumpOut ++ rs ∧
      rs.length = p.progLen ∧
      (∀ k : Fin 200, k.val < p.progLen → rs[k.val]? = some (.progWord k.val p.prog[k])) ∧
      p.EndsAt p' (p.pc + 1) ∧ p'.acc = p.acc ∧ p'.mmu = p.mmu ∧ p'.portHist = p.portHist ∧ p.SameProgram p'

/-! ## Reset and configuration (R40, R111, R242, R280) -/

/-- R40: every processor of a configuration that is not refused starts with the reset table's values; stdin then holds the
whole feed (R264), and stdout nothing (log entry 5). -/
def Obligations.BootGivesResetTable : Prop :=
  ∀ (t : Topology) (feed : List Text) (s : State), boot t feed = .ok s →
    s.procs.length = t.procs.length ∧ s.stdin = feed ∧ s.stdout = [] ∧
    ∀ (k : Nat) (p : Proc), s.procs[k]? = some p →
      p.acc = 0#64 ∧ p.pc = 0 ∧ p.state = .running ∧ p.fault = none ∧ p.dumpOut = [] ∧ p.portHist = [] ∧
      p.mmu.faultLog = [] ∧ p.mmu.scCursor = 0 ∧ p.mmu.tlbHead = 0 ∧
      (∀ e, p.mmu.tlbEntry e = { tag := 0, frame := 0, valid := false }) ∧
      (∀ n : Fin 64, (p.mmu.pte n).present = decide (n.val < 4) ∧ (p.mmu.pte n).dirty = false ∧
        (p.mmu.pte n).accessed = false ∧ (p.mmu.pte n).swapOff.toNat = n.val * 1024 ∧
        (p.mmu.pte n).frame.val = if n.val < 4 then n.val else 0) ∧
      (∀ i, i < 65536 → Memory.read p.mmu.swap i = Memory.read (imageMemory t.mem0) i) ∧
      (∀ i, i < 4096 → Memory.read p.mmu.phys i = Memory.read (imageMemory t.mem0) i) ∧
      (∀ i : VIndex, p.mmu.value i = Memory.read (imageMemory t.mem0) i.toNat) ∧
      ∃ d words, t.procs[k]? = some d ∧ assemble d.2 = .ok words ∧ p.progLen = words.length ∧
        ∀ j : Fin 200, p.prog[j] = words.getD j.val 0#128

/-- R111, R108: line k of a source is slot k, the slots past it are all-zero words, and a source of more than 200 lines
is refused. -/
def Obligations.ProgramIsLoaded : Prop :=
  ∀ (t : Topology) (feed : List Text),
    (∀ d ∈ t.procs, 200 < (splitLines d.2).length → ∃ e, boot t feed = .error e) ∧
    (∀ (s : State) (k : Nat) (p : Proc) (id source : Text), boot t feed = .ok s → t.procs[k]? = some (id, source) →
      s.procs[k]? = some p →
      p.progLen = (splitLines source).length ∧
      ∀ (j : Fin 200), match (splitLines source)[j.val]? with
        | some line => assembleLine line = .ok p.prog[j]
        | none => p.prog[j] = 0#128)

/-- R105, R108 to R110: the word of a line. No token: OP 0x00. More than two: refused. Else, for each mnemonic with its OP
and the interpretation it consumes (R104), refused exactly if there is an operand that fails that interpretation, and for
any other first token never refused, with OP 0x00; the word's other fields are RSV 0 and what R109 makes of the operand, 0
where there is none or it does not parse. A decimal integer parses exactly if 32 bits hold it. -/
def Obligations.LinesAssemble : Prop :=
  (∀ line : Text, splitTokens line = [] → assembleLine line = .ok 0#128) ∧
  (∀ (line m : Text) (rest : List Text), splitTokens line = m :: rest → 1 < rest.length →
    ∃ e, assembleLine line = .error e) ∧
  (∀ (line m : Text) (rest : List Text), splitTokens line = m :: rest → rest.length ≤ 1 →
    (∀ w, assembleLine line = .ok w → rsvField w = 0#24 ∧
      immIField w = (rest.head?.bind tokenInt).getD 0#32 ∧ immFField w = (rest.head?.bind tokenFloat).getD 0#64) ∧
    (∀ r ∈ [("STOP", 0x01#8), ("START", 0x02#8), ("DUMPREG", 0x16#8), ("DUMPPROG", 0x17#8)], m = r.1.toList →
      ∃ w, assembleLine line = .ok w ∧ opField w = r.2) ∧
    (∀ r ∈ [("IN", 0x03#8), ("OUT", 0x04#8), ("LOAD", 0x05#8), ("STORE", 0x06#8), ("ADD", 0x08#8), ("SUB", 0x09#8),
        ("MUL", 0x0A#8), ("DIV", 0x0B#8), ("JUMP", 0x10#8), ("JUMPNEG", 0x11#8), ("JUMPPOS", 0x12#8),
        ("JUMPNULL", 0x13#8), ("LOADIND", 0x14#8), ("STOREIND", 0x15#8)], m = r.1.toList →
      if ∃ t ∈ rest, tokenInt t = none then ∃ e, assembleLine line = .error e
      else ∃ w, assembleLine line = .ok w ∧ opField w = r.2) ∧
    (∀ r ∈ [("LOADNUM", 0x07#8), ("ADDNUM", 0x0C#8), ("SUBNUM", 0x0D#8), ("MULNUM", 0x0E#8), ("DIVNUM", 0x0F#8)],
      m = r.1.toList →
      if ∃ t ∈ rest, tokenFloat t = none then ∃ e, assembleLine line = .error e
      else ∃ w, assembleLine line = .ok w ∧ opField w = r.2) ∧
    ((∀ n ∈ ["STOP", "START", "IN", "OUT", "LOAD", "STORE", "LOADNUM", "ADD", "SUB", "MUL", "DIV", "ADDNUM", "SUBNUM",
        "MULNUM", "DIVNUM", "JUMP", "JUMPNEG", "JUMPPOS", "JUMPNULL", "LOADIND", "STOREIND", "DUMPREG", "DUMPPROG"],
        m ≠ n.toList) →
      ∃ w, assembleLine line = .ok w ∧ opField w = 0x00#8 ∧ decode w = .unrecognized 0x00#8)) ∧
  ∀ n : Nat,
    tokenInt (natDigits n) = (if n ≤ 2147483647 then some (BitVec.ofNat 32 n) else none) ∧
    tokenInt ('+' :: natDigits n) = (if n ≤ 2147483647 then some (BitVec.ofNat 32 n) else none) ∧
    tokenInt ('-' :: natDigits n) = (if n ≤ 2147483648 then some (-BitVec.ofNat 32 n) else none)

/-- R242: a configuration is accepted exactly if it breaks none of the conditions of R242, a NUM_PORTS of 0 being one (R8;
log entry 14). -/
def Obligations.ConfigurationAcceptedExactlyIfSound : Prop :=
  ∀ (t : Topology) (feed : List Text), (∃ s, boot t feed = .ok s) ↔
    1 ≤ t.numPorts ∧ (t.procs.map Prod.fst).Nodup ∧ t.stdins.length ≤ 1 ∧ t.stdouts.length ≤ 1 ∧
    (∀ r ∈ t.connections.map Prod.fst ++ t.connections.map Prod.snd ++ t.stdins ++ t.stdouts,
      r.id ∈ t.procs.map Prod.fst ∧ 0 ≤ r.port ∧ r.port < (t.numPorts : Int)) ∧
    (t.connections.map Prod.fst ++ t.connections.map Prod.snd ++ t.stdins ++ t.stdouts).Nodup ∧
    (∀ d ∈ t.procs, (splitLines d.2).length ≤ 200 ∧ ∀ line ∈ splitLines d.2, ∃ w, assembleLine line = .ok w)
end

