-- ==== Sys2Proof/Laws/Memory.lean ====
section
/-! SUPPORT. The laws of a word memory: what a read gives after a write and after a block copy, and that both keep the
canonical form. -/

namespace Sys2Proof.Machine

open Sys2Proof

theorem Memory.wf_nil (size : Nat) : Memory.Wf size [] := by simp [Memory.Wf]

theorem Memory.wf_cons {size : Nat} {c : Nat × F64} {m : Memory} :
    Memory.Wf size (c :: m) ↔
      (∀ d ∈ m, c.1 < d.1) ∧ c.1 < size ∧ c.2 ≠ 0#64 ∧ Memory.Wf size m := by
  simp only [Memory.Wf, List.pairwise_cons, List.mem_cons, forall_eq_or_imp]
  tauto

@[simp] theorem Memory.read_nil (a : Nat) : Memory.read [] a = 0#64 := rfl

/-- An index below every listed one reads as an unlisted one. -/
theorem Memory.read_eq_zero {m : Memory} {a : Nat} (h : ∀ c ∈ m, c.1 ≠ a) : Memory.read m a = 0#64 := by
  induction m with
  | nil => rfl
  | cons c m ih =>
    rw [Memory.read, if_neg (h c (by simp)), ih fun d hd => h d (by simp [hd])]

/-- In canonical form a read gives the word of the one cell listed for the index. -/
theorem Memory.read_eq_of_mem {size : Nat} {m : Memory} {a : Nat} {v : F64} (hw : Memory.Wf size m)
    (h : (a, v) ∈ m) : Memory.read m a = v := by
  induction m with
  | nil => simp at h
  | cons c m ih =>
    obtain ⟨hlt, -, -, hm⟩ := Memory.wf_cons.1 hw
    rcases List.mem_cons.1 h with rfl | h
    · simp [Memory.read]
    · have := hlt _ h
      rw [Memory.read, if_neg (by grind), ih hm h]

/-- A cell is listed exactly for the indices whose word is not +0.0. -/
theorem Memory.mem_iff_read {size : Nat} {m : Memory} (hw : Memory.Wf size m) (a : Nat) (v : F64) :
    (a, v) ∈ m ↔ Memory.read m a = v ∧ v ≠ 0#64 := by
  refine ⟨fun h => ⟨Memory.read_eq_of_mem hw h, (hw.2 _ h).2⟩, ?_⟩
  clear hw
  rintro ⟨hr, hv⟩
  induction m with
  | nil => simp_all
  | cons c m ih =>
    rw [Memory.read] at hr
    split at hr
    · simp [← hr, ← ‹c.1 = a›]
    · exact List.mem_cons_of_mem _ (ih hr)

/-- Canonical memories that read alike are equal. -/
theorem Memory.ext {size : Nat} {m n : Memory} (hm : Memory.Wf size m) (hn : Memory.Wf size n)
    (h : ∀ a, Memory.read m a = Memory.read n a) : m = n := by
  have hmem : ∀ c, c ∈ m ↔ c ∈ n := fun (a, v) => by
    rw [Memory.mem_iff_read hm, Memory.mem_iff_read hn, h]
  have nodup : ∀ {l : Memory}, Memory.Wf size l → l.Nodup := fun hl =>
    hl.1.imp fun hlt he => by simp [he] at hlt
  exact ((List.perm_ext_iff_of_nodup (nodup hm) (nodup hn)).2 hmem).eq_of_pairwise
    (fun a b _ _ hab hba => absurd hab (by omega)) hm.1 hn.1

/-- A read past the end of a canonical memory. -/
theorem Memory.read_of_le {size : Nat} {m : Memory} {a : Nat} (hw : Memory.Wf size m) (h : size ≤ a) :
    Memory.read m a = 0#64 :=
  Memory.read_eq_zero fun c hc => by have := (hw.2 c hc).1; omega

/-- The cells of a written memory: the old ones of other indices, and the new one unless it is +0.0. -/
theorem Memory.mem_write {size : Nat} {m : Memory} {a : Nat} {v : F64} (hw : Memory.Wf size m) (c : Nat × F64) :
    c ∈ Memory.write m a v ↔ (c ∈ m ∧ c.1 ≠ a) ∨ (c = (a, v) ∧ v ≠ 0#64) := by
  induction m with
  | nil => by_cases hv : v = 0#64 <;> simp [Memory.write, hv]
  | cons d m ih =>
    obtain ⟨hlt, -, -, hm⟩ := Memory.wf_cons.1 hw
    have ih := ih hm
    by_cases hv : v = 0#64 <;> rcases lt_trichotomy a d.1 with hlt' | heq | hgt
    · rw [Memory.write, if_pos hlt', if_pos hv]; grind
    · rw [Memory.write, if_neg (by omega), if_pos heq, if_pos hv]; grind
    · rw [Memory.write, if_neg (by omega), if_neg (by omega), List.mem_cons, ih]; grind
    · rw [Memory.write, if_pos hlt', if_neg hv]; grind
    · rw [Memory.write, if_neg (by omega), if_pos heq, if_neg hv]; grind
    · rw [Memory.write, if_neg (by omega), if_neg (by omega), List.mem_cons, ih]; grind

/-- A write inside the memory keeps the canonical form. -/
theorem Memory.write_wf {size : Nat} {m : Memory} {a : Nat} (v : F64) (hw : Memory.Wf size m) (ha : a < size) :
    Memory.Wf size (Memory.write m a v) := by
  refine ⟨?_, fun c hc => ?_⟩
  · induction m with
    | nil => by_cases hv : v = 0#64 <;> simp [Memory.write, hv]
    | cons d m ih =>
      obtain ⟨hlt, -, -, hm⟩ := Memory.wf_cons.1 hw
      have hmem := Memory.mem_write (a := a) (v := v) hm
      rcases lt_trichotomy a d.1 with hlt' | heq | hgt
      · rw [Memory.write, if_pos hlt']
        split
        · exact hw.1
        · exact List.pairwise_cons.2 ⟨by grind, hw.1⟩
      · rw [Memory.write, if_neg (by omega), if_pos heq]
        split
        · exact hm.1
        · exact List.pairwise_cons.2 ⟨by grind, hm.1⟩
      · rw [Memory.write, if_neg (by omega), if_neg (by omega)]
        exact List.pairwise_cons.2 ⟨fun c hc => by have := (hmem c).1 hc; grind, ih hm⟩
  · rcases (Memory.mem_write hw c).1 hc with ⟨h, -⟩ | ⟨rfl, h⟩
    · exact hw.2 c h
    · exact ⟨ha, h⟩

/-- What a read gives after a write: the word written at its index, the old word everywhere else. -/
theorem Memory.read_write {size : Nat} {m : Memory} {a : Nat} (v : F64) (hw : Memory.Wf size m) (ha : a < size)
    (b : Nat) : Memory.read (Memory.write m a v) b = if b = a then v else Memory.read m b := by
  have hw' := Memory.write_wf v hw ha
  by_cases hr : Memory.read (Memory.write m a v) b = 0#64
  · rw [hr]
    split
    · by_contra hv
      have : (a, v) ∈ Memory.write m a v := (Memory.mem_write hw _).2 (.inr ⟨rfl, fun h => hv h.symm⟩)
      rw [Memory.mem_iff_read hw'] at this
      simp_all
    · by_contra hv
      have hm : (b, Memory.read m b) ∈ m := (Memory.mem_iff_read hw _ _).2 ⟨rfl, fun h => hv h.symm⟩
      have : (b, Memory.read m b) ∈ Memory.write m a v := (Memory.mem_write hw _).2 (.inl ⟨hm, by simpa⟩)
      rw [Memory.mem_iff_read hw'] at this
      simp_all
  · have := (Memory.mem_iff_read hw' b _).2 ⟨rfl, hr⟩
    rcases (Memory.mem_write hw _).1 this with ⟨h, hne⟩ | ⟨h, -⟩
    · rw [if_neg hne, Memory.read_eq_of_mem hw h]
    · simp only [Prod.mk.injEq] at h
      rw [if_pos h.1, h.2]

/-- The cells of a copied memory. -/
theorem Memory.mem_copy {src dst : Memory} {srcBase len dstBase : Nat} (c : Nat × F64) :
    c ∈ Memory.copy src srcBase len dst dstBase ↔
      (c ∈ dst ∧ (c.1 < dstBase ∨ dstBase + len ≤ c.1)) ∨
      (dstBase ≤ c.1 ∧ c.1 < dstBase + len ∧ (c.1 - dstBase + srcBase, c.2) ∈ src) := by
  simp only [Memory.copy, Memory.block, List.mem_append, List.mem_filter, List.mem_map, decide_eq_true_eq]
  constructor
  · rintro ((h | ⟨d, ⟨hd, hb⟩, rfl⟩) | h)
    · exact .inl ⟨h.1, .inl h.2⟩
    · refine .inr ⟨?_, ?_, ?_⟩
      · simp
      · simp only; omega
      · have : d.1 - srcBase + srcBase = d.1 := by omega
        simpa [this] using hd
    · exact .inl ⟨h.1, .inr h.2⟩
  · rintro (⟨h, h' | h'⟩ | ⟨h1, h2, h3⟩)
    · exact .inl (.inl ⟨h, h'⟩)
    · exact .inr ⟨h, h'⟩
    · refine .inl (.inr ⟨_, ⟨h3, by simp only; omega⟩, ?_⟩)
      ext
      · simp only; omega
      · rfl

/-- A block copy inside both memories keeps the canonical form. -/
theorem Memory.copy_wf {size size' : Nat} {src dst : Memory} {srcBase len dstBase : Nat}
    (hs : Memory.Wf size' src) (hd : Memory.Wf size dst) (hle : dstBase + len ≤ size) :
    Memory.Wf size (Memory.copy src srcBase len dst dstBase) := by
  refine ⟨?_, fun c hc => ?_⟩
  · rw [Memory.copy, List.pairwise_append, List.pairwise_append]
    refine ⟨⟨hd.1.filter _, ?_, fun c hc d hd' => ?_⟩, hd.1.filter _, fun c hc d hd' => ?_⟩
    · rw [Memory.block, List.pairwise_map]
      refine (hs.1.filter _).imp_of_mem fun {a b} ha hb hlt => ?_
      simp only [List.mem_filter, decide_eq_true_eq] at ha hb
      simp only; omega
    · simp only [List.mem_filter, decide_eq_true_eq, Memory.block, List.mem_map] at hc hd'
      obtain ⟨e, -, rfl⟩ := hd'
      simp only; omega
    · simp only [List.mem_append, List.mem_filter, decide_eq_true_eq, Memory.block, List.mem_map] at hc hd'
      rcases hc with h | ⟨e, he, rfl⟩
      · omega
      · simp only; omega
  · rcases (Memory.mem_copy c).1 hc with ⟨h, -⟩ | ⟨h1, h2, h3⟩
    · exact hd.2 c h
    · exact ⟨by omega, (hs.2 _ h3).2⟩

/-- What a read gives after a block copy: the source's word inside the block, the old word everywhere else. -/
theorem Memory.read_copy {size size' : Nat} {src dst : Memory} {srcBase len dstBase : Nat}
    (hs : Memory.Wf size' src) (hd : Memory.Wf size dst) (hle : dstBase + len ≤ size) (a : Nat) :
    Memory.read (Memory.copy src srcBase len dst dstBase) a =
      if dstBase ≤ a ∧ a < dstBase + len then Memory.read src (a - dstBase + srcBase) else Memory.read dst a := by
  have hw := Memory.copy_wf (srcBase := srcBase) hs hd hle
  have key : ∀ v, v ≠ 0#64 → (Memory.read (Memory.copy src srcBase len dst dstBase) a = v ↔
      (if dstBase ≤ a ∧ a < dstBase + len then Memory.read src (a - dstBase + srcBase)
        else Memory.read dst a) = v) := by
    intro v hv
    have := Memory.mem_iff_read hw a v
    rw [Memory.mem_copy] at this
    have h1 := Memory.mem_iff_read hs (a - dstBase + srcBase) v
    have h2 := Memory.mem_iff_read hd a v
    split
    · have : ¬(a < dstBase ∨ dstBase + len ≤ a) := by omega
      simp_all
    · have : a < dstBase ∨ dstBase + len ≤ a := by omega
      have : ¬(dstBase ≤ a ∧ a < dstBase + len) := by omega
      grind
  by_cases h : Memory.read (Memory.copy src srcBase len dst dstBase) a = 0#64
  · by_contra hne
    have := (key _ (fun h' => hne (h.trans h'.symm))).2 rfl
    exact hne this
  · exact ((key _ h).1 rfl).symm

end Sys2Proof.Machine
end

