-- ==== Sys2Proof/Laws/State.lean ====
section
/-! SUPPORT. One lemma per field per update of the records of State.lean, each true by unfolding it once, so that no later proof
unfolds a record update. -/

namespace Sys2Proof.Machine

open Sys2Proof

/-! ## Proc -/

@[simp] theorem Proc.setAcc_acc (p : Proc) (v : F64) : (p.setAcc v).acc = v := rfl
@[simp] theorem Proc.setAcc_pc (p : Proc) (v : F64) : (p.setAcc v).pc = p.pc := rfl
@[simp] theorem Proc.setAcc_state (p : Proc) (v : F64) : (p.setAcc v).state = p.state := rfl
@[simp] theorem Proc.setAcc_fault (p : Proc) (v : F64) : (p.setAcc v).fault = p.fault := rfl
@[simp] theorem Proc.setAcc_prog (p : Proc) (v : F64) : (p.setAcc v).prog = p.prog := rfl
@[simp] theorem Proc.setAcc_progLen (p : Proc) (v : F64) : (p.setAcc v).progLen = p.progLen := rfl
@[simp] theorem Proc.setAcc_mmu (p : Proc) (v : F64) : (p.setAcc v).mmu = p.mmu := rfl
@[simp] theorem Proc.setAcc_dumpOut (p : Proc) (v : F64) : (p.setAcc v).dumpOut = p.dumpOut := rfl
@[simp] theorem Proc.setAcc_portHist (p : Proc) (v : F64) : (p.setAcc v).portHist = p.portHist := rfl

@[simp] theorem Proc.setPc_acc (p : Proc) (k : Int) : (p.setPc k).acc = p.acc := rfl
@[simp] theorem Proc.setPc_pc (p : Proc) (k : Int) : (p.setPc k).pc = k := rfl
@[simp] theorem Proc.setPc_state (p : Proc) (k : Int) : (p.setPc k).state = p.state := rfl
@[simp] theorem Proc.setPc_fault (p : Proc) (k : Int) : (p.setPc k).fault = p.fault := rfl
@[simp] theorem Proc.setPc_prog (p : Proc) (k : Int) : (p.setPc k).prog = p.prog := rfl
@[simp] theorem Proc.setPc_progLen (p : Proc) (k : Int) : (p.setPc k).progLen = p.progLen := rfl
@[simp] theorem Proc.setPc_mmu (p : Proc) (k : Int) : (p.setPc k).mmu = p.mmu := rfl
@[simp] theorem Proc.setPc_dumpOut (p : Proc) (k : Int) : (p.setPc k).dumpOut = p.dumpOut := rfl
@[simp] theorem Proc.setPc_portHist (p : Proc) (k : Int) : (p.setPc k).portHist = p.portHist := rfl

@[simp] theorem Proc.setRunState_acc (p : Proc) (r : RunState) : (p.setRunState r).acc = p.acc := rfl
@[simp] theorem Proc.setRunState_pc (p : Proc) (r : RunState) : (p.setRunState r).pc = p.pc := rfl
@[simp] theorem Proc.setRunState_state (p : Proc) (r : RunState) : (p.setRunState r).state = r := rfl
@[simp] theorem Proc.setRunState_fault (p : Proc) (r : RunState) : (p.setRunState r).fault = p.fault := rfl
@[simp] theorem Proc.setRunState_prog (p : Proc) (r : RunState) : (p.setRunState r).prog = p.prog := rfl
@[simp] theorem Proc.setRunState_progLen (p : Proc) (r : RunState) : (p.setRunState r).progLen = p.progLen := rfl
@[simp] theorem Proc.setRunState_mmu (p : Proc) (r : RunState) : (p.setRunState r).mmu = p.mmu := rfl
@[simp] theorem Proc.setRunState_dumpOut (p : Proc) (r : RunState) : (p.setRunState r).dumpOut = p.dumpOut := rfl
@[simp] theorem Proc.setRunState_portHist (p : Proc) (r : RunState) : (p.setRunState r).portHist = p.portHist := rfl

@[simp] theorem Proc.setMmu_acc (p : Proc) (m : Mmu) : (p.setMmu m).acc = p.acc := rfl
@[simp] theorem Proc.setMmu_pc (p : Proc) (m : Mmu) : (p.setMmu m).pc = p.pc := rfl
@[simp] theorem Proc.setMmu_state (p : Proc) (m : Mmu) : (p.setMmu m).state = p.state := rfl
@[simp] theorem Proc.setMmu_fault (p : Proc) (m : Mmu) : (p.setMmu m).fault = p.fault := rfl
@[simp] theorem Proc.setMmu_prog (p : Proc) (m : Mmu) : (p.setMmu m).prog = p.prog := rfl
@[simp] theorem Proc.setMmu_progLen (p : Proc) (m : Mmu) : (p.setMmu m).progLen = p.progLen := rfl
@[simp] theorem Proc.setMmu_mmu (p : Proc) (m : Mmu) : (p.setMmu m).mmu = m := rfl
@[simp] theorem Proc.setMmu_dumpOut (p : Proc) (m : Mmu) : (p.setMmu m).dumpOut = p.dumpOut := rfl
@[simp] theorem Proc.setMmu_portHist (p : Proc) (m : Mmu) : (p.setMmu m).portHist = p.portHist := rfl

@[simp] theorem Proc.emitDump_acc (p : Proc) (rs : List DumpRecord) : (p.emitDump rs).acc = p.acc := rfl
@[simp] theorem Proc.emitDump_pc (p : Proc) (rs : List DumpRecord) : (p.emitDump rs).pc = p.pc := rfl
@[simp] theorem Proc.emitDump_state (p : Proc) (rs : List DumpRecord) : (p.emitDump rs).state = p.state := rfl
@[simp] theorem Proc.emitDump_fault (p : Proc) (rs : List DumpRecord) : (p.emitDump rs).fault = p.fault := rfl
@[simp] theorem Proc.emitDump_prog (p : Proc) (rs : List DumpRecord) : (p.emitDump rs).prog = p.prog := rfl
@[simp] theorem Proc.emitDump_progLen (p : Proc) (rs : List DumpRecord) : (p.emitDump rs).progLen = p.progLen := rfl
@[simp] theorem Proc.emitDump_mmu (p : Proc) (rs : List DumpRecord) : (p.emitDump rs).mmu = p.mmu := rfl
@[simp] theorem Proc.emitDump_dumpOut (p : Proc) (rs : List DumpRecord) : (p.emitDump rs).dumpOut = p.dumpOut ++ rs := rfl
@[simp] theorem Proc.emitDump_portHist (p : Proc) (rs : List DumpRecord) : (p.emitDump rs).portHist = p.portHist := rfl

@[simp] theorem Proc.recordPort_acc (p : Proc) (r : PortRecord) : (p.recordPort r).acc = p.acc := rfl
@[simp] theorem Proc.recordPort_pc (p : Proc) (r : PortRecord) : (p.recordPort r).pc = p.pc := rfl
@[simp] theorem Proc.recordPort_state (p : Proc) (r : PortRecord) : (p.recordPort r).state = p.state := rfl
@[simp] theorem Proc.recordPort_fault (p : Proc) (r : PortRecord) : (p.recordPort r).fault = p.fault := rfl
@[simp] theorem Proc.recordPort_prog (p : Proc) (r : PortRecord) : (p.recordPort r).prog = p.prog := rfl
@[simp] theorem Proc.recordPort_progLen (p : Proc) (r : PortRecord) : (p.recordPort r).progLen = p.progLen := rfl
@[simp] theorem Proc.recordPort_mmu (p : Proc) (r : PortRecord) : (p.recordPort r).mmu = p.mmu := rfl
@[simp] theorem Proc.recordPort_dumpOut (p : Proc) (r : PortRecord) : (p.recordPort r).dumpOut = p.dumpOut := rfl
@[simp] theorem Proc.recordPort_portHist (p : Proc) (r : PortRecord) : (p.recordPort r).portHist = p.portHist ++ [r] := rfl

@[simp] theorem Proc.raise_acc (p : Proc) (c : Cause) : (p.raise c).acc = p.acc := rfl
@[simp] theorem Proc.raise_pc (p : Proc) (c : Cause) : (p.raise c).pc = p.pc := rfl
@[simp] theorem Proc.raise_state (p : Proc) (c : Cause) : (p.raise c).state = p.state := rfl
@[simp] theorem Proc.raise_fault (p : Proc) (c : Cause) : (p.raise c).fault = some c := rfl
@[simp] theorem Proc.raise_prog (p : Proc) (c : Cause) : (p.raise c).prog = p.prog := rfl
@[simp] theorem Proc.raise_progLen (p : Proc) (c : Cause) : (p.raise c).progLen = p.progLen := rfl
@[simp] theorem Proc.raise_mmu (p : Proc) (c : Cause) : (p.raise c).mmu = p.mmu := rfl
@[simp] theorem Proc.raise_dumpOut (p : Proc) (c : Cause) : (p.raise c).dumpOut = p.dumpOut := rfl
@[simp] theorem Proc.raise_portHist (p : Proc) (c : Cause) : (p.raise c).portHist = p.portHist := rfl

@[simp] theorem Proc.jumpTo_acc (p : Proc) (target : Int) : (p.jumpTo target).acc = p.acc := rfl
@[simp] theorem Proc.jumpTo_pc (p : Proc) (target : Int) : (p.jumpTo target).pc = target - 1 := rfl
@[simp] theorem Proc.jumpTo_state (p : Proc) (target : Int) : (p.jumpTo target).state = p.state := rfl
@[simp] theorem Proc.jumpTo_fault (p : Proc) (target : Int) : (p.jumpTo target).fault = p.fault := rfl
@[simp] theorem Proc.jumpTo_prog (p : Proc) (target : Int) : (p.jumpTo target).prog = p.prog := rfl
@[simp] theorem Proc.jumpTo_progLen (p : Proc) (target : Int) : (p.jumpTo target).progLen = p.progLen := rfl
@[simp] theorem Proc.jumpTo_mmu (p : Proc) (target : Int) : (p.jumpTo target).mmu = p.mmu := rfl
@[simp] theorem Proc.jumpTo_dumpOut (p : Proc) (target : Int) : (p.jumpTo target).dumpOut = p.dumpOut := rfl
@[simp] theorem Proc.jumpTo_portHist (p : Proc) (target : Int) : (p.jumpTo target).portHist = p.portHist := rfl

/-! ## Mmu -/

@[simp] theorem Mmu.setPte_phys (m : Mmu) (n : Fin 64) (e : Pte) : (m.setPte n e).phys = m.phys := rfl
@[simp] theorem Mmu.setPte_pt (m : Mmu) (n : Fin 64) (e : Pte) : (m.setPte n e).pt = m.pt.set n e := rfl
@[simp] theorem Mmu.setPte_swap (m : Mmu) (n : Fin 64) (e : Pte) : (m.setPte n e).swap = m.swap := rfl
@[simp] theorem Mmu.setPte_tlb (m : Mmu) (n : Fin 64) (e : Pte) : (m.setPte n e).tlb = m.tlb := rfl
@[simp] theorem Mmu.setPte_tlbHead (m : Mmu) (n : Fin 64) (e : Pte) : (m.setPte n e).tlbHead = m.tlbHead := rfl
@[simp] theorem Mmu.setPte_scCursor (m : Mmu) (n : Fin 64) (e : Pte) : (m.setPte n e).scCursor = m.scCursor := rfl
@[simp] theorem Mmu.setPte_faultLog (m : Mmu) (n : Fin 64) (e : Pte) : (m.setPte n e).faultLog = m.faultLog := rfl

@[simp] theorem Mmu.markAccessed_phys (m : Mmu) (n : Fin 64) : (m.markAccessed n).phys = m.phys := rfl
@[simp] theorem Mmu.markAccessed_swap (m : Mmu) (n : Fin 64) : (m.markAccessed n).swap = m.swap := rfl
@[simp] theorem Mmu.markAccessed_tlb (m : Mmu) (n : Fin 64) : (m.markAccessed n).tlb = m.tlb := rfl
@[simp] theorem Mmu.markAccessed_tlbHead (m : Mmu) (n : Fin 64) : (m.markAccessed n).tlbHead = m.tlbHead := rfl
@[simp] theorem Mmu.markAccessed_scCursor (m : Mmu) (n : Fin 64) : (m.markAccessed n).scCursor = m.scCursor := rfl
@[simp] theorem Mmu.markAccessed_faultLog (m : Mmu) (n : Fin 64) : (m.markAccessed n).faultLog = m.faultLog := rfl

@[simp] theorem Mmu.markDirty_phys (m : Mmu) (n : Fin 64) : (m.markDirty n).phys = m.phys := rfl
@[simp] theorem Mmu.markDirty_swap (m : Mmu) (n : Fin 64) : (m.markDirty n).swap = m.swap := rfl
@[simp] theorem Mmu.markDirty_tlb (m : Mmu) (n : Fin 64) : (m.markDirty n).tlb = m.tlb := rfl
@[simp] theorem Mmu.markDirty_tlbHead (m : Mmu) (n : Fin 64) : (m.markDirty n).tlbHead = m.tlbHead := rfl
@[simp] theorem Mmu.markDirty_scCursor (m : Mmu) (n : Fin 64) : (m.markDirty n).scCursor = m.scCursor := rfl
@[simp] theorem Mmu.markDirty_faultLog (m : Mmu) (n : Fin 64) : (m.markDirty n).faultLog = m.faultLog := rfl

@[simp] theorem Mmu.tlbInsert_phys (m : Mmu) (tag : BitVec 16) (f : Fin 4) : (m.tlbInsert tag f).phys = m.phys := by simp only [Mmu.tlbInsert]
@[simp] theorem Mmu.tlbInsert_pt (m : Mmu) (tag : BitVec 16) (f : Fin 4) : (m.tlbInsert tag f).pt = m.pt := by simp only [Mmu.tlbInsert]
@[simp] theorem Mmu.tlbInsert_swap (m : Mmu) (tag : BitVec 16) (f : Fin 4) : (m.tlbInsert tag f).swap = m.swap := by simp only [Mmu.tlbInsert]
@[simp] theorem Mmu.tlbInsert_tlbHead (m : Mmu) (tag : BitVec 16) (f : Fin 4) : (m.tlbInsert tag f).tlbHead = m.tlbHead + 1 := by simp only [Mmu.tlbInsert]
@[simp] theorem Mmu.tlbInsert_scCursor (m : Mmu) (tag : BitVec 16) (f : Fin 4) : (m.tlbInsert tag f).scCursor = m.scCursor := by simp only [Mmu.tlbInsert]
@[simp] theorem Mmu.tlbInsert_faultLog (m : Mmu) (tag : BitVec 16) (f : Fin 4) : (m.tlbInsert tag f).faultLog = m.faultLog := by simp only [Mmu.tlbInsert]

@[simp] theorem Mmu.logFault_phys (m : Mmu) (n : Fin 64) : (m.logFault n).phys = m.phys := rfl
@[simp] theorem Mmu.logFault_pt (m : Mmu) (n : Fin 64) : (m.logFault n).pt = m.pt := rfl
@[simp] theorem Mmu.logFault_swap (m : Mmu) (n : Fin 64) : (m.logFault n).swap = m.swap := rfl
@[simp] theorem Mmu.logFault_tlb (m : Mmu) (n : Fin 64) : (m.logFault n).tlb = m.tlb := rfl
@[simp] theorem Mmu.logFault_tlbHead (m : Mmu) (n : Fin 64) : (m.logFault n).tlbHead = m.tlbHead := rfl
@[simp] theorem Mmu.logFault_scCursor (m : Mmu) (n : Fin 64) : (m.logFault n).scCursor = m.scCursor := rfl
@[simp] theorem Mmu.logFault_faultLog (m : Mmu) (n : Fin 64) : (m.logFault n).faultLog = m.faultLog ++ [n] := rfl

@[simp] theorem Mmu.remap_phys (m : Mmu) (n : Fin 64) (v : Fin 64) (f : Fin 4) : (m.remap n v f).phys = m.phys := rfl
@[simp] theorem Mmu.remap_swap (m : Mmu) (n : Fin 64) (v : Fin 64) (f : Fin 4) : (m.remap n v f).swap = m.swap := rfl
@[simp] theorem Mmu.remap_tlb (m : Mmu) (n : Fin 64) (v : Fin 64) (f : Fin 4) : (m.remap n v f).tlb = m.tlb := rfl
@[simp] theorem Mmu.remap_tlbHead (m : Mmu) (n : Fin 64) (v : Fin 64) (f : Fin 4) : (m.remap n v f).tlbHead = m.tlbHead := rfl
@[simp] theorem Mmu.remap_scCursor (m : Mmu) (n : Fin 64) (v : Fin 64) (f : Fin 4) : (m.remap n v f).scCursor = m.scCursor := rfl
@[simp] theorem Mmu.remap_faultLog (m : Mmu) (n : Fin 64) (v : Fin 64) (f : Fin 4) : (m.remap n v f).faultLog = m.faultLog := rfl

@[simp] theorem Mmu.swapOut_phys (m : Mmu) (v : Fin 64) (f : Fin 4) : (m.swapOut v f).phys = m.phys := rfl
@[simp] theorem Mmu.swapOut_swap (m : Mmu) (v : Fin 64) (f : Fin 4) : (m.swapOut v f).swap = Memory.copy m.phys (frameWord f 0) 1024 m.swap (m.pte v).swapOff.toNat := rfl
@[simp] theorem Mmu.swapOut_tlb (m : Mmu) (v : Fin 64) (f : Fin 4) : (m.swapOut v f).tlb = m.tlb := rfl
@[simp] theorem Mmu.swapOut_tlbHead (m : Mmu) (v : Fin 64) (f : Fin 4) : (m.swapOut v f).tlbHead = m.tlbHead := rfl
@[simp] theorem Mmu.swapOut_scCursor (m : Mmu) (v : Fin 64) (f : Fin 4) : (m.swapOut v f).scCursor = m.scCursor := rfl
@[simp] theorem Mmu.swapOut_faultLog (m : Mmu) (v : Fin 64) (f : Fin 4) : (m.swapOut v f).faultLog = m.faultLog := rfl

@[simp] theorem Mmu.swapIn_phys (m : Mmu) (n : Fin 64) (v : Fin 64) (f : Fin 4) : (m.swapIn n v f).phys = Memory.copy m.swap (m.pte n).swapOff.toNat 1024 m.phys (frameWord f 0) := by simp only [Mmu.swapIn, Mmu.tlbInsert_phys, Mmu.remap_phys]
@[simp] theorem Mmu.swapIn_swap (m : Mmu) (n : Fin 64) (v : Fin 64) (f : Fin 4) : (m.swapIn n v f).swap = m.swap := by simp only [Mmu.swapIn, Mmu.tlbInsert_swap, Mmu.remap_swap]
@[simp] theorem Mmu.swapIn_tlbHead (m : Mmu) (n : Fin 64) (v : Fin 64) (f : Fin 4) : (m.swapIn n v f).tlbHead = m.tlbHead + 1 := by simp only [Mmu.swapIn, Mmu.tlbInsert_tlbHead, Mmu.remap_tlbHead]
@[simp] theorem Mmu.swapIn_scCursor (m : Mmu) (n : Fin 64) (v : Fin 64) (f : Fin 4) : (m.swapIn n v f).scCursor = m.scCursor := by simp only [Mmu.swapIn, Mmu.tlbInsert_scCursor, Mmu.remap_scCursor]
@[simp] theorem Mmu.swapIn_faultLog (m : Mmu) (n : Fin 64) (v : Fin 64) (f : Fin 4) : (m.swapIn n v f).faultLog = m.faultLog := by simp only [Mmu.swapIn, Mmu.tlbInsert_faultLog, Mmu.remap_faultLog]

/-! ## State -/

@[simp] theorem State.setCurrent_procs (s : State) (p : Proc) : (s.setCurrent p).procs = s.procs.set s.turn p := rfl
@[simp] theorem State.setCurrent_wiring (s : State) (p : Proc) : (s.setCurrent p).wiring = s.wiring := rfl
@[simp] theorem State.setCurrent_stdin (s : State) (p : Proc) : (s.setCurrent p).stdin = s.stdin := rfl
@[simp] theorem State.setCurrent_stdout (s : State) (p : Proc) : (s.setCurrent p).stdout = s.stdout := rfl
@[simp] theorem State.setCurrent_turn (s : State) (p : Proc) : (s.setCurrent p).turn = s.turn := rfl
@[simp] theorem State.setCurrent_ticks (s : State) (p : Proc) : (s.setCurrent p).ticks = s.ticks := rfl

@[simp] theorem State.setTurn_procs (s : State) (k : Nat) : (s.setTurn k).procs = s.procs := rfl
@[simp] theorem State.setTurn_wiring (s : State) (k : Nat) : (s.setTurn k).wiring = s.wiring := rfl
@[simp] theorem State.setTurn_stdin (s : State) (k : Nat) : (s.setTurn k).stdin = s.stdin := rfl
@[simp] theorem State.setTurn_stdout (s : State) (k : Nat) : (s.setTurn k).stdout = s.stdout := rfl
@[simp] theorem State.setTurn_turn (s : State) (k : Nat) : (s.setTurn k).turn = k := rfl
@[simp] theorem State.setTurn_ticks (s : State) (k : Nat) : (s.setTurn k).ticks = s.ticks := rfl

@[simp] theorem State.endStep_procs (s : State) : (s.endStep).procs = s.procs := rfl
@[simp] theorem State.endStep_wiring (s : State) : (s.endStep).wiring = s.wiring := rfl
@[simp] theorem State.endStep_stdin (s : State) : (s.endStep).stdin = s.stdin := rfl
@[simp] theorem State.endStep_stdout (s : State) : (s.endStep).stdout = s.stdout := rfl
@[simp] theorem State.endStep_turn (s : State) : (s.endStep).turn = Config.freeTurn (s.ticks + 1) := rfl
@[simp] theorem State.endStep_ticks (s : State) : (s.endStep).ticks = s.ticks + 1 := rfl

@[simp] theorem State.transfer_wiring (s : State) (src : Endpoint) (p : Proc) (dst : Endpoint) (q : Proc) : (s.transfer src p dst q).wiring = s.wiring := by simp only [State.transfer]
@[simp] theorem State.transfer_stdin (s : State) (src : Endpoint) (p : Proc) (dst : Endpoint) (q : Proc) : (s.transfer src p dst q).stdin = s.stdin := by simp only [State.transfer]
@[simp] theorem State.transfer_stdout (s : State) (src : Endpoint) (p : Proc) (dst : Endpoint) (q : Proc) : (s.transfer src p dst q).stdout = s.stdout := by simp only [State.transfer]
@[simp] theorem State.transfer_turn (s : State) (src : Endpoint) (p : Proc) (dst : Endpoint) (q : Proc) : (s.transfer src p dst q).turn = s.turn := by simp only [State.transfer]
@[simp] theorem State.transfer_ticks (s : State) (src : Endpoint) (p : Proc) (dst : Endpoint) (q : Proc) : (s.transfer src p dst q).ticks = s.ticks := by simp only [State.transfer]

end Sys2Proof.Machine
end

