-- ==== Sys2Proof/Laws/Mmu.lean ====
section
/-! SUPPORT. The laws of the Memory Engine: the index arithmetic of R52, and for each operation one lemma that says what
it does to an engine that meets the invariants of R37. -/

namespace Sys2Proof.Machine

open Sys2Proof

/-! ## Index arithmetic -/

@[simp] theorem vpn_val (i : VIndex) : (vpn i).val = i.toNat / 1024 := by
  simp [vpn, Nat.shiftRight_eq_div_pow]

@[simp] theorem offset_eq (i : VIndex) : offset i = i.toNat % 1024 := by
  simp [offset, BitVec.toNat_and]
  exact Nat.and_two_pow_sub_one_eq_mod i.toNat 10

theorem offset_lt (i : VIndex) : offset i < 1024 := by simp; omega

@[simp] theorem pageTag_toNat (n : Fin 64) : (pageTag n).toNat = n.val * 1024 := by
  have := n.isLt
  simp only [pageTag, BitVec.toNat_ofNat, Nat.shiftLeft_eq]
  omega

@[simp] theorem vpn_pageTag (n : Fin 64) : vpn (pageTag n) = n := by
  ext; simp

theorem pageStart_eq_shift (i : VIndex) : pageStart i = (i >>> 10) <<< 10 := by
  ext j hj
  have : j < 16 := hj
  interval_cases j <;> simp [pageStart]

theorem pageStart_eq_pageTag (i : VIndex) : pageStart i = pageTag (vpn i) := by
  have := i.isLt
  refine BitVec.eq_of_toNat_eq ?_
  simp only [pageStart_eq_shift, pageTag_toNat, vpn_val, BitVec.toNat_shiftLeft, BitVec.toNat_ushiftRight,
    Nat.shiftLeft_eq, Nat.shiftRight_eq_div_pow]
  omega

@[simp] theorem vpn_pageStart (i : VIndex) : vpn (pageStart i) = vpn i := by
  rw [pageStart_eq_pageTag, vpn_pageTag]

theorem pageTag_injective {a b : Fin 64} (h : pageTag a = pageTag b) : a = b := by
  rw [← vpn_pageTag a, ← vpn_pageTag b, h]

/-- Two indices of one page and one offset are one index. -/
theorem index_ext {i j : VIndex} (hp : vpn i = vpn j) (ho : offset i = offset j) : i = j := by
  have := congrArg Fin.val hp
  simp only [vpn_val, offset_eq] at this ho
  exact BitVec.eq_of_toNat_eq (by omega)

theorem frameWord_lt {f : Fin 4} {o : Nat} (ho : o < 1024) : frameWord f o < 4096 := by
  simp [frameWord]; omega

theorem frameWord_inj {f g : Fin 4} {o o' : Nat} (ho : o < 1024) (ho' : o' < 1024) :
    frameWord f o = frameWord g o' ↔ f = g ∧ o = o' := by
  simp only [frameWord, Fin.ext_iff]; omega

theorem checkIndex_eq_some {i : Int} {j : VIndex} :
    checkIndex i = some j ↔ (0 ≤ i ∧ i < 65536) ∧ j = BitVec.ofInt 16 i := by
  simp only [checkIndex]; split <;> simp_all [eq_comm]

theorem checkIndex_eq_none {i : Int} : checkIndex i = none ↔ i < 0 ∨ 65536 ≤ i := by
  simp only [checkIndex]; split <;> simp <;> omega

/-! ## Entries -/

theorem Mmu.pte_setPte (m : Mmu) (n : Fin 64) (e : Pte) (k : Fin 64) :
    (m.setPte n e).pte k = if k = n then e else m.pte k := by
  simp only [Mmu.pte, Mmu.setPte, Fin.getElem_fin, Vector.getElem_set, Fin.ext_iff, eq_comm]

@[simp] theorem Mmu.pte_setPte_self (m : Mmu) (n : Fin 64) (e : Pte) : (m.setPte n e).pte n = e := by
  simp [Mmu.pte_setPte]

theorem Mmu.pte_setPte_ne (m : Mmu) (e : Pte) {n k : Fin 64} (h : k ≠ n) : (m.setPte n e).pte k = m.pte k := by
  simp [Mmu.pte_setPte, h]

/-- Two engines with the same entries have the same page table. -/
theorem Mmu.pt_ext {m m' : Mmu} (h : ∀ n, m.pte n = m'.pte n) : m.pt = m'.pt := by
  ext1 k hk
  exact h ⟨k, hk⟩

@[simp] theorem Mmu.pte_tlbInsert (m : Mmu) (tag : BitVec 16) (f : Fin 4) (n : Fin 64) :
    (m.tlbInsert tag f).pte n = m.pte n := by
  simp only [Mmu.pte, Mmu.tlbInsert_pt]

@[simp] theorem Mmu.pte_logFault (m : Mmu) (n k : Fin 64) : (m.logFault n).pte k = m.pte k := rfl

@[simp] theorem Mmu.tlbEntry_setPte (m : Mmu) (n : Fin 64) (e : Pte) (k : Fin 32) :
    (m.setPte n e).tlbEntry k = m.tlbEntry k := rfl

@[simp] theorem Mmu.tlbEntry_logFault (m : Mmu) (n : Fin 64) (k : Fin 32) :
    (m.logFault n).tlbEntry k = m.tlbEntry k := rfl

/-- What TLBInsert does to the entries (R58): the slot of the head is written, the other entries of the frame are
invalidated, the rest stay. -/
theorem Mmu.tlbEntry_tlbInsert (m : Mmu) (tag : BitVec 16) (f : Fin 4) (k : Fin 32) :
    (m.tlbInsert tag f).tlbEntry k =
      if k = m.tlbHead then { tag := tag, frame := f, valid := true }
      else if (m.tlbEntry k).valid = true ∧ (m.tlbEntry k).frame = f then { m.tlbEntry k with valid := false }
      else m.tlbEntry k := by
  simp only [Mmu.tlbEntry, Mmu.tlbInsert, invalidateFrame, Fin.getElem_fin, Vector.getElem_set, Vector.getElem_ofFn,
    Fin.ext_iff, eq_comm]

/-- A probe that hits names a valid entry of the tag (R55). -/
theorem Mmu.probe_eq_some {m : Mmu} {ps : BitVec 16} {k : Fin 32} (h : m.probe ps = some k) :
    (m.tlbEntry k).valid = true ∧ (m.tlbEntry k).tag = ps := by
  have := List.find?_some h
  simpa using this

/-- A probe misses exactly if no valid entry has the tag (R55). -/
theorem Mmu.probe_eq_none {m : Mmu} {ps : BitVec 16} :
    m.probe ps = none ↔ ∀ k, (m.tlbEntry k).valid = true → (m.tlbEntry k).tag ≠ ps := by
  simp [Mmu.probe, List.find?_eq_none]

/-! ## The architectural value -/

/-- V(i) depends on the page table and the two memories alone (R38). -/
theorem Mmu.value_congr {m m' : Mmu} (hp : ∀ n, (m.pte n).present = (m'.pte n).present)
    (hf : ∀ n, (m.pte n).present = true → (m.pte n).frame = (m'.pte n).frame) (hphys : m.phys = m'.phys)
    (hswap : m.swap = m'.swap) (i : VIndex) : m.value i = m'.value i := by
  have h := hf (vpn i)
  simp only [Mmu.value, hp, hphys, hswap] at h ⊢
  split
  · rw [h ‹_›]
  · rfl

theorem Mmu.value_of_present {m : Mmu} {i : VIndex} (h : (m.pte (vpn i)).present = true) :
    m.value i = Memory.read m.phys (frameWord (m.pte (vpn i)).frame (offset i)) := by
  simp [Mmu.value, h]

theorem Mmu.value_of_absent {m : Mmu} {i : VIndex} (h : (m.pte (vpn i)).present = false) :
    m.value i = Memory.read m.swap ((vpn i).val * 1024 + offset i) := by
  simp [Mmu.value, h]

/-! ## Operations that keep the invariants -/

theorem Mmu.mem_presentPages {m : Mmu} {n : Fin 64} : n ∈ m.presentPages ↔ (m.pte n).present = true := by
  simp [Mmu.presentPages]

@[simp] theorem Mmu.presentPages_tlbInsert (m : Mmu) (tag : BitVec 16) (f : Fin 4) :
    (m.tlbInsert tag f).presentPages = m.presentPages := by
  simp only [Mmu.presentPages, Mmu.pte_tlbInsert]

@[simp] theorem Mmu.value_tlbInsert (m : Mmu) (tag : BitVec 16) (f : Fin 4) (i : VIndex) :
    (m.tlbInsert tag f).value i = m.value i := by
  simp only [Mmu.value, Mmu.pte_tlbInsert, Mmu.tlbInsert_phys, Mmu.tlbInsert_swap]

/-- Changing only accessed bits of present pages keeps the invariants, whatever becomes of the cursor and the log. -/
theorem Mmu.Inv.of_accessed {m m' : Mmu} (h : m.Inv) (hphys : m'.phys = m.phys) (hswap : m'.swap = m.swap)
    (htlb : m'.tlb = m.tlb)
    (hpt : ∀ n, m'.pte n = m.pte n ∨
      ((m.pte n).present = true ∧ ∃ b, m'.pte n = { m.pte n with accessed := b })) : m'.Inv := by
  have hp : ∀ n, (m'.pte n).present = (m.pte n).present := fun n => by
    rcases hpt n with h | ⟨-, b, h⟩ <;> rw [h]
  have hf : ∀ n, (m'.pte n).frame = (m.pte n).frame := fun n => by rcases hpt n with h | ⟨-, b, h⟩ <;> rw [h]
  have hd : ∀ n, (m'.pte n).dirty = (m.pte n).dirty := fun n => by rcases hpt n with h | ⟨-, b, h⟩ <;> rw [h]
  have hs : ∀ n, (m'.pte n).swapOff = (m.pte n).swapOff := fun n => by rcases hpt n with h | ⟨-, b, h⟩ <;> rw [h]
  have ht : ∀ k, m'.tlbEntry k = m.tlbEntry k := fun k => by simp only [Mmu.tlbEntry, htlb]
  have hset : m'.presentPages = m.presentPages := by ext n; simp [Mmu.mem_presentPages, hp]
  refine ⟨by rw [hset]; exact h.presentFour, ?_, ?_, ?_, ?_, ?_, ?_, ?_, hphys ▸ h.physWf, hswap ▸ h.swapWf⟩
  · simp only [hp, hf]; exact h.framesDistinct
  · simp only [hp, hf, ht]; exact h.tlbAgrees
  · simp only [ht]; exact h.tlbFrames
  · simp only [ht]; exact h.tlbTags
  · simp only [hs]; exact h.swapSlots
  · intro n hn
    rw [hp] at hn
    rcases hpt n with he | ⟨hpres, -⟩
    · rw [he]; exact h.absentClear n hn
    · simp [hn] at hpres
  · simp only [hp, hf, hd, hphys, hswap]; exact h.cleanEqual

theorem Mmu.Inv.markAccessed {m : Mmu} (h : m.Inv) {n : Fin 64} (hn : (m.pte n).present = true) :
    (m.markAccessed n).Inv := by
  refine h.of_accessed (by simp) (by simp) (by simp) fun k => ?_
  simp only [Mmu.markAccessed, Mmu.pte_setPte]
  split
  · exact .inr ⟨‹k = n› ▸ hn, true, by rw [‹k = n›]⟩
  · exact .inl rfl

theorem Mmu.Inv.logFault {m : Mmu} (h : m.Inv) (n : Fin 64) : (m.logFault n).Inv :=
  h.of_accessed rfl rfl rfl fun _ => .inl rfl

/-- Inserting the mapping of a present page keeps the invariants (R58, R85). -/
theorem Mmu.Inv.tlbInsert {m : Mmu} (h : m.Inv) {n : Fin 64} (hn : (m.pte n).present = true) :
    (m.tlbInsert (pageTag n) (m.pte n).frame).Inv := by
  have ht := m.tlbEntry_tlbInsert (pageTag n) (m.pte n).frame
  have htag : ∀ k, (m.tlbEntry k).valid = true → (m.tlbEntry k).tag = pageTag n →
      (m.tlbEntry k).frame = (m.pte n).frame := by
    intro k hv hk
    have := h.tlbAgrees k hv
    rw [hk, vpn_pageTag] at this
    exact this.2.1.symm
  refine ⟨by rw [Mmu.presentPages_tlbInsert]; exact h.presentFour,
    by simp only [Mmu.pte_tlbInsert]; exact h.framesDistinct, ?_, ?_, ?_,
    by simp only [Mmu.pte_tlbInsert]; exact h.swapSlots, by simp only [Mmu.pte_tlbInsert]; exact h.absentClear,
    by simp only [Mmu.pte_tlbInsert, Mmu.tlbInsert_phys, Mmu.tlbInsert_swap]; exact h.cleanEqual,
    by rw [Mmu.tlbInsert_phys]; exact h.physWf, by rw [Mmu.tlbInsert_swap]; exact h.swapWf⟩
  · intro k hk
    simp only [Mmu.pte_tlbInsert]
    rw [ht] at hk ⊢
    split at hk
    · simp [*]
    · rename_i hne
      simp only [hne, if_false] at hk ⊢
      split at hk
      · simp at hk
      · rename_i h2; simp only [h2, if_false]; exact h.tlbAgrees k hk
  · intro k l hk hl he
    have hF := h.tlbFrames
    rw [ht] at hk hl he
    rw [ht] at he
    grind
  · intro k l hk hl he
    have hT := h.tlbTags
    rw [ht] at hk hl he
    rw [ht] at he
    grind

/-! ## Second chance (R61, R62) -/

/-- From an index whose sweep meets a present page with accessed = 0 within the fuel, the sweep selects a victim. -/
theorem sweep_isSome_of_clear (t : Fin 64) : ∀ (fuel : Nat) (j : Fin 64) (pt : Vector Pte 64),
    pt[t].present = true → pt[t].accessed = false → (t - j).val < fuel → (sweep fuel j pt).isSome = true := by
  intro fuel
  induction fuel with
  | zero => intro j pt _ _ h; omega
  | succ fuel ih =>
    intro j pt hp ha hd
    by_cases hj : t = j
    · subst hj
      rw [sweep, if_pos hp, if_neg (by simp only [ha, Bool.false_eq_true, not_false_iff])]
      rfl
    · have hv : ¬t.val = j.val := fun h => hj (Fin.ext h)
      have hd' : (t - (j + 1)).val < fuel := by
        simp only [Fin.sub_def, Fin.add_def] at hd ⊢
        simp only [Fin.coe_ofNat_eq_mod] at *
        omega
      simp only [sweep]
      split
      · split
        · exact ih _ _ (by simpa [Vector.getElem_set, Ne.symm hv] using hp)
            (by simpa [Vector.getElem_set, Ne.symm hv] using ha) hd'
        · rfl
      · exact ih _ _ hp ha hd'

/-- From any index, with a present page, a sweep of 64 indices more than its distance selects a victim. -/
theorem sweep_isSome (t : Fin 64) : ∀ (fuel : Nat) (j : Fin 64) (pt : Vector Pte 64),
    pt[t].present = true → (t - j).val + 64 < fuel → (sweep fuel j pt).isSome = true := by
  intro fuel
  induction fuel with
  | zero => intro j pt _ h; omega
  | succ fuel ih =>
    intro j pt hp hd
    by_cases hj : t = j
    · subst hj
      simp only [sweep, hp, if_true]
      split
      · refine sweep_isSome_of_clear t _ _ _ (by simp) (by simp) ?_
        have := (t - (t + 1)).isLt
        omega
      · rfl
    · have hv : ¬t.val = j.val := fun h => hj (Fin.ext h)
      have hd' : (t - (j + 1)).val + 64 < fuel := by
        simp only [Fin.sub_def, Fin.add_def] at hd ⊢
        simp only [Fin.coe_ofNat_eq_mod] at *
        omega
      simp only [sweep]
      split
      · split
        · exact ih _ _ (by simpa [Vector.getElem_set, Ne.symm hv] using hp) hd'
        · rfl
      · exact ih _ _ hp hd'

/-- What a sweep that selects a victim has done: the victim is present with accessed = 0 after it, and only accessed
bits of present pages were cleared. -/
theorem sweep_eq_some : ∀ {fuel : Nat} {j v : Fin 64} {pt pt' : Vector Pte 64}, sweep fuel j pt = some (v, pt') →
    pt'[v].present = true ∧ pt'[v].accessed = false ∧
    ∀ n : Fin 64, pt'[n] = pt[n] ∨ (pt[n].present = true ∧ pt'[n] = { pt[n] with accessed := false }) := by
  intro fuel
  induction fuel with
  | zero => intro j v pt pt' h; simp [sweep] at h
  | succ fuel ih =>
    intro j v pt pt' h
    simp only [sweep] at h
    split at h
    · split at h
      · obtain ⟨hp, ha, hn⟩ := ih h
        refine ⟨hp, ha, fun n => ?_⟩
        have := hn n
        simp only [Fin.getElem_fin, Vector.getElem_set] at this ⊢
        grind
      · simp only [Option.some.injEq, Prod.mk.injEq] at h
        obtain ⟨rfl, rfl⟩ := h
        exact ⟨by assumption, by simp_all, fun n => .inl rfl⟩
    · exact ih h

/-- SecondChanceSelect on an engine that meets the invariants (R62): it selects a present page, whose accessed bit is
then clear, has only cleared accessed bits of present pages, and has moved the cursor past the victim. -/
theorem Mmu.Inv.secondChance {m : Mmu} (h : m.Inv) : ∃ v m', m.secondChance = some (v, m') ∧ m'.Inv ∧
    (m.pte v).present = true ∧ (m'.pte v).accessed = false ∧ m'.scCursor = v + 1 ∧
    (∀ n, m'.pte n = m.pte n ∨ ((m.pte n).present = true ∧ m'.pte n = { m.pte n with accessed := false })) ∧
    m'.phys = m.phys ∧ m'.swap = m.swap ∧ m'.tlb = m.tlb ∧ m'.tlbHead = m.tlbHead ∧ m'.faultLog = m.faultLog := by
  have hne : m.presentPages.Nonempty := Finset.card_pos.1 (by rw [h.presentFour]; omega)
  obtain ⟨t, ht⟩ := hne
  rw [Mmu.mem_presentPages] at ht
  have hs := sweep_isSome t 128 m.scCursor m.pt ht (by have := (t - m.scCursor).isLt; omega)
  obtain ⟨⟨v, pt'⟩, hv⟩ := Option.isSome_iff_exists.1 hs
  obtain ⟨hp, ha, hn⟩ := sweep_eq_some hv
  refine ⟨v, { m with pt := pt', scCursor := v + 1 }, by simp only [Mmu.secondChance, hv], ?_, ?_, ha, rfl, hn,
    rfl, rfl, rfl, rfl, rfl⟩
  · refine h.of_accessed rfl rfl rfl fun n => ?_
    rcases hn n with h' | ⟨h', h''⟩
    · exact .inl h'
    · exact .inr ⟨h', false, h''⟩
  · rcases hn v with h' | ⟨h', -⟩
    · change m.pt[v].present = true; rw [← h']; exact hp
    · exact h'

/-! ## Page fault (R60, R64, R65) -/

theorem Mmu.Inv.swapOff_toNat {m : Mmu} (h : m.Inv) (n : Fin 64) : (m.pte n).swapOff.toNat = n.val * 1024 := by
  have := n.isLt
  rw [h.swapSlots, BitVec.toNat_ofNat]
  omega

/-- What SwapOut leaves in SWAP (R64): the frame's words in the victim's slot. -/
theorem Mmu.Inv.read_swapOut {m : Mmu} (h : m.Inv) (v : Fin 64) (f : Fin 4) (a : Nat) :
    Memory.read (m.swapOut v f).swap a =
      if v.val * 1024 ≤ a ∧ a < v.val * 1024 + 1024 then Memory.read m.phys (frameWord f (a - v.val * 1024))
      else Memory.read m.swap a := by
  have := v.isLt
  rw [Mmu.swapOut_swap, h.swapOff_toNat, Memory.read_copy h.physWf h.swapWf (by omega)]
  simp only [frameWord, Nat.add_comm, Nat.zero_add]

@[simp] theorem Mmu.pte_swapOut (m : Mmu) (v : Fin 64) (f : Fin 4) (n : Fin 64) :
    (m.swapOut v f).pte n = if n = v then { m.pte v with dirty := false } else m.pte n := by
  rw [Mmu.swapOut, Mmu.pte_setPte]
  rfl

theorem Mmu.tlbEntry_swapOut (m : Mmu) (v : Fin 64) (f : Fin 4) (k : Fin 32) :
    (m.swapOut v f).tlbEntry k = m.tlbEntry k := by
  simp only [Mmu.tlbEntry, Mmu.swapOut_tlb]

/-- SwapOut of a present page keeps the invariants and the architectural memory (R64, R38). -/
theorem Mmu.Inv.swapOut {m : Mmu} (h : m.Inv) {v : Fin 64} (hv : (m.pte v).present = true) :
    (m.swapOut v (m.pte v).frame).Inv ∧ ∀ i, (m.swapOut v (m.pte v).frame).value i = m.value i := by
  have hr := h.read_swapOut v (m.pte v).frame
  have hp : ∀ n, ((m.swapOut v (m.pte v).frame).pte n).present = (m.pte n).present := fun n => by
    rw [Mmu.pte_swapOut]; split <;> simp_all
  have hf : ∀ n, ((m.swapOut v (m.pte v).frame).pte n).frame = (m.pte n).frame := fun n => by
    rw [Mmu.pte_swapOut]; split <;> simp_all
  have hset : (m.swapOut v (m.pte v).frame).presentPages = m.presentPages := by
    ext n; simp only [Mmu.mem_presentPages, hp]
  have hslot : ∀ {n : Fin 64} {o : Nat}, n ≠ v → o < 1024 →
      ¬(v.val * 1024 ≤ n.val * 1024 + o ∧ n.val * 1024 + o < v.val * 1024 + 1024) := by
    intro n o hn ho
    have : n.val ≠ v.val := fun h => hn (Fin.ext h)
    omega
  have hv64 := v.isLt
  refine ⟨⟨by rw [hset]; exact h.presentFour, ?_, ?_, ?_, ?_, ?_, ?_, ?_, ?_, ?_⟩, fun i => ?_⟩
  · simp only [hp, hf]; exact h.framesDistinct
  · simp only [hp, hf, Mmu.tlbEntry_swapOut]; exact h.tlbAgrees
  · simp only [Mmu.tlbEntry_swapOut]; exact h.tlbFrames
  · simp only [Mmu.tlbEntry_swapOut]; exact h.tlbTags
  · intro n; rw [Mmu.pte_swapOut]; split
    · rw [‹n = v›]; exact h.swapSlots v
    · exact h.swapSlots n
  · intro n hn
    have hne : n ≠ v := by rintro rfl; rw [hp] at hn; simp_all
    rw [Mmu.pte_swapOut, if_neg hne] at hn ⊢
    exact h.absentClear n hn
  · intro n hn hd o ho
    rw [hp] at hn
    rw [hf, hr, Mmu.swapOut_phys]
    by_cases hnv : n = v
    · subst hnv
      rw [if_pos (by omega)]
      congr 2
      omega
    · rw [if_neg (hslot hnv ho)]
      rw [Mmu.pte_swapOut, if_neg hnv] at hd
      exact h.cleanEqual n hn hd o ho
  · rw [Mmu.swapOut_phys]; exact h.physWf
  · rw [Mmu.swapOut_swap, h.swapOff_toNat]; exact Memory.copy_wf h.physWf h.swapWf (by omega)
  · by_cases hn : (m.pte (vpn i)).present = true
    · rw [Mmu.value_of_present hn, Mmu.value_of_present (by rw [hp]; exact hn), hf, Mmu.swapOut_phys]
    · have hn : (m.pte (vpn i)).present = false := by simpa using hn
      have hne : vpn i ≠ v := by rintro rfl; simp_all
      rw [Mmu.value_of_absent hn, Mmu.value_of_absent (by rw [hp]; exact hn), hr, if_neg (hslot hne (offset_lt i))]

theorem Mmu.pte_swapIn (m : Mmu) {n v : Fin 64} (f : Fin 4) (hne : n ≠ v) (k : Fin 64) :
    (m.swapIn n v f).pte k =
      if k = n then { m.pte n with present := true, frame := f }
      else if k = v then { m.pte v with present := false }
      else m.pte k := by
  rw [Mmu.swapIn, Mmu.pte_tlbInsert, Mmu.remap, Mmu.pte_setPte, Mmu.pte_setPte_ne _ _ hne, Mmu.pte_setPte]
  rfl

theorem Mmu.tlbEntry_swapIn (m : Mmu) (n v : Fin 64) (f : Fin 4) (k : Fin 32) :
    (m.swapIn n v f).tlbEntry k =
      if k = m.tlbHead then { tag := pageTag n, frame := f, valid := true }
      else if (m.tlbEntry k).valid = true ∧ (m.tlbEntry k).frame = f then { m.tlbEntry k with valid := false }
      else m.tlbEntry k := by
  rw [Mmu.swapIn, Mmu.tlbEntry_tlbInsert]
  rfl

/-- SwapIn of an absent page over a clean present victim whose accessed bit is clear keeps the invariants and the
architectural memory (R65, R38). -/
theorem Mmu.Inv.swapIn {m : Mmu} (h : m.Inv) {n v : Fin 64} (hn : (m.pte n).present = false)
    (hv : (m.pte v).present = true) (hd : (m.pte v).dirty = false) (ha : (m.pte v).accessed = false) :
    (m.swapIn n v (m.pte v).frame).Inv ∧ ∀ i, (m.swapIn n v (m.pte v).frame).value i = m.value i := by
  have hne : n ≠ v := by rintro rfl; simp_all
  have hn64 := n.isLt
  generalize hf : (m.pte v).frame = f
  have hpte := m.pte_swapIn f hne
  have htlb := m.tlbEntry_swapIn n v f
  have hother : ∀ k, k ≠ v → (m.pte k).present = true → (m.pte k).frame ≠ f := fun k hk hp hkf =>
    hk (h.framesDistinct k v hp hv (by rw [hkf, hf]))
  have hr : ∀ a, Memory.read (m.swapIn n v f).phys a =
      if f.val * 1024 ≤ a ∧ a < f.val * 1024 + 1024 then Memory.read m.swap (n.val * 1024 + (a - f.val * 1024))
      else Memory.read m.phys a := fun a => by
    have := f.isLt
    rw [Mmu.swapIn_phys, h.swapOff_toNat, Memory.read_copy h.swapWf h.physWf (by simp only [frameWord]; omega)]
    simp only [frameWord, Nat.zero_add, Nat.add_comm]
  have hframe : ∀ {g : Fin 4} {o : Nat}, g ≠ f → o < 1024 →
      ¬(f.val * 1024 ≤ frameWord g o ∧ frameWord g o < f.val * 1024 + 1024) := by
    intro g o hg ho
    have : g.val ≠ f.val := fun h => hg (Fin.ext h)
    simp only [frameWord]
    omega
  have hin : ∀ {o : Nat}, o < 1024 → Memory.read (m.swapIn n v f).phys (frameWord f o) =
      Memory.read m.swap (n.val * 1024 + o) := fun {o} ho => by
    rw [hr, if_pos (by simp only [frameWord]; omega)]
    congr 2
    simp only [frameWord]; omega
  refine ⟨⟨?_, ?_, ?_, ?_, ?_, ?_, ?_, ?_, ?_, ?_⟩, fun i => ?_⟩
  · have hset : (m.swapIn n v f).presentPages = insert n (m.presentPages.erase v) := by
      ext k
      simp only [Finset.mem_insert, Finset.mem_erase, Mmu.mem_presentPages, hpte]
      split
      · simp [*]
      · split <;> simp [*, hne.symm]
    rw [hset, Finset.card_insert_of_notMem, Finset.card_erase_of_mem, h.presentFour]
    · exact Mmu.mem_presentPages.2 hv
    · simp [Mmu.mem_presentPages, hn]
  · intro a b ha' hb he
    have := h.framesDistinct a b
    rw [hpte] at ha' hb he
    rw [hpte] at he
    grind
  · intro k hk
    rw [htlb] at hk ⊢
    split at hk
    · simp [*]
    · rename_i hkh
      simp only [hkh, if_false] at hk ⊢
      split at hk
      · simp at hk
      · rename_i hkf
        simp only [hkf, if_false]
        obtain ⟨h1, h2, h3⟩ := h.tlbAgrees k hk
        have hkn : vpn (m.tlbEntry k).tag ≠ n := by intro he; rw [he, hn] at h1; simp at h1
        have hkv : vpn (m.tlbEntry k).tag ≠ v := by intro he; rw [he, hf] at h2; exact hkf ⟨hk, h2.symm⟩
        rw [hpte, if_neg hkn, if_neg hkv]
        exact ⟨h1, h2, h3⟩
  · intro k l hk hl he
    have hF := h.tlbFrames
    rw [htlb] at hk hl he
    rw [htlb] at he
    grind
  · intro k l hk hl he
    have hT := h.tlbTags k l
    have hno : ∀ k, (m.tlbEntry k).valid = true → (m.tlbEntry k).tag ≠ pageTag n := fun k hk ht => by
      have := (h.tlbAgrees k hk).1
      rw [ht, vpn_pageTag, hn] at this
      simp at this
    have hnk := hno k
    have hnl := hno l
    rw [htlb] at hk hl he
    rw [htlb] at he
    grind
  · intro k
    have := h.swapSlots k
    rw [hpte]
    grind
  · intro k hk
    have := h.absentClear k
    rw [hpte] at hk ⊢
    grind
  · intro k hk hkd o ho
    rw [Mmu.swapIn_swap]
    rw [hpte] at hk hkd ⊢
    by_cases hkn : k = n
    · simp only [hkn, if_true]
      exact hin ho
    · by_cases hkv : k = v
      · simp [hkv, hne.symm] at hk
      · simp only [hkn, hkv, if_false] at hk hkd ⊢
        rw [hr, if_neg (hframe (hother k hkv hk) ho)]
        exact h.cleanEqual k hk hkd o ho
  · rw [Mmu.swapIn_phys, h.swapOff_toNat]
    have := f.isLt
    exact Memory.copy_wf h.swapWf h.physWf (by simp only [frameWord]; omega)
  · rw [Mmu.swapIn_swap]; exact h.swapWf
  · by_cases hin' : vpn i = n
    · rw [Mmu.value_of_present (by rw [hpte, if_pos hin']), Mmu.value_of_absent (by rw [hin']; exact hn), hpte,
        if_pos hin', hin (offset_lt i), hin']
    · by_cases hiv : vpn i = v
      · rw [Mmu.value_of_absent (by rw [hpte, if_neg hin', if_pos hiv]), Mmu.value_of_present (by rw [hiv]; exact hv),
          Mmu.swapIn_swap, hiv, hf, ← h.cleanEqual v hv hd _ (offset_lt i), hf]
      · have hpe : (m.swapIn n v f).pte (vpn i) = m.pte (vpn i) := by rw [hpte, if_neg hin', if_neg hiv]
        by_cases hp : (m.pte (vpn i)).present = true
        · rw [Mmu.value_of_present hp, Mmu.value_of_present (by rw [hpe]; exact hp), hpe, hr,
            if_neg (hframe (hother _ hiv hp) (offset_lt i))]
        · have hp : (m.pte (vpn i)).present = false := by simpa using hp
          rw [Mmu.value_of_absent hp, Mmu.value_of_absent (by rw [hpe]; exact hp), Mmu.swapIn_swap]

/-- PageFault(n) on an engine that meets the invariants, page n absent (R60, R63): it completes, keeps the invariants and
the architectural memory, makes page n present with clear bits, and appends n to the fault log. -/
theorem Mmu.Inv.pageFault {m : Mmu} (h : m.Inv) {n : Fin 64} (hn : (m.pte n).present = false) :
    ∃ m', m.pageFault n = some m' ∧ m'.Inv ∧ (∀ i, m'.value i = m.value i) ∧ (m'.pte n).present = true ∧
      m'.faultLog = m.faultLog ++ [n] := by
  obtain ⟨v, m1, hsel, hinv1, hv, ha, -, hpt, hphys, hswap, -, -, hlog⟩ := (h.logFault n).secondChance
  simp only [Mmu.pte_logFault] at hv hpt
  have hv1 : (m1.pte v).present = true := by rcases hpt v with h' | ⟨-, h'⟩ <;> rw [h'] <;> exact hv
  have hn1 : (m1.pte n).present = false := by rcases hpt n with h' | ⟨-, h'⟩ <;> rw [h'] <;> exact hn
  have hval1 : ∀ i, m1.value i = m.value i := fun i =>
    Mmu.value_congr (m := m1) (m' := m) (fun k => by rcases hpt k with h' | ⟨-, h'⟩ <;> rw [h'])
      (fun k _ => by rcases hpt k with h' | ⟨-, h'⟩ <;> rw [h']) hphys hswap i
  have hne : n ≠ v := by rintro rfl; simp_all
  rw [Mmu.pageFault, hsel]
  by_cases hd : (m1.pte v).dirty = true
  · simp only [hd, if_true, Option.some.injEq, exists_eq_left']
    obtain ⟨hinv2, hval2⟩ := hinv1.swapOut hv1
    have hpv : (m1.swapOut v (m1.pte v).frame).pte v = { m1.pte v with dirty := false } := by
      rw [Mmu.pte_swapOut, if_pos rfl]
    have hpn : (m1.swapOut v (m1.pte v).frame).pte n = m1.pte n := by rw [Mmu.pte_swapOut, if_neg hne]
    have := hinv2.swapIn (n := n) (v := v) (by rw [hpn]; exact hn1) (by rw [hpv]; exact hv1) (by rw [hpv])
      (by rw [hpv]; exact ha)
    rw [hpv] at this
    refine ⟨this.1, fun i => by rw [this.2, hval2, hval1], by rw [Mmu.pte_swapIn _ _ hne, if_pos rfl], ?_⟩
    rw [Mmu.swapIn_faultLog, Mmu.swapOut_faultLog, hlog, Mmu.logFault_faultLog]
  · have hd : (m1.pte v).dirty = false := by simpa using hd
    simp only [hd, Bool.false_eq_true, if_false, Option.some.injEq, exists_eq_left']
    have := hinv1.swapIn hn1 hv1 hd ha
    refine ⟨this.1, fun i => by rw [this.2, hval1], by rw [Mmu.pte_swapIn _ _ hne, if_pos rfl], ?_⟩
    rw [Mmu.swapIn_faultLog, hlog, Mmu.logFault_faultLog]

/-! ## Translation (R55 to R57, R66, R68) -/

theorem Mmu.pte_markAccessed (m : Mmu) (n k : Fin 64) :
    (m.markAccessed n).pte k = if k = n then { m.pte k with accessed := true } else m.pte k := by
  rw [Mmu.markAccessed, Mmu.pte_setPte]
  split
  · rw [‹k = n›]
  · rfl

@[simp] theorem Mmu.present_markAccessed (m : Mmu) (n k : Fin 64) :
    ((m.markAccessed n).pte k).present = (m.pte k).present := by
  rw [Mmu.pte_markAccessed]; split <;> rfl

@[simp] theorem Mmu.frame_markAccessed (m : Mmu) (n k : Fin 64) :
    ((m.markAccessed n).pte k).frame = (m.pte k).frame := by
  rw [Mmu.pte_markAccessed]; split <;> rfl

@[simp] theorem Mmu.value_markAccessed (m : Mmu) (n : Fin 64) (i : VIndex) :
    (m.markAccessed n).value i = m.value i :=
  Mmu.value_congr (m := m.markAccessed n) (m' := m) (by simp) (by simp) rfl rfl i

/-- Steps 1 and 2 on a present page (R56, R57): hit or walk, the frame of its PTE, with its accessed bit set; nothing
else changes but the TLB. -/
theorem Mmu.Inv.lookup_present {m : Mmu} (h : m.Inv) {i : VIndex} (hp : (m.pte (vpn i)).present = true) :
    ∃ m', m.lookup i = some (frameWord (m.pte (vpn i)).frame (offset i), m') ∧ m'.Inv ∧
      m'.pt = (m.markAccessed (vpn i)).pt ∧ m'.phys = m.phys ∧ m'.swap = m.swap ∧ m'.scCursor = m.scCursor ∧
      m'.faultLog = m.faultLog := by
  rw [Mmu.lookup]
  cases hk : m.probe (pageStart i) with
  | some k =>
    obtain ⟨hval, htag⟩ := Mmu.probe_eq_some hk
    have := (h.tlbAgrees k hval).2.1
    rw [htag, vpn_pageStart] at this
    exact ⟨m.markAccessed (vpn i), by rw [this], h.markAccessed hp, rfl, rfl, rfl, rfl, rfl⟩
  | none =>
    simp only [hp, if_true, Option.some.injEq, Prod.mk.injEq, true_and, exists_eq_left', pageStart_eq_pageTag]
    have hpte : (m.markAccessed (vpn i)).pte (vpn i) = { m.pte (vpn i) with accessed := true } :=
      Mmu.pte_setPte_self _ _ _
    have := (h.markAccessed hp).tlbInsert (n := vpn i) (by rw [hpte]; exact hp)
    rw [hpte] at this
    exact ⟨this, by rw [Mmu.tlbInsert_pt], by rw [Mmu.tlbInsert_phys, Mmu.markAccessed_phys],
      by rw [Mmu.tlbInsert_swap, Mmu.markAccessed_swap], by rw [Mmu.tlbInsert_scCursor, Mmu.markAccessed_scCursor],
      by rw [Mmu.tlbInsert_faultLog, Mmu.markAccessed_faultLog]⟩

/-- Steps 1 and 2 give nothing for an absent page: by I3 no TLB entry names it. -/
theorem Mmu.Inv.lookup_absent {m : Mmu} (h : m.Inv) {i : VIndex} (hp : (m.pte (vpn i)).present = false) :
    m.lookup i = none := by
  have hmiss : m.probe (pageStart i) = none := Mmu.probe_eq_none.2 fun k hk ht => by
    have := (h.tlbAgrees k hk).1
    rw [ht, vpn_pageStart, hp] at this
    simp at this
  simp only [Mmu.lookup, hmiss, hp, Bool.false_eq_true, if_false]

/-- Translate(i) on an engine that meets the invariants (R68): it completes on the frame that then holds the page,
keeps the invariants and the architectural memory, leaves the page present, accessed and otherwise as the walk found
it, and logs one fault exactly if the page was absent. -/
theorem Mmu.Inv.translate {m : Mmu} (h : m.Inv) (i : VIndex) :
    ∃ m', m.translate i = some (frameWord (m'.pte (vpn i)).frame (offset i), m') ∧ m'.Inv ∧
      (∀ j, m'.value j = m.value j) ∧ (m'.pte (vpn i)).present = true ∧ (m'.pte (vpn i)).accessed = true ∧
      m'.faultLog = m.faultLog ++ (if (m.pte (vpn i)).present then [] else [vpn i]) := by
  have key : ∀ {m : Mmu}, m.Inv → (m.pte (vpn i)).present = true →
      ∃ m', m.lookup i = some (frameWord (m'.pte (vpn i)).frame (offset i), m') ∧ m'.Inv ∧
        (∀ j, m'.value j = m.value j) ∧ (m'.pte (vpn i)).present = true ∧ (m'.pte (vpn i)).accessed = true ∧
        m'.faultLog = m.faultLog := fun {m} h hp => by
    obtain ⟨m', hl, hinv, hpt, hphys, hswap, -, hlog⟩ := h.lookup_present hp
    have hpte : ∀ n, m'.pte n = (m.markAccessed (vpn i)).pte n := fun n => by simp only [Mmu.pte, hpt]
    have hself : m'.pte (vpn i) = { m.pte (vpn i) with accessed := true } := by
      rw [hpte]; exact Mmu.pte_setPte_self _ _ _
    refine ⟨m', by rw [hl, hself], hinv, fun j => ?_, by rw [hself]; exact hp, by rw [hself], hlog⟩
    exact Mmu.value_congr (m := m') (m' := m) (fun n => by rw [hpte, Mmu.present_markAccessed])
      (fun n _ => by rw [hpte, Mmu.frame_markAccessed]) hphys hswap j
  by_cases hp : (m.pte (vpn i)).present = true
  · obtain ⟨m', hl, hrest⟩ := key h hp
    exact ⟨m', by simp only [Mmu.translate, hl], by simpa [hp] using hrest⟩
  · have hp : (m.pte (vpn i)).present = false := by simpa using hp
    obtain ⟨m1, hf, hinv1, hval1, hp1, hlog1⟩ := h.pageFault hp
    obtain ⟨m', hl, hinv, hval, hpres, hacc, hlog⟩ := key hinv1 hp1
    exact ⟨m', by simp only [Mmu.translate, h.lookup_absent hp, hf, hl], hinv,
      fun j => by rw [hval, hval1], hpres, hacc, by rw [hlog, hlog1, hp]; simp⟩

/-! ## The contract (R53, R70, R71) -/

/-- An index out of range: AddressError, and nothing has changed (R53). -/
theorem Mmu.read_out_of_range (m : Mmu) {i : Int} (h : i < 0 ∨ 65536 ≤ i) : m.read i = .error (.address i) := by
  simp only [Mmu.read, checkIndex_eq_none.2 h]

theorem Mmu.write_out_of_range (m : Mmu) {i : Int} (v : F64) (h : i < 0 ∨ 65536 ≤ i) :
    m.write i v = .error (.address i) := by
  simp only [Mmu.write, checkIndex_eq_none.2 h]

/-- MMU.read(i) of an index in range (R70, R38): it returns V(i), keeps the invariants and V, and logs a fault exactly
if the page was absent. -/
theorem Mmu.Inv.read {m : Mmu} (h : m.Inv) {i : Int} {j : VIndex} (hi : checkIndex i = some j) :
    ∃ m', m.read i = .ok (m.value j, m') ∧ m'.Inv ∧ (∀ k, m'.value k = m.value k) ∧
      m'.faultLog = m.faultLog ++ (if (m.pte (vpn j)).present then [] else [vpn j]) := by
  obtain ⟨m', ht, hinv, hval, hp, -, hlog⟩ := h.translate j
  refine ⟨m', ?_, hinv, hval, hlog⟩
  simp only [Mmu.read, hi, ht]
  rw [← hval j, Mmu.value_of_present hp]

/-- Marking a present page dirty and writing a word of it keeps the invariants, and changes V at its index alone. -/
theorem Mmu.Inv.store {m : Mmu} (h : m.Inv) {i : VIndex} (hp : (m.pte (vpn i)).present = true) (v : F64) :
    let m' := { m.markDirty (vpn i) with
      phys := Memory.write (m.markDirty (vpn i)).phys (frameWord (m.pte (vpn i)).frame (offset i)) v }
    m'.Inv ∧ ∀ j, m'.value j = if j = i then v else m.value j := by
  intro m'
  have hpte : ∀ n, m'.pte n = if n = vpn i then { m.pte n with dirty := true } else m.pte n := fun n => by
    change (m.setPte (vpn i) _).pte n = _
    rw [Mmu.pte_setPte]
    split
    · rw [‹n = vpn i›]
    · rfl
  have hpres : ∀ n, (m'.pte n).present = (m.pte n).present := fun n => by rw [hpte]; split <;> rfl
  have hfr : ∀ n, (m'.pte n).frame = (m.pte n).frame := fun n => by rw [hpte]; split <;> rfl
  have hset : m'.presentPages = m.presentPages := by ext n; simp only [Mmu.mem_presentPages, hpres]
  have hlt := frameWord_lt (f := (m.pte (vpn i)).frame) (offset_lt i)
  have hr : ∀ a, Memory.read m'.phys a =
      if a = frameWord (m.pte (vpn i)).frame (offset i) then v else Memory.read m.phys a :=
    fun a => Memory.read_write v h.physWf hlt a
  have hframe : ∀ {n : Fin 64} {o : Nat}, (m.pte n).present = true → o < 1024 →
      (frameWord (m.pte n).frame o = frameWord (m.pte (vpn i)).frame (offset i) ↔ n = vpn i ∧ o = offset i) :=
    fun {n o} hn ho => by
      rw [frameWord_inj ho (offset_lt i)]
      exact and_congr_left fun _ => ⟨fun he => h.framesDistinct n _ hn hp he, fun he => by rw [he]⟩
  refine ⟨⟨by rw [hset]; exact h.presentFour, by simp only [hpres, hfr]; exact h.framesDistinct,
    by simp only [hpres, hfr]; exact h.tlbAgrees, h.tlbFrames, h.tlbTags, ?_, ?_, ?_,
    Memory.write_wf v h.physWf hlt, h.swapWf⟩, fun j => ?_⟩
  · intro n; rw [hpte]; split <;> exact h.swapSlots n
  · intro n hn
    rw [hpres] at hn
    have hne : n ≠ vpn i := by rintro rfl; simp_all
    rw [hpte, if_neg hne]
    exact h.absentClear n hn
  · intro n hn hd o ho
    rw [hpte] at hd
    rw [hpres] at hn
    split at hd
    · simp at hd
    · rw [hfr, hr, if_neg (by rw [hframe hn ho]; tauto)]
      exact h.cleanEqual n hn hd o ho
  · by_cases hj : (m.pte (vpn j)).present = true
    · rw [Mmu.value_of_present (by rw [hpres]; exact hj), hfr, hr, Mmu.value_of_present hj]
      by_cases hji : j = i
      · subst hji; simp
      · rw [if_neg hji, if_neg]
        rw [hframe hj (offset_lt j)]
        exact fun ⟨h1, h2⟩ => hji (index_ext h1 h2)
    · have hj : (m.pte (vpn j)).present = false := by simpa using hj
      have hji : j ≠ i := by rintro rfl; simp_all
      rw [Mmu.value_of_absent (by rw [hpres]; exact hj), Mmu.value_of_absent hj, if_neg hji]
      rfl

/-- MMU.write(i, v) of an index in range (R71, R38): it completes, keeps the invariants, makes V(i) = v, leaves every
other V(k), marks the page dirty, and logs a fault exactly if the page was absent. -/
theorem Mmu.Inv.write {m : Mmu} (h : m.Inv) {i : Int} {j : VIndex} (v : F64) (hi : checkIndex i = some j) :
    ∃ m', m.write i v = .ok m' ∧ m'.Inv ∧ (∀ k, m'.value k = if k = j then v else m.value k) ∧
      (m'.pte (vpn j)).dirty = true ∧
      m'.faultLog = m.faultLog ++ (if (m.pte (vpn j)).present then [] else [vpn j]) := by
  obtain ⟨m1, ht, hinv, hval, hp, -, hlog⟩ := h.translate j
  have hstore := hinv.store hp v
  simp only at hstore
  refine ⟨_, by simp only [Mmu.write, hi, ht], hstore.1, fun k => by rw [hstore.2, hval], ?_, hlog⟩
  change ((m1.setPte (vpn j) _).pte (vpn j)).dirty = true
  rw [Mmu.pte_setPte_self]

/-! ## What one access changes (R56, R57, R66, R71) -/

/-- Steps 1 and 2 on a present page are a read access of it (R56, R57). -/
theorem Mmu.Inv.lookup_touched {m m' : Mmu} (h : m.Inv) {i : VIndex} {a : Nat}
    (hp : (m.pte (vpn i)).present = true) (hl : m.lookup i = some (a, m')) : m.Touched m' i none := by
  have hpage : ∀ n, (m.markAccessed (vpn i)).pte n =
      if n = vpn i then { m.pte n with accessed := true } else m.pte n := Mmu.pte_markAccessed m _
  rw [Mmu.lookup] at hl
  cases hk : m.probe (pageStart i) with
  | some k =>
    simp only [hk, Option.some.injEq, Prod.mk.injEq] at hl
    obtain ⟨-, rfl⟩ := hl
    have hv := Mmu.probe_eq_some hk
    exact ⟨by rw [hpage, if_pos rfl]; simp, fun n hn => by rw [hpage, if_neg hn], fun _ => ⟨rfl, rfl⟩,
      fun hm => absurd hv.2 (hm k hv.1), rfl, rfl, rfl, fun v hv => by simp at hv, fun _ => rfl⟩
  | none =>
    simp only [hk, hp, if_true, Option.some.injEq, Prod.mk.injEq] at hl
    obtain ⟨-, rfl⟩ := hl
    have hmiss := Mmu.probe_eq_none.1 hk
    refine ⟨by rw [Mmu.pte_tlbInsert, hpage, if_pos rfl]; simp,
      fun n hn => by rw [Mmu.pte_tlbInsert, hpage, if_neg hn], fun ⟨k, hv, ht⟩ => absurd ht (hmiss k hv),
      fun _ => ⟨?_, fun k hk => ?_, by rw [Mmu.tlbInsert_tlbHead]; rfl⟩, rfl, rfl, rfl,
      fun v hv => by simp at hv, fun _ => rfl⟩
    · exact (Mmu.tlbEntry_tlbInsert _ _ _ _).trans (by simp [Mmu.markAccessed_tlbHead])
    · rw [Mmu.tlbEntry_tlbInsert, Mmu.markAccessed_tlbHead, if_neg hk]
      have hent : (m.markAccessed (vpn i)).tlbEntry k = m.tlbEntry k := rfl
      rw [hent]
      refine if_neg fun ⟨hv, hf⟩ => hmiss k hv ?_
      obtain ⟨hpk, hfk, htag⟩ := h.tlbAgrees k hv
      rw [htag, h.framesDistinct _ _ hpk hp (hfk.trans hf), pageStart_eq_pageTag]

/-- Translate(i) on an engine that meets the invariants is a read access of i (R66, R68). -/
theorem Mmu.Inv.translate_accessed {m m' : Mmu} (h : m.Inv) {i : VIndex} {a : Nat}
    (ht : m.translate i = some (a, m')) : m.Accessed m' i none := by
  rw [Mmu.Accessed]
  split
  next hp =>
    obtain ⟨m1, hl, -⟩ := h.lookup_present hp
    simp only [Mmu.translate, hl, Option.some.injEq, Prod.mk.injEq] at ht
    exact h.lookup_touched hp (ht.2 ▸ hl)
  next hp =>
    have hp : (m.pte (vpn i)).present = false := by simpa using hp
    obtain ⟨m1, hf, hinv1, -, hp1, -⟩ := h.pageFault hp
    simp only [Mmu.translate, h.lookup_absent hp, hf] at ht
    exact ⟨m1, hf, hinv1.lookup_touched hp1 ht⟩

/-- MMU.read(i) of an index in range is a read access of it (R70). -/
theorem Mmu.Inv.read_accessed {m m' : Mmu} (h : m.Inv) {i : Int} {j : VIndex} {x : F64} (hi : checkIndex i = some j)
    (hr : m.read i = .ok (x, m')) : m.Accessed m' j none := by
  obtain ⟨m1, ht, -⟩ := h.translate j
  simp only [Mmu.read, hi, ht, Except.ok.injEq, Prod.mk.injEq] at hr
  exact h.translate_accessed (hr.2 ▸ ht)

/-- What the dirty bit and the store add to a read access that left the page in its frame. -/
theorem Mmu.Touched.store {m m' : Mmu} {i : VIndex} (h : m.Touched m' i none) (hw : Memory.Wf 4096 m'.phys)
    (v : F64) :
    m.Touched { m'.markDirty (vpn i) with
      phys := Memory.write (m'.markDirty (vpn i)).phys (frameWord (m'.pte (vpn i)).frame (offset i)) v } i (some v) := by
  have hpage : ∀ n, ({ m'.markDirty (vpn i) with
      phys := Memory.write (m'.markDirty (vpn i)).phys (frameWord (m'.pte (vpn i)).frame (offset i)) v } : Mmu).pte n =
      if n = vpn i then { m'.pte n with dirty := true } else m'.pte n := fun n => by
    change (m'.setPte _ _).pte n = _
    rw [Mmu.pte_setPte]
    split
    next hn => rw [hn]
    next => rfl
  refine ⟨by rw [hpage, if_pos rfl, h.page]; simp, fun n hn => by rw [hpage, if_neg hn, h.otherPages n hn],
    h.hit, h.walk, h.cursor, h.swap, h.faultLog, ?_, fun hn => by simp at hn⟩
  intro w hvw a
  obtain rfl : v = w := by simpa using hvw
  have hf : (m'.pte (vpn i)).frame = (m.pte (vpn i)).frame := by rw [h.page]
  rw [← h.reads rfl, ← hf]
  exact Memory.read_write v hw (frameWord_lt (offset_lt i)) a

/-- MMU.write(i, v) of an index in range is a write access of it (R71). -/
theorem Mmu.Inv.write_accessed {m m' : Mmu} (h : m.Inv) {i : Int} {j : VIndex} {v : F64} (hi : checkIndex i = some j)
    (hw : m.write i v = .ok m') : m.Accessed m' j (some v) := by
  obtain ⟨m1, ht, hinv, -⟩ := h.translate j
  simp only [Mmu.write, hi, ht, Except.ok.injEq] at hw
  have ha := h.translate_accessed ht
  rw [Mmu.Accessed] at ha ⊢
  split at ha
  next hp => rw [if_pos hp, ← hw]; exact ha.store hinv.physWf v
  next hp => rw [if_neg hp, ← hw]; obtain ⟨m2, hf, ht⟩ := ha; exact ⟨m2, hf, ht.store hinv.physWf v⟩

/-- The engine meets the invariants at reset (R40). -/
theorem Mmu.inv_reset : Mmu.reset.Inv := by
  have hpte : ∀ n, Mmu.reset.pte n = Pte.reset n := fun n => by
    simp [Mmu.reset, Mmu.pte]
  have hinvalid : ∀ k, (Mmu.reset.tlbEntry k).valid = false := fun k => by
    simp [Mmu.reset, Mmu.tlbEntry]
  refine ⟨?_, ?_, by simp [hinvalid], by simp [hinvalid], by simp [hinvalid], ?_, ?_, ?_, Memory.wf_nil _,
    Memory.wf_nil _⟩
  · simp only [Mmu.presentPages, hpte]; decide +kernel
  · simp only [hpte, Pte.reset, decide_eq_true_eq]
    intro a b ha hb he
    simp only [ha, hb, dif_pos, Fin.mk.injEq] at he
    exact Fin.ext he
  · intro n; rw [hpte]; rfl
  · intro n hn; rw [hpte]; exact ⟨rfl, rfl⟩
  · intro n _ _ o _
    simp only [Mmu.reset, Memory.read_nil]

end Sys2Proof.Machine
end

