-- ==== Sys2Proof/Laws/Ops.lean ====
section
/-! SUPPORT. The laws of the shared operations on a processor and on the state (Machine/Ops.lean): the end of a step, the
memory accesses, and the step that one processor takes alone. -/

namespace Sys2Proof.Machine

open Sys2Proof

@[simp] theorem Proc.finish_acc (p : Proc) : p.finish.acc = p.acc := by
  simp only [Proc.finish, Proc.guardPc]; split <;> (try split) <;> rfl
@[simp] theorem Proc.finish_prog (p : Proc) : p.finish.prog = p.prog := by
  simp only [Proc.finish, Proc.guardPc]; split <;> (try split) <;> rfl
@[simp] theorem Proc.finish_progLen (p : Proc) : p.finish.progLen = p.progLen := by
  simp only [Proc.finish, Proc.guardPc]; split <;> (try split) <;> rfl
@[simp] theorem Proc.finish_mmu (p : Proc) : p.finish.mmu = p.mmu := by
  simp only [Proc.finish, Proc.guardPc]; split <;> (try split) <;> rfl
@[simp] theorem Proc.finish_dumpOut (p : Proc) : p.finish.dumpOut = p.dumpOut := by
  simp only [Proc.finish, Proc.guardPc]; split <;> (try split) <;> rfl
@[simp] theorem Proc.finish_portHist (p : Proc) : p.finish.portHist = p.portHist := by
  simp only [Proc.finish, Proc.guardPc]; split <;> (try split) <;> rfl
@[simp] theorem Proc.finish_pc (p : Proc) : p.finish.pc = p.pc + 1 := by
  simp only [Proc.finish, Proc.guardPc]; split <;> (try split) <;> rfl

/-- The end of a step is what R133 to R135 say. -/
theorem Proc.endsAt_finish (p : Proc) : p.EndsAt p.finish (p.pc + 1) := by
  have hcases : p.finish = (if p.state = .running ∧ 200 ≤ p.pc + 1 then (p.setPc (p.pc + 1)).setRunState .halted
      else if p.state = .running ∧ p.pc + 1 < 0 then (p.setPc (p.pc + 1)).raise (.pcOutOfRange (p.pc + 1))
      else p.setPc (p.pc + 1)) := rfl
  refine ⟨p.finish_pc, ?_, ?_⟩ <;> rw [hcases]
  · by_cases h : p.state = .running ∧ 200 ≤ p.pc + 1
    · rw [if_pos h, if_pos h]; rfl
    · rw [if_neg h, if_neg h]; split <;> rfl
  · by_cases h : p.state = .running ∧ 200 ≤ p.pc + 1
    · rw [if_pos h, if_neg (by omega)]; rfl
    · rw [if_neg h]; split <;> rfl

/-- The end of a step of a processor whose run state and fault an instruction has kept. -/
theorem Proc.endsAt_finish_of {p q : Proc} {k : Int} (hk : q.pc + 1 = k) (hs : q.state = p.state)
    (hf : q.fault = p.fault) : p.EndsAt q.finish k := by
  obtain ⟨h1, h2, h3⟩ := q.endsAt_finish
  subst hk
  exact ⟨h1, by rw [h2, hs], by rw [h3, hs, hf]⟩

/-- Raising a cause changes nothing but the fault record (R250). -/
theorem Proc.onlyFaulted_raise (p : Proc) (c : Cause) : p.OnlyFaulted (p.raise c) c := ⟨rfl, rfl⟩

/-- Replacing the processor of the turn changes nothing else. -/
theorem State.onlyCurrent_setCurrent {s : State} {p : Proc} (h : s.current = some p) (p' : Proc) :
    s.OnlyCurrent (s.setCurrent p') p' := by
  obtain ⟨hlt, -⟩ := List.getElem?_eq_some_iff.1 h
  exact ⟨by simp [State.setCurrent, hlt], fun k hk => by simp [State.setCurrent, List.getElem?_set_ne (Ne.symm hk)],
    rfl⟩

/-- A step that one processor takes alone, once its part is known. -/
theorem State.onCurrent_ok {s : State} {p p' : Proc} {f : Proc → Except Fault Proc} (h : s.current = some p)
    (hf : f p = .ok p') : s.onCurrent f = .next (s.setCurrent p') := by
  simp only [State.onCurrent, h, hf]

/-- What a step that one processor takes alone can do. -/
theorem State.onCurrent_next {s t : State} {f : Proc → Except Fault Proc} (h : s.onCurrent f = .next t) :
    ∃ p p', s.current = some p ∧ f p = .ok p' ∧ t = s.setCurrent p' := by
  simp only [State.onCurrent] at h
  split at h
  · cases h
  · split at h
    · cases h
    · cases h; exact ⟨_, _, ‹_›, ‹_›, rfl⟩

/-- An index in range as an integer. -/
theorem checkIndex_toNat (j : VIndex) : checkIndex (j.toNat : Int) = some j := by
  have := j.isLt
  rw [checkIndex_eq_some]
  exact ⟨by omega, by simp⟩

/-- The rest of an instruction after a read that completes. -/
theorem Proc.withRead_ok {p : Proc} {i : Int} {x : F64} {m : Mmu} (h : p.mmu.read i = .ok (x, m))
    (k : F64 → Proc → Except Fault Proc) : p.withRead i k = k x (p.setMmu m) := by
  rw [Proc.withRead, h]

/-- The rest of an instruction after a write that completes. -/
theorem Proc.withWrite_ok {p : Proc} {i : Int} {v : F64} {m : Mmu} (h : p.mmu.write i v = .ok m)
    (k : Proc → Except Fault Proc) : p.withWrite i v k = k (p.setMmu m) := by
  rw [Proc.withWrite, h]

/-- A read of an index in range, inside an instruction. -/
theorem Proc.withRead_in_range {p : Proc} (h : p.mmu.Inv) {i : Int} {j : VIndex} (hi : i = (j.toNat : Int))
    (k : F64 → Proc → Except Fault Proc) :
    ∃ m, p.mmu.read i = .ok (p.mmu.value j, m) ∧ m.Inv ∧ (∀ a, m.value a = p.mmu.value a) ∧
      p.withRead i k = k (p.mmu.value j) (p.setMmu m) := by
  subst hi
  obtain ⟨m, hr, hinv, hval, -⟩ := h.read (checkIndex_toNat j)
  exact ⟨m, hr, hinv, hval, Proc.withRead_ok hr k⟩

/-- A read of an index out of range ends the instruction with AddressError and nothing else. -/
theorem Proc.withRead_out_of_range (p : Proc) {i : Int} (h : i < 0 ∨ 65536 ≤ i)
    (k : F64 → Proc → Except Fault Proc) :
    p.withRead i k = .ok (p.raise (.addressError (.index i))) := by
  simp only [Proc.withRead, Mmu.read_out_of_range _ h]

/-- A write to an index in range, inside an instruction. -/
theorem Proc.withWrite_in_range {p : Proc} (h : p.mmu.Inv) {i : Int} {j : VIndex} (hi : i = (j.toNat : Int)) (v : F64)
    (k : Proc → Except Fault Proc) :
    ∃ m, p.mmu.write i v = .ok m ∧ m.Inv ∧ (∀ a, m.value a = if a = j then v else p.mmu.value a) ∧
      (m.pte (vpn j)).dirty = true ∧ p.withWrite i v k = k (p.setMmu m) := by
  subst hi
  obtain ⟨m, hr, hinv, hval, hd, -⟩ := h.write v (checkIndex_toNat j)
  exact ⟨m, hr, hinv, hval, hd, Proc.withWrite_ok hr k⟩

/-- A write to an index out of range ends the instruction with AddressError and nothing else. -/
theorem Proc.withWrite_out_of_range (p : Proc) {i : Int} (h : i < 0 ∨ 65536 ≤ i) (v : F64)
    (k : Proc → Except Fault Proc) :
    p.withWrite i v k = .ok (p.raise (.addressError (.index i))) := by
  simp only [Proc.withWrite, Mmu.write_out_of_range _ v h]

end Sys2Proof.Machine
end

