-- ==== Sys2Proof/Laws/PerInstr.lean ====
section
/-! SUPPORT. Per instruction: where its word carries its fields (R100, R104). -/

namespace Sys2Proof

/-- The fields of a packed word are the ones it was packed from (R100). -/
theorem fields_packWord (op : BitVec 8) (i : BitVec 32) (f : F64) :
    opField (packWord op i f) = op ∧ immIField (packWord op i f) = i ∧ immFField (packWord op i f) = f ∧
      rsvField (packWord op i f) = 0#24 := by
  simp only [opField, immIField, immFField, rsvField, packWord]
  refine ⟨?_, ?_, ?_, ?_⟩ <;>
    (apply BitVec.eq_of_getLsbD_eq
     intro k hk
     simp only [BitVec.getLsbD_extractLsb', BitVec.getLsbD_append, hk, decide_true, Bool.true_and]
     grind)

end Sys2Proof

namespace Sys2Proof.Laws.EncodeShape

open Sys2Proof

/-- The word of an instruction has its opcode in OP, the operand fields it consumes in theirs, and 0 in the others and
in RSV. -/
def Statement (i : Instr) : Prop :=
  opField (encode i) = i.opcode ∧ immIField (encode i) = i.immI ∧ immFField (encode i) = i.immF ∧
    rsvField (encode i) = 0#24

theorem stop : Statement .stop := fields_packWord _ _ _
theorem start : Statement .start := fields_packWord _ _ _
theorem in_ (port : BitVec 32) : Statement (.in_ port) := fields_packWord _ _ _
theorem out (port : BitVec 32) : Statement (.out port) := fields_packWord _ _ _
theorem load (idx : BitVec 32) : Statement (.load idx) := fields_packWord _ _ _
theorem store (idx : BitVec 32) : Statement (.store idx) := fields_packWord _ _ _
theorem loadnum (lit : F64) : Statement (.loadnum lit) := fields_packWord _ _ _
theorem add (idx : BitVec 32) : Statement (.add idx) := fields_packWord _ _ _
theorem sub (idx : BitVec 32) : Statement (.sub idx) := fields_packWord _ _ _
theorem mul (idx : BitVec 32) : Statement (.mul idx) := fields_packWord _ _ _
theorem div (idx : BitVec 32) : Statement (.div idx) := fields_packWord _ _ _
theorem addnum (lit : F64) : Statement (.addnum lit) := fields_packWord _ _ _
theorem subnum (lit : F64) : Statement (.subnum lit) := fields_packWord _ _ _
theorem mulnum (lit : F64) : Statement (.mulnum lit) := fields_packWord _ _ _
theorem divnum (lit : F64) : Statement (.divnum lit) := fields_packWord _ _ _
theorem jump (target : BitVec 32) : Statement (.jump target) := fields_packWord _ _ _
theorem jumpneg (target : BitVec 32) : Statement (.jumpneg target) := fields_packWord _ _ _
theorem jumppos (target : BitVec 32) : Statement (.jumppos target) := fields_packWord _ _ _
theorem jumpnull (target : BitVec 32) : Statement (.jumpnull target) := fields_packWord _ _ _
theorem loadind (idx : BitVec 32) : Statement (.loadind idx) := fields_packWord _ _ _
theorem storeind (idx : BitVec 32) : Statement (.storeind idx) := fields_packWord _ _ _
theorem dumpreg : Statement .dumpreg := fields_packWord _ _ _
theorem dumpprog : Statement .dumpprog := fields_packWord _ _ _
theorem unrecognized (op : BitVec 8) : Statement (.unrecognized op) := fields_packWord _ _ _

end Sys2Proof.Laws.EncodeShape
end

