-- ==== Sys2Proof/Laws/Schedule.lean ====
section
/-! SUPPORT. The laws of the schedule and of the step around exec (Machine/Schedule.lean, Machine/Step.lean). -/

namespace Sys2Proof.Machine

open Sys2Proof

/-- Whose turn it is plays no part in who has a step. -/
@[simp] theorem State.enabled_setTurn (s : State) (n k : Nat) : (s.setTurn n).enabled k = s.enabled k := rfl

/-- A processor that has a step is RUNNING without a fault. -/
theorem State.ready_of_enabled {s : State} {k : Nat} (h : s.enabled k = true) :
    ∃ p, s.procs[k]? = some p ∧ p.ready = true := by
  rw [State.enabled] at h
  split at h
  · cases h
  · simp only [Bool.and_eq_true] at h
    exact ⟨_, ‹_›, h.1.1⟩

theorem Proc.ready_iff {p : Proc} : p.ready = true ↔ p.state = .running ∧ p.fault = none := by
  simp [Proc.ready]

theorem State.mem_enabledList {s : State} {k : Nat} : k ∈ s.enabledList ↔ s.enabled k = true := by
  simp only [State.enabledList, List.mem_filter, List.mem_range, and_iff_right_iff_imp]
  intro h
  obtain ⟨p, hp, -⟩ := State.ready_of_enabled h
  exact (List.getElem?_eq_some_iff.1 hp).1

/-- The schedule picks one of the processors that have a step. -/
theorem State.pick_mem {s : State} {k : Nat} (h : s.pick = some k) : s.enabled k = true := by
  rw [State.pick] at h
  rw [← State.mem_enabledList]
  split at h
  · cases h
  · cases h; simp [*]
  · rename_i a b l he
    rw [he]
    injection h with h
    subst h
    cases hf : List.find? (fun j => decide (s.turn ≤ j)) (a :: b :: l) with
    | none => simp
    | some j => exact List.mem_of_find?_eq_some hf

theorem State.pick_eq_none {s : State} : s.pick = none ↔ s.enabledList = [] := by
  rw [State.pick]
  split <;> simp [*]

/-- What a step that has a next state did: the schedule picked a processor that has a step, and exec ran the
instruction decoded at its pc. -/
theorem step_next {s t : State} (h : step s = .next t) :
    ∃ k i u, s.pick = some k ∧ s.enabled k = true ∧ (s.setTurn k).fetchDecode = some i ∧
      exec i (s.setTurn k) = .next u ∧ t = u.endStep := by
  rw [step] at h
  split at h
  · cases h
  · rename_i k hk
    split at h
    · cases h
    · rename_i i hi
      cases he : exec i (s.setTurn k) with
      | next u => rw [he] at h; cases h; exact ⟨k, i, u, hk, State.pick_mem hk, hi, he, rfl⟩
      | fault e => rw [he] at h; cases h
      | refused r => rw [he] at h; cases h

/-- An instruction decoded at the pc of the processor of the turn. -/
theorem State.fetchDecode_eq_some {s : State} {i : Instr} :
    s.fetchDecode = some i ↔ ∃ p, s.current = some p ∧ p.nextInstr = some i := by
  simp only [State.fetchDecode, Option.bind_eq_some_iff]

/-- Fetch finds a word exactly where pc names a slot. -/
theorem Proc.nextInstr_of_range {p : Proc} (h : 0 ≤ p.pc ∧ p.pc < 200) : ∃ i, p.nextInstr = some i := by
  simp only [Proc.nextInstr, Proc.fetch, dif_pos h, Option.map_some, Option.some.injEq, exists_eq']

end Sys2Proof.Machine
end

