-- ==== Sys2Proof/Laws/Step.lean ====
section
/-! SUPPORT. What a step can do, said once: every next state of exec and of step is one of five effects. -/

namespace Sys2Proof.Machine

open Sys2Proof

/-! ## The fault log of an engine in any state (R39, R63) -/

theorem Mmu.lookup_faultLog {m m' : Mmu} {i : VIndex} {a : Nat} (h : m.lookup i = some (a, m')) :
    m'.faultLog = m.faultLog := by
  rw [Mmu.lookup] at h
  split at h
  · cases h; rfl
  · split at h
    · cases h; rw [Mmu.tlbInsert_faultLog, Mmu.markAccessed_faultLog]
    · cases h

theorem Mmu.secondChance_faultLog {m m' : Mmu} {v : Fin 64} (h : m.secondChance = some (v, m')) :
    m'.faultLog = m.faultLog := by
  rw [Mmu.secondChance] at h
  split at h
  · cases h
  · cases h; rfl

theorem Mmu.pageFault_faultLog {m m' : Mmu} {n : Fin 64} (h : m.pageFault n = some m') :
    m'.faultLog = m.faultLog ++ [n] := by
  rw [Mmu.pageFault] at h
  split at h
  · cases h
  · rename_i v m₁ hs
    have h1 := Mmu.secondChance_faultLog hs
    rw [Mmu.logFault_faultLog] at h1
    simp only [Option.some.injEq] at h
    rw [← h, Mmu.swapIn_faultLog, ← h1]
    split
    · rw [Mmu.swapOut_faultLog]
    · rfl

theorem Mmu.translate_faultLog {m m' : Mmu} {i : VIndex} {a : Nat} (h : m.translate i = some (a, m')) :
    m.faultLog <+: m'.faultLog := by
  rw [Mmu.translate] at h
  split at h
  · rename_i hl
    cases h
    exact Mmu.lookup_faultLog hl ▸ List.prefix_rfl
  · split at h
    · cases h
    · rename_i m₁ hf
      rw [Mmu.lookup_faultLog h, Mmu.pageFault_faultLog hf]
      exact List.prefix_append _ _

/-- A read only appends to the fault log. -/
theorem Mmu.read_faultLog {m m' : Mmu} {i : Int} {x : F64} (h : m.read i = .ok (x, m')) :
    m.faultLog <+: m'.faultLog := by
  rw [Mmu.read] at h
  split at h
  · cases h
  · split at h
    · cases h
    · cases h; exact Mmu.translate_faultLog ‹_›

/-- A write only appends to the fault log. -/
theorem Mmu.write_faultLog {m m' : Mmu} {i : Int} {v : F64} (h : m.write i v = .ok m') :
    m.faultLog <+: m'.faultLog := by
  rw [Mmu.write] at h
  split at h
  · cases h
  · split at h
    · cases h
    · rename_i j _ a m₁ ht
      injection h with h
      rw [← h]
      change m.faultLog <+: m₁.faultLog
      exact Mmu.translate_faultLog ht

/-- Any read keeps the invariants (R37). -/
theorem Mmu.Inv.of_read {m m' : Mmu} (hm : m.Inv) {i : Int} {x : F64} (h : m.read i = .ok (x, m')) : m'.Inv := by
  cases hc : checkIndex i with
  | none => simp only [Mmu.read, hc] at h; cases h
  | some j =>
    obtain ⟨m₁, h1, hinv, -⟩ := hm.read hc
    rw [h1] at h
    cases h
    exact hinv

/-- Any write keeps the invariants (R37). -/
theorem Mmu.Inv.of_write {m m' : Mmu} (hm : m.Inv) {i : Int} {v : F64} (h : m.write i v = .ok m') : m'.Inv := by
  cases hc : checkIndex i with
  | none => simp only [Mmu.write, hc] at h; cases h
  | some j =>
    obtain ⟨m₁, h1, hinv, -⟩ := hm.write v hc
    rw [h1] at h
    cases h
    exact hinv

/-- What a dump through the MMU of at least one word is. -/
theorem Mmu.dumpNext_ok {i : Nat} {rest : Mmu → Except MmuStop (List DumpRecord × Mmu)}
    {r : Except MmuStop (F64 × Mmu)} {rs : List DumpRecord} {m' : Mmu} (h : Mmu.dumpNext i rest r = .ok (rs, m')) :
    ∃ x m rs', r = .ok (x, m) ∧ rest m = .ok (rs', m') ∧ rs = .memWord i x :: rs' := by
  rw [Mmu.dumpNext.eq_def] at h
  split at h
  · cases h
  · rename_i x m
    split at h
    · cases h
    · rename_i rs' m₂ hd
      cases h
      exact ⟨x, m, rs', rfl, hd, rfl⟩

/-- The reads of DUMPREG through the MMU (R231) only append to the fault log, and keep the invariants. -/
theorem Mmu.dumpRead_next {n i : Nat} {m m' : Mmu} {rs : List DumpRecord} (h : Mmu.dumpRead n i m = .ok (rs, m')) :
    m.faultLog <+: m'.faultLog ∧ (m.Inv → m'.Inv) := by
  induction n generalizing i m rs with
  | zero =>
    rw [Mmu.dumpRead] at h
    cases h
    exact ⟨List.prefix_rfl, id⟩
  | succ n ih =>
    rw [Mmu.dumpRead] at h
    obtain ⟨x, m₁, rs', hr, hd, -⟩ := Mmu.dumpNext_ok h
    exact ⟨(Mmu.read_faultLog hr).trans (ih hd).1, fun hm => (ih hd).2 (hm.of_read hr)⟩

/-- A trace of one access and more. -/
theorem Mmu.runTrace_cons (step : Mmu → Access → Answer × Mmu) (a : Access) (as : List Access) (m : Mmu) :
    (Mmu.runTrace step (a :: as) m).2 = (Mmu.runTrace step as (step m a).2).2 := by
  rw [Mmu.runTrace]

/-- A read that completes, as an access. -/
theorem Mmu.access_read {m m' : Mmu} {i : Int} {x : F64} (h : m.read i = .ok (x, m')) :
    m.access (.read i) = (.value x, m') := by
  rw [Mmu.access, h]

/-- A dump through the MMU leaves the engine that its reads, in order, leave (R231). -/
theorem Mmu.dumpRead_trace {n i : Nat} {m m' : Mmu} {rs : List DumpRecord} (h : Mmu.dumpRead n i m = .ok (rs, m')) :
    m' = (Mmu.runTrace Mmu.access ((List.range' i n).map fun j : Nat => .read (j : Int)) m).2 := by
  induction n generalizing i m rs with
  | zero =>
    rw [Mmu.dumpRead] at h
    cases h
    rw [List.range'_zero, List.map_nil, Mmu.runTrace]
  | succ n ih =>
    rw [Mmu.dumpRead] at h
    obtain ⟨x, m₁, rs', hr, hd, -⟩ := Mmu.dumpNext_ok h
    rw [List.range'_succ, List.map_cons, Mmu.runTrace_cons, Mmu.access_read hr]
    exact ih hd

/-! ## What one processor can do alone -/

/-- How a processor's part of a step ends: a cause raised with pc and run state kept (R250), or the end of a step at
the next pc or at a target, in the run state the instruction gives (R133 to R136). -/
inductive Proc.Ending (p p' : Proc) : Prop
  | raised (c : Cause) (fault : p'.fault = some c) (pc : p'.pc = p.pc) (state : p'.state = p.state)
  | ended (r : RunState) (pc' : Int) (target : pc' = p.pc + 1 ∨ ∃ f : BitVec 32, pc' = f.toInt)
      (ends : ({ p with state := r } : Proc).EndsAt p' pc')

/-- What every instruction a processor takes alone does to it. -/
structure Proc.Alone (p p' : Proc) : Prop where
  prog : p'.prog = p.prog
  progLen : p'.progLen = p.progLen
  portHist : p'.portHist = p.portHist
  dumpOut : p.dumpOut <+: p'.dumpOut
  faultLog : p.mmu.faultLog <+: p'.mmu.faultLog
  mmu : p.mmu.Inv → p'.mmu.Inv
  ending : p.Ending p'

theorem Proc.alone_raise (p : Proc) (c : Cause) : p.Alone (p.raise c) :=
  ⟨rfl, rfl, rfl, List.prefix_rfl, List.prefix_rfl, id, .raised c rfl rfl rfl⟩

/-- The end of a step of a processor whose registers, memory and dump sink an instruction has changed. -/
theorem Proc.alone_finish {p q : Proc} (hprog : q.prog = p.prog) (hlen : q.progLen = p.progLen)
    (hhist : q.portHist = p.portHist) (hdump : p.dumpOut <+: q.dumpOut) (hlog : p.mmu.faultLog <+: q.mmu.faultLog)
    (hmmu : p.mmu.Inv → q.mmu.Inv) (hfault : q.fault = p.fault)
    (hpc : q.pc + 1 = p.pc + 1 ∨ ∃ f : BitVec 32, q.pc + 1 = f.toInt) : p.Alone q.finish := by
  refine ⟨by simpa, by simpa, by simpa, by simpa, by simpa, by simpa, ?_⟩
  obtain ⟨h1, h2, h3⟩ := q.endsAt_finish
  exact .ended q.state _ hpc ⟨h1, by simpa using h2, by simpa [hfault] using h3⟩

/-- The memory engine put back after an access that keeps the log and the invariants changes nothing of the rest. -/
theorem Proc.Alone.of_setMmu {p p' : Proc} {m : Mmu} (h : (p.setMmu m).Alone p')
    (hlog : p.mmu.faultLog <+: m.faultLog) (hmmu : p.mmu.Inv → m.Inv) : p.Alone p' := by
  refine ⟨h.prog, h.progLen, h.portHist, h.dumpOut, hlog.trans h.faultLog, fun hm => h.mmu (hmmu hm), ?_⟩
  cases h.ending with
  | raised c hf hpc hs => exact .raised c hf hpc hs
  | ended r pc' ht he => exact .ended r pc' ht ⟨he.pc, he.state, he.fault⟩

/-- A read and the rest of the instruction. -/
theorem Proc.alone_withRead {p p' : Proc} {i : Int} {k : F64 → Proc → Except Fault Proc} (h : p.withRead i k = .ok p')
    (hk : ∀ x m, k x (p.setMmu m) = .ok p' → (p.setMmu m).Alone p') : p.Alone p' := by
  rw [Proc.withRead] at h
  split at h
  · cases h; exact p.alone_raise _
  · cases h
  · exact (hk _ _ h).of_setMmu (Mmu.read_faultLog ‹_›) fun hm => hm.of_read ‹_›

/-- A write and the rest of the instruction. -/
theorem Proc.alone_withWrite {p p' : Proc} {i : Int} {v : F64} {k : Proc → Except Fault Proc}
    (h : p.withWrite i v k = .ok p') (hk : ∀ m, k (p.setMmu m) = .ok p' → (p.setMmu m).Alone p') : p.Alone p' := by
  rw [Proc.withWrite] at h
  split at h
  · cases h; exact p.alone_raise _
  · cases h
  · exact (hk _ h).of_setMmu (Mmu.write_faultLog ‹_›) fun hm => hm.of_write ‹_›

/-- A read of a pointer cell and the rest of the instruction. -/
theorem Proc.alone_withPointer {p p' : Proc} {i : Int} {k : Int → Proc → Except Fault Proc}
    (h : p.withPointer i k = .ok p') (hk : ∀ a m, k a (p.setMmu m) = .ok p' → (p.setMmu m).Alone p') :
    p.Alone p' :=
  Proc.alone_withRead h fun x m hx => by
    split at hx
    · cases hx; exact (p.setMmu m).alone_raise _
    · exact hk _ _ hx

/-- The end of a step that only changes the accumulator. -/
theorem Proc.alone_setAcc (p : Proc) (v : F64) : p.Alone (p.setAcc v).finish :=
  Proc.alone_finish rfl rfl rfl List.prefix_rfl List.prefix_rfl id rfl (.inl rfl)

/-- A jump, taken or not. -/
theorem Proc.alone_jumpIf (p : Proc) (taken : Bool) (f : BitVec 32) : p.Alone (p.jumpIf taken (immI f)) := by
  rw [Proc.jumpIf]
  cases taken
  · exact Proc.alone_finish rfl rfl rfl List.prefix_rfl List.prefix_rfl id rfl (.inl rfl)
  · refine Proc.alone_finish rfl rfl rfl List.prefix_rfl List.prefix_rfl id rfl (.inr ⟨f, ?_⟩)
    simp [Proc.jumpTo, immI]

/-- The dump of a memory. -/
theorem Proc.alone_dumpMemory {p p' : Proc} {d : DumpMode} (h : p.dumpMemory d = .ok p') : p.Alone p' := by
  cases d with
  | peek =>
    simp only [Proc.dumpMemory] at h
    cases h
    exact Proc.alone_finish rfl rfl rfl (List.prefix_append _ _) List.prefix_rfl id rfl (.inl rfl)
  | viaMmu =>
    simp only [Proc.dumpMemory] at h
    split at h
    · cases h; exact p.alone_raise _
    · cases h
    · rename_i rs m hd
      cases h
      have := Mmu.dumpRead_next hd
      exact Proc.alone_finish rfl rfl rfl (List.prefix_append _ _) this.1 this.2 rfl (.inl rfl)

/-- A step of one processor alone, once its part is known to be one. -/
theorem State.alone_onCurrent {s t : State} {f : Proc → Except Fault Proc} (h : s.onCurrent f = .next t)
    (hf : ∀ p p', f p = .ok p' → p.Alone p') : ∃ p p', s.current = some p ∧ p.Alone p' ∧ t = s.setCurrent p' := by
  obtain ⟨p, p', hp, hok, rfl⟩ := State.onCurrent_next h
  exact ⟨p, p', hp, hf p p' hok, rfl⟩

/-! ## Producers and consumers (R171, R173, R174) -/

/-- Who a partner is. -/
theorem State.partner_eq_some {s : State} {port? : Instr → Option (BitVec 32)} {e : Endpoint} {r : Proc}
    (h : s.partner port? e = some r) :
    s.procs[e.proc]? = some r ∧ r.ready = true ∧
      ∃ f, r.nextInstr.bind port? = some f ∧ checkPort s.wiring.numPorts (immI f) = some e.port := by
  rw [State.partner] at h
  split at h
  · cases h
  · split at h
    · cases h
    · split at h
      · cases h; exact ⟨‹_›, (‹_ ∧ _›).1, _, ‹_›, (‹_ ∧ _›).2⟩
      · cases h

/-- What a ready producer is. -/
theorem State.producer_eq_some {s : State} {e : Endpoint} {src : Producer} (h : s.producer e = some src) :
    (∃ t rest, src = .line t rest ∧ s.stdin = t :: rest ∧ bindingOf s.wiring e = .stdin) ∨
    (∃ q r, src = .processor q r ∧ q.proc ≠ e.proc ∧ bindingOf s.wiring e = .channel q ∧
      s.partner outPort? q = some r) := by
  rw [State.producer] at h
  split at h
  · split at h
    · cases h
    · cases h; exact .inl ⟨_, _, rfl, ‹_›, ‹_›⟩
  · split at h
    · cases h
    · obtain ⟨r, hr, rfl⟩ := Option.map_eq_some_iff.1 h
      exact .inr ⟨_, r, rfl, ‹_›, ‹_›, hr⟩
  · cases h
  · cases h

/-- What a ready consumer is. -/
theorem State.consumer_eq_some {s : State} {e : Endpoint} {dst : Consumer} (h : s.consumer e = some dst) :
    (dst = .sink ∧ bindingOf s.wiring e = .stdout) ∨
    (∃ q r, dst = .processor q r ∧ q.proc ≠ e.proc ∧ bindingOf s.wiring e = .channel q ∧
      s.partner inPort? q = some r) := by
  rw [State.consumer] at h
  split at h
  · cases h; exact .inl ⟨rfl, ‹_›⟩
  · split at h
    · cases h
    · obtain ⟨r, hr, rfl⟩ := Option.map_eq_some_iff.1 h
      exact .inr ⟨_, r, rfl, ‹_›, ‹_›, hr⟩
  · cases h
  · cases h

/-! ## What a step can do -/

/-- The five things a step can do to the machine. -/
inductive Effect (s : State) : State → Prop
  /-- The processor of the turn moves alone (R136). -/
  | alone {p p' : Proc} (current : s.current = some p) (own : p.Alone p') : Effect s (s.setCurrent p')
  /-- IN takes a line that decodes (R173). -/
  | line {p : Proc} {n : Nat} {x : F64} {t : Text} {rest : List Text} (current : s.current = some p)
      (feed : s.stdin = t :: rest) :
      Effect s { s.setCurrent ((p.setAcc x).recordPort (.stdinLine n t)).finish with stdin := rest }
  /-- IN takes a line that does not decode (R173, R241). -/
  | badLine {p : Proc} {n : Nat} {t : Text} {rest : List Text} (current : s.current = some p)
      (feed : s.stdin = t :: rest) : Effect s { s.setCurrent (p.raise (.portDecode n)) with stdin := rest }
  /-- OUT prints a line (R174). -/
  | print {p : Proc} {n : Nat} {t : Text} (current : s.current = some p) :
      Effect s { s.setCurrent (p.recordPort (.stdoutLine n t)).finish with stdout := s.stdout ++ [t] }
  /-- Two processors exchange a value (R171); one of them has the turn. -/
  | transfer {src dst : Endpoint} {p q : Proc} (sender : s.procs[src.proc]? = some p)
      (receiver : s.procs[dst.proc]? = some q) (apart : src.proc ≠ dst.proc)
      (turn : s.turn = src.proc ∧ q.ready = true ∨ s.turn = dst.proc ∧ p.ready = true) :
      Effect s (s.transfer src p dst q)

theorem Effect.of_onCurrent {s t : State} {f : Proc → Except Fault Proc} (h : s.onCurrent f = .next t)
    (hf : ∀ p p', f p = .ok p' → p.Alone p') : Effect s t := by
  obtain ⟨p, p', hp, ha, rfl⟩ := State.alone_onCurrent h hf
  exact .alone hp ha

theorem Effect.of_in {f : BitVec 32} {s t : State} (h : execIn f s = .next t) : Effect s t := by
  rw [execIn] at h
  split at h
  · cases h
  · rename_i p hp
    split at h
    · cases h; exact .alone hp (p.alone_raise _)
    · rename_i n hn
      split at h
      · cases h
      · rename_i src hsrc
        cases h
        obtain ⟨l, rest, rfl, hl, -⟩ | ⟨q, r, rfl, hne, -, hr⟩ := State.producer_eq_some hsrc
        · simp only [State.receive]
          split
          · exact .line hp hl
          · exact .badLine hp hl
        · obtain ⟨hq, hready, -⟩ := State.partner_eq_some hr
          exact .transfer hq hp hne (.inr ⟨rfl, hready⟩)

theorem Effect.of_out {f : BitVec 32} {s t : State} (h : execOut f s = .next t) : Effect s t := by
  rw [execOut] at h
  split at h
  · cases h
  · rename_i p hp
    split at h
    · cases h; exact .alone hp (p.alone_raise _)
    · rename_i n hn
      split at h
      · cases h
      · rename_i dst hdst
        cases h
        obtain ⟨rfl, -⟩ | ⟨q, r, rfl, hne, -, hr⟩ := State.consumer_eq_some hdst
        · exact .print hp
        · obtain ⟨hq, hready, -⟩ := State.partner_eq_some hr
          exact .transfer hp hq hne.symm (.inl ⟨rfl, hready⟩)

/-- Every next state of exec is one of the five effects. -/
theorem exec_effect {i : Instr} {s t : State} (h : exec i s = .next t) : Effect s t := by
  have hmem : ∀ {op : F64 → F64 → F64} {a : Int}, s.onCurrent (fun p => p.arithMem op a) = .next t → Effect s t :=
    fun h => .of_onCurrent h fun p p' hp => Proc.alone_withRead hp fun x m hx => by
      cases hx; exact (p.setMmu m).alone_setAcc _
  have hlit : ∀ {op : F64 → F64 → F64} {c : F64}, s.onCurrent (fun p => p.arithLit op c) = .next t → Effect s t :=
    fun h => .of_onCurrent h fun p p' hp => by cases hp; exact p.alone_setAcc _
  have hjump : ∀ {c : F64 → Bool} {g : BitVec 32},
      s.onCurrent (fun p => .ok (p.jumpIf (c p.acc) (immI g))) = .next t → Effect s t :=
    fun h => .of_onCurrent h fun p p' hp => by cases hp; exact p.alone_jumpIf _ _
  have hret : ∀ {g : Proc → Proc}, (∀ p : Proc, p.Alone (g p)) → s.onCurrent (fun p => .ok (g p)) = .next t → Effect s t :=
    fun hg h => .of_onCurrent h fun p p' hp => by cases hp; exact hg p
  cases i with
  | stop =>
    exact hret (g := fun p => (p.setRunState .halted).finish)
      (fun p => Proc.alone_finish rfl rfl rfl List.prefix_rfl List.prefix_rfl id rfl (.inl rfl)) h
  | start =>
    exact hret (g := fun p => (p.setRunState .running).finish)
      (fun p => Proc.alone_finish rfl rfl rfl List.prefix_rfl List.prefix_rfl id rfl (.inl rfl)) h
  | in_ f => exact .of_in h
  | out f => exact .of_out h
  | load f =>
    exact .of_onCurrent h fun p p' hp => Proc.alone_withRead hp fun x m hx => by
      cases hx; exact (p.setMmu m).alone_setAcc _
  | store f =>
    exact .of_onCurrent h fun p p' hp => Proc.alone_withWrite hp fun m hx => by
      cases hx
      exact Proc.alone_finish rfl rfl rfl List.prefix_rfl List.prefix_rfl id rfl (.inl rfl)
  | loadnum c => exact hret (g := fun p => (p.setAcc c).finish) (fun p => p.alone_setAcc c) h
  | add f => exact hmem h
  | sub f => exact hmem h
  | mul f => exact hmem h
  | div f => exact hmem h
  | addnum c => exact hlit h
  | subnum c => exact hlit h
  | mulnum c => exact hlit h
  | divnum c => exact hlit h
  | jump f => exact hjump (c := fun _ => true) h
  | jumpneg f => exact hjump h
  | jumppos f => exact hjump h
  | jumpnull f => exact hjump h
  | loadind f =>
    exact .of_onCurrent h fun p p' hp => Proc.alone_withPointer hp fun a m hx =>
      Proc.alone_withRead hx fun x m' hx' => by cases hx'; exact ((p.setMmu m).setMmu m').alone_setAcc _
  | storeind f =>
    exact .of_onCurrent h fun p p' hp => Proc.alone_withPointer hp fun a m hx =>
      Proc.alone_withWrite hx fun m' hx' => by
        cases hx'
        exact Proc.alone_finish rfl rfl rfl List.prefix_rfl List.prefix_rfl id rfl (.inl rfl)
  | dumpreg => exact .of_onCurrent h fun p p' hp => Proc.alone_dumpMemory hp
  | dumpprog =>
    exact hret (g := fun p => (p.emitDump p.dumpProgram).finish)
      (fun p => Proc.alone_finish (p := p) rfl rfl rfl (List.prefix_append _ _) List.prefix_rfl id rfl (.inl rfl)) h
  | unrecognized op =>
    exact hret (g := fun p => p.finish)
      (fun p => Proc.alone_finish rfl rfl rfl List.prefix_rfl List.prefix_rfl id rfl (.inl rfl)) h

/-- Every next state of step is one of the five effects, of a processor that has a step, with the step counted. -/
theorem step_effect {s t : State} (h : step s = .next t) :
    ∃ k u, s.pick = some k ∧ s.enabled k = true ∧ Effect (s.setTurn k) u ∧ t = u.endStep := by
  obtain ⟨k, i, u, hk, he, -, hx, rfl⟩ := step_next h
  exact ⟨k, u, hk, he, exec_effect hx, rfl⟩

end Sys2Proof.Machine
end

