-- ==== Sys2Proof/Tests/Slice0.lean ====
section
/-! SUPPORT. The model's own tests. Every expected result is taken from the spec, named in the comment before it:
an example of the rule, the encoding table, or a vector of spec/95_test_vectors.md. -/

namespace Sys2Proof.Tests

open Sys2Proof Sys2Proof.Machine

set_option Elab.async false

/-! ## Well-formedness (R106) -/

theorem test_wf_unrecognized_bounds :
    (Instr.unrecognized 0x00).wellFormed = true ∧ (Instr.unrecognized 0x18).wellFormed = true ∧
    (Instr.unrecognized 0xFF).wellFormed = true := by decide
/-- Ill-formed: 0x01, 0x05 and 0x17 have rows of their own (R105). -/
theorem test_wf_refuses_assigned_op :
    (Instr.unrecognized 0x01).wellFormed = false ∧ (Instr.unrecognized 0x05).wellFormed = false ∧
    (Instr.unrecognized 0x17).wellFormed = false := by decide
theorem test_wf_operands : (Instr.in_ 0xFFFFFFFF).wellFormed = true ∧
    (Instr.loadnum 0x7FF8000000000000).wellFormed = true := by decide

/-! ## Decode: one word per constructor, written out from R100 and R105 as G3 G2 G1 G0 -/

theorem test_decode_stop : decode 0x00000001_00000000_00000000_00000000 = .stop := by decide
theorem test_decode_start : decode 0x00000002_00000000_00000000_00000000 = .start := by decide
theorem test_decode_in : decode 0x00000003_00000002_00000000_00000000 = .in_ 2 := by decide
theorem test_decode_out : decode 0x00000004_FFFFFFFF_00000000_00000000 = .out 0xFFFFFFFF := by decide
theorem test_decode_load : decode 0x00000005_00011170_40F11700_00000000 = .load 70000 := by decide
theorem test_decode_store : decode 0x00000006_00010000_40F00000_00000000 = .store 65536 := by decide
theorem test_decode_loadnum :
    decode 0x00000007_00000000_3FB99999_9999999A = .loadnum 0x3FB999999999999A := by decide
theorem test_decode_add : decode 0x00000008_00000401_00000000_00000000 = .add 1025 := by decide
theorem test_decode_sub : decode 0x00000009_00000001_00000000_00000000 = .sub 1 := by decide
theorem test_decode_mul : decode 0x0000000A_0000FFFF_00000000_00000000 = .mul 65535 := by decide
theorem test_decode_div : decode 0x0000000B_80000000_00000000_00000000 = .div 0x80000000 := by decide
theorem test_decode_addnum : decode 0x0000000C_00000003_40080000_00000000 = .addnum 0x4008000000000000 := by decide
theorem test_decode_subnum : decode 0x0000000D_00000008_40200000_00000000 = .subnum 0x4020000000000000 := by decide
theorem test_decode_mulnum : decode 0x0000000E_00000000_3FE00000_00000000 = .mulnum 0x3FE0000000000000 := by decide
theorem test_decode_divnum : decode 0x0000000F_00000000_80000000_00000001 = .divnum 0x8000000000000001 := by decide
theorem test_decode_jump : decode 0x00000010_000000FA_406F4000_00000000 = .jump 250 := by decide
theorem test_decode_jumpneg : decode 0x00000011_00000007_00000000_00000000 = .jumpneg 7 := by decide
theorem test_decode_jumppos : decode 0x00000012_000000C7_00000000_00000000 = .jumppos 199 := by decide
theorem test_decode_jumpnull : decode 0x00000013_00000009_00000000_00000000 = .jumpnull 9 := by decide
theorem test_decode_loadind : decode 0x00000014_0000000A_00000000_00000000 = .loadind 10 := by decide
theorem test_decode_storeind : decode 0x00000015_0000000A_00000000_00000000 = .storeind 10 := by decide
theorem test_decode_dumpreg : decode 0x00000016_00000000_00000000_00000000 = .dumpreg := by decide
theorem test_decode_dumpprog : decode 0x00000017_00000000_00000000_00000000 = .dumpprog := by decide
/-- Vector E2, and the last OP value. -/
theorem test_decode_unrecognized : decode 0xFF000018_00000000_00000000_00000000 = .unrecognized 0x18 ∧
    decode 0x000000FF_00000000_00000000_00000000 = .unrecognized 0xFF ∧ decode 0 = .unrecognized 0 := by decide
/-- Vector E2: RSV is ignored. -/
theorem test_decode_ignores_rsv : decode 0xAB000001_00000000_00000000_00000000 = .stop := by decide
/-- The encoder writes 0 in RSV and in the field LOADNUM does not consume. -/
theorem test_encode : encode (.loadnum 0x3FB999999999999A) = 0x00000007_00000000_3FB99999_9999999A ∧
    encode (.jump 250) = 0x00000010_000000FA_00000000_00000000 := by decide

/-! ## Assembler (R108 to R111, R113, vectors E1 and E3) -/

theorem test_assemble_literal :
    assembleLine "LOADNUM 0.1".toList = .ok 0x00000007_00000000_3FB99999_9999999A := by decide +kernel
theorem test_assemble_refused : assembleLine "LOADNUM 1e999".toList = .error .badOperand ∧
    assembleLine "JUMP 3000000000".toList = .error .badOperand ∧
    assembleLine "LOAD 1 2".toList = .error .tooManyTokens := by decide +kernel

/-! ## Reset (R40, R280) -/

theorem test_reset_is_create : State.reset = { State.create Wiring.reset [] [[]] [] with turn := 0 } := by
  have hprog : (Vector.ofFn fun k : Fin 200 => ([] : List InstrWord).getD k.val 0) = Proc.reset.prog := by
    ext k hk; simp [Proc.reset]
  simp only [State.create, List.map_cons, List.map_nil, Proc.create, hprog]
  rfl
theorem test_reset_pages : (Mmu.reset.pte 3).present = true ∧ (Mmu.reset.pte 3).frame = 3 ∧
    (Mmu.reset.pte 4).present = false ∧ (Mmu.reset.pte 63).swapOff = 64512 := by decide

/-! ## One step of each instruction -/

/-- A processor at reset with one word in slot 0, a value in acc and the given words of MEM0. -/
def testProc (w : InstrWord) (acc : F64) (mem0 : List (Nat × F64)) : Proc :=
  ((Proc.create (imageMemory mem0) [w]).setAcc acc)

/-- One processor, port 0 bound to stdin and port 1 to stdout. -/
def testWiring : Wiring := { Wiring.reset with stdinPort := some ⟨0, 0⟩, stdoutPort := some ⟨0, 1⟩ }

/-- That wiring, with a processor and the lines of the feed. -/
def testState (p : Proc) (feed : List Text) : State :=
  { State.reset with procs := [p], wiring := testWiring, stdin := feed }

/-- Two processors, port 0 of each bound to the other's. -/
def testPair (p q : Proc) : State :=
  { State.reset with
    procs := [p, q]
    wiring := { Wiring.reset with ids := [['A'], ['B']], channels := [(⟨0, 0⟩, ⟨1, 0⟩)] } }

/-- A value read from processor k after one step; nothing where the step has no next state. -/
def afterStep {α : Type} (k : Nat) (f : Proc → α) (s : State) : Option α :=
  match step s with
  | .next t => t.procs[k]?.map f
  | .fault _ => none
  | .refused _ => none

/-- The same for one instruction. -/
def afterExec {α : Type} (i : Instr) (k : Nat) (f : Proc → α) (s : State) : Option α :=
  match exec i s with
  | .next t => t.procs[k]?.map f
  | .fault _ => none
  | .refused _ => none

/-- R150, R138, vector W5. -/
theorem test_stop : afterStep 0 (fun p => (p.state, p.pc, p.acc))
    (testState (testProc 0x00000001_00000000_00000000_00000000 0 []) []) = some (.halted, 1, 0) := by decide +kernel
/-- R151. -/
theorem test_start : afterStep 0 (fun p => (p.state, p.pc))
    (testState (testProc 0x00000002_00000000_00000000_00000000 0 []) []) = some (.running, 1) := by decide +kernel
/-- R152, vector X2: `FOO 7` at pc = 3. -/
theorem test_unrecognized : afterExec (decode 0x00000000_00000007_401C0000_00000000) 0 (fun p => (p.pc, p.acc))
    (testState ((testProc 0 5 []).setPc 3) []) = some (4, 5) := by decide +kernel
/-- R161, R173: "2.5" on stdin. -/
theorem test_in_stdin : afterStep 0 (fun p => (p.acc, p.pc, p.portHist))
    (testState (testProc 0x00000003_00000000_00000000_00000000 0 []) [['2', '.', '5']]) =
      some (0x4004000000000000, 1, [.stdinLine 0 ['2', '.', '5']]) := by decide +kernel
/-- R161, R171: the example, A.acc = 42.0. -/
theorem test_in_rendezvous : afterExec (.in_ 0) 1 (fun q => (q.acc, q.pc))
    ((testPair (testProc 0x00000004_00000000_00000000_00000000 0x4045000000000000 [])
      (testProc 0x00000003_00000000_00000000_00000000 0 [])).setTurn 1) =
      some (0x4045000000000000, 1) := by decide +kernel
/-- R174, R176: -0.0 on stdout. -/
theorem test_out_stdout : (match step (testState
      (testProc 0x00000004_00000001_00000000_00000000 0x8000000000000000 []) []) with
    | .next t => t.stdout
    | .fault _ => []
    | .refused _ => []) = [['-', '0']] := by decide +kernel
/-- R162: the text of the example, "42": no multiple of ten reads back as 42.0, and the multiple 42 of one does. -/
theorem test_text : shortestFrom (F64.mag 0x4045000000000000) (F64.units 0x4045000000000000) 2 (-1) = (42, 0) ∧
    positional 42 0 = ['4', '2'] ∧ positional 25 1 = ['2', '.', '5'] := by decide +kernel
/-- R162, R171: the sender's side of the example. -/
theorem test_out_rendezvous : afterExec (.out 0) 0 (fun p => (p.acc, p.pc, p.portHist))
    (testPair (testProc 0x00000004_00000000_00000000_00000000 0x4045000000000000 [])
      (testProc 0x00000003_00000000_00000000_00000000 0 [])) =
      some (0x4045000000000000, 1, [.transfer ⟨0, 0⟩ ⟨1, 0⟩ 0x4045000000000000]) := by decide +kernel
/-- R181: the example. -/
theorem test_load : afterStep 0 (fun p => p.acc)
    (testState (testProc 0x00000005_00000000_00000000_00000000 0 [(0, 0x4020000000000000)]) []) =
      some 0x4020000000000000 := by decide +kernel
/-- R181, R53: `LOAD 70000` faults and leaves acc and pc. -/
theorem test_load_fault : afterStep 0 (fun p => (p.fault, p.acc, p.pc))
    (testState (testProc 0x00000005_00011170_40F11700_00000000 1 []) []) =
      some (some (.addressError (.index 70000)), 1, 0) := by decide +kernel
/-- R182: the example. -/
theorem test_store : afterStep 0 (fun p => (p.mmu.value 0, (p.mmu.pte 0).dirty))
    (testState (testProc 0x00000006_00000000_00000000_00000000 0x4020000000000000 []) []) =
      some (0x4020000000000000, true) := by decide +kernel
/-- R60, vector W1: a store to page 39 evicts page 0. -/
theorem test_store_evicts : afterStep 0
    (fun p => ((p.mmu.pte 0).present, (p.mmu.pte 39).frame, p.mmu.faultLog, p.mmu.scCursor))
    (testState (testProc 0x00000006_00009C40_00000000_00000000 1 []) []) =
      some (false, 0, [39], 1) := by decide +kernel
/-- R183: the example. -/
theorem test_loadnum : afterStep 0 (fun p => p.acc)
    (testState (testProc 0x00000007_00000005_40140000_00000000 0 []) []) = some 0x4014000000000000 := by
  decide +kernel
/-- R184: the example. -/
theorem test_loadind : afterStep 0 (fun p => (p.acc, p.mmu.faultLog))
    (testState (testProc 0x00000014_0000000A_00000000_00000000 0
      [(10, 0x40B0000000000000), (4096, 0x4008000000000000)]) []) = some (0x4008000000000000, [4]) := by
  decide +kernel
/-- R184, R180: a pointer word of 2.5. -/
theorem test_loadind_fault : afterStep 0 (fun p => p.fault)
    (testState (testProc 0x00000014_0000000A_00000000_00000000 0 [(10, 0x4004000000000000)]) []) =
      some (some (.addressError (.pointer 0x4004000000000000))) := by decide +kernel
/-- R185: the example. -/
theorem test_storeind : afterStep 0 (fun p => (p.mmu.value 4096, (p.mmu.pte 4).dirty, (p.mmu.pte 0).dirty))
    (testState (testProc 0x00000015_0000000A_00000000_00000000 0x401C000000000000 [(10, 0x40B0000000000000)]) []) =
      some (0x401C000000000000, true, false) := by decide +kernel
/-- R204: the example, 5.0 + 3.0. -/
theorem test_add : afterStep 0 (fun p => p.acc)
    (testState (testProc 0x00000008_00000000_00000000_00000000 0x4014000000000000 [(0, 0x4008000000000000)]) []) =
      some 0x4020000000000000 := by decide +kernel
/-- R205: the example, 5.0 - 3.0. -/
theorem test_sub : afterStep 0 (fun p => p.acc)
    (testState (testProc 0x00000009_00000000_00000000_00000000 0x4014000000000000 [(0, 0x4008000000000000)]) []) =
      some 0x4000000000000000 := by decide +kernel
/-- R206: the example, 5.0 * 3.0. -/
theorem test_mul : afterStep 0 (fun p => p.acc)
    (testState (testProc 0x0000000A_00000000_00000000_00000000 0x4014000000000000 [(0, 0x4008000000000000)]) []) =
      some 0x402E000000000000 := by decide +kernel
/-- R207: the example, 5.0 / 2.0. -/
theorem test_div : afterStep 0 (fun p => p.acc)
    (testState (testProc 0x0000000B_00000000_00000000_00000000 0x4014000000000000 [(0, 0x4000000000000000)]) []) =
      some 0x4004000000000000 := by decide +kernel
/-- R208: the example, 5.0 + 3.0. -/
theorem test_addnum : afterStep 0 (fun p => p.acc)
    (testState (testProc 0x0000000C_00000003_40080000_00000000 0x4014000000000000 []) []) =
      some 0x4020000000000000 := by decide +kernel
/-- R209: the example, 5.0 - 8.0. -/
theorem test_subnum : afterStep 0 (fun p => p.acc)
    (testState (testProc 0x0000000D_00000008_40200000_00000000 0x4014000000000000 []) []) =
      some 0xC008000000000000 := by decide +kernel
/-- R210: the example, -2.0 * 0.5. -/
theorem test_mulnum : afterStep 0 (fun p => p.acc)
    (testState (testProc 0x0000000E_00000000_3FE00000_00000000 0xC000000000000000 []) []) =
      some 0xBFF0000000000000 := by decide +kernel
/-- R211: the example, 1.0 / 0. -/
theorem test_divnum : afterStep 0 (fun p => p.acc)
    (testState (testProc 0x0000000F_00000000_00000000_00000000 0x3FF0000000000000 []) []) =
      some 0x7FF0000000000000 := by decide +kernel
/-- R221: the example, `JUMP 5` at pc = 2. -/
theorem test_jump : afterExec (.jump 5) 0 (fun p => p.pc) (testState ((testProc 0 0 []).setPc 2) []) = some 5 := by
  decide +kernel
/-- R134, R135, vector W6: `JUMP 250` halts, `JUMP -1` faults. -/
theorem test_jump_out_of_range :
    afterExec (.jump 250) 0 (fun p => (p.pc, p.state, p.fault)) (testState (testProc 0 0 []) []) =
      some (250, .halted, none) ∧
    afterExec (.jump 0xFFFFFFFF) 0 (fun p => (p.pc, p.state, p.fault)) (testState (testProc 0 0 []) []) =
      some (-1, .running, some (.pcOutOfRange (-1))) := by decide +kernel
/-- R222: the examples, acc = -3.0 and 3.0, and -0.0, which does not jump. -/
theorem test_jumpneg :
    afterExec (.jumpneg 7) 0 (fun p => p.pc) (testState ((testProc 0 0xC008000000000000 []).setPc 1) []) = some 7 ∧
    afterExec (.jumpneg 7) 0 (fun p => p.pc) (testState ((testProc 0 0x4008000000000000 []).setPc 1) []) = some 2 ∧
    afterExec (.jumpneg 7) 0 (fun p => p.pc) (testState ((testProc 0 0x8000000000000000 []).setPc 1) []) = some 2 := by
  decide +kernel
/-- R223: the example, and a NaN, which does not jump. -/
theorem test_jumppos :
    afterExec (.jumppos 0) 0 (fun p => p.pc) (testState ((testProc 0 0x4020000000000000 []).setPc 4) []) = some 0 ∧
    afterExec (.jumppos 0) 0 (fun p => p.pc) (testState ((testProc 0 0x7FF8000000000000 []).setPc 4) []) = some 5 := by
  decide +kernel
/-- R224: the example, -0.0, which jumps, and the least subnormal, which does not. -/
theorem test_jumpnull :
    afterExec (.jumpnull 9) 0 (fun p => p.pc) (testState ((testProc 0 0 []).setPc 3) []) = some 9 ∧
    afterExec (.jumpnull 9) 0 (fun p => p.pc) (testState ((testProc 0 0x8000000000000000 []).setPc 3) []) = some 9 ∧
    afterExec (.jumpnull 9) 0 (fun p => p.pc) (testState ((testProc 0 1 []).setPc 3) []) = some 4 := by decide +kernel
/-- R231: the first two records of the example. -/
theorem test_dumpreg : (match Mmu.dumpRead 2 0 (testProc 0 0 [(0, 0x4020000000000000)]).mmu with
    | .ok (rs, _) => rs
    | .error _ => []) = [.memWord 0 0x4020000000000000, .memWord 1 0] := by decide +kernel
/-- R232: the example. -/
theorem test_dumpprog : (Proc.create [] [0x00000007_00000005_40140000_00000000, 0x00000017_00000000_00000000_00000000,
      0x00000001_00000000_00000000_00000000]).dumpProgram =
    [.progWord 0 0x00000007_00000005_40140000_00000000, .progWord 1 0x00000017_00000000_00000000_00000000,
      .progWord 2 0x00000001_00000000_00000000_00000000] := by decide +kernel
/-- The host's own interface: the fetched word is the one placed. -/
theorem test_withFetchWord : (State.reset.withFetchWord 104 (1 <<< 96)).fetchDecode = some .stop ∧
    decodeTableWord 104 (1 <<< 96) = some .stop := by decide +kernel

/-! ## Witnesses: for every statement with hypotheses, a state and operands that meet them -/

/-- The processor of the witnesses: at reset, with one instruction word in slot 0. -/
def plain (w : InstrWord) : Proc := testProc w 0 []

/-- The state of the witnesses: that processor, port 0 on stdin, port 1 on stdout, ports 2 and 3 unbound. -/
def single (w : InstrWord) (feed : List Text) : State := testState (plain w) feed

/-- The outcome is a next state. -/
def isNext : Outcome → Bool
  | .next _ => true
  | .fault _ => false
  | .refused _ => false

theorem exists_next {o : Outcome} (h : isNext o = true) : ∃ t, o = .next t := by
  cases o <;> simp_all [isNext]

theorem not_enabled {s : State} (h : s.pick = none) (k : Nat) : s.enabled k = false := by
  rw [State.pick_eq_none] at h
  cases he : s.enabled k with
  | false => rfl
  | true => rw [← State.mem_enabledList, h] at he; cases he

theorem plain_inv (w : InstrWord) : (plain w).Inv where
  mmu := Mmu.inv_reset
  pcRange := by change -2147483648 ≤ (0 : Int) ∧ (0 : Int) ≤ 2147483647; decide
  pcInProg := fun _ _ => by change 0 ≤ (0 : Int) ∧ (0 : Int) < 200; decide
  faultRunning := fun h => absurd rfl h
  progLen := by change 1 ≤ 200; decide
  padding := by
    intro k hk
    have hk : 1 ≤ k.val := hk
    simp [plain, testProc, Proc.create, Proc.setAcc, List.getElem?_eq_none (l := [w]) (i := k.val) (by simpa using hk)]

theorem testWiring_valid : WiringValid testWiring 1 :=
  ⟨rfl, by decide, by decide, by decide, by decide⟩

theorem single_inv (w : InstrWord) (feed : List Text) : (single w feed).Inv where
  procs := fun p hp => by
    rw [show p = plain w by simpa [single, testState] using hp]
    exact plain_inv w
  wiring := testWiring_valid

/-- The OP values of every clause of the opcode map, and of the encoding clause of every instruction statement. -/
theorem witness_OpcodeMap (op : BitVec 8) : opField (packWord op 0 0) = op := (fields_packWord op 0 0).1
theorem witness_DecodeAfterEncode : (Instr.unrecognized 0x18).wellFormed = true ∧
    (Instr.loadnum 0xFFFFFFFFFFFFFFFF).wellFormed = true := by decide
/-- Words that differ in RSV and IMM_F (ADD), and in IMM_I (LOADNUM). -/
theorem witness_IgnoredFieldsDoNotMatter :
    opField 0xAB000008_00000001_00000000_00000000 = opField 0x00000008_00000001_3FF00000_00000000 ∧
    immIField 0xAB000008_00000001_00000000_00000000 = immIField 0x00000008_00000001_3FF00000_00000000 ∧
    opField 0x00000007_00000001_3FF00000_00000000 = opField 0x00000007_00000002_3FF00000_00000000 ∧
    immFField 0x00000007_00000001_3FF00000_00000000 = immFField 0x00000007_00000002_3FF00000_00000000 := by decide
theorem witness_StepRunsDecodedInstruction : (single 0 []).pick = some 0 ∧
    (single 0 []).procs[0]? = some (plain 0) ∧ 0 ≤ (plain 0).pc ∧ (plain 0).prog[(plain 0).pc.toNat]? = some 0 :=
  ⟨by decide +kernel, rfl, by decide, by decide +kernel⟩
theorem witness_ScheduleMayPickAnyEnabledProcessor : (testPair (plain 0) (plain 0)).enabled 0 = true ∧
    (testPair (plain 0) (plain 0)).enabled 1 = true := by decide +kernel
theorem witness_EnabledWhenReady : (single 0 []).enabled 0 = true ∧ (single 0 []).procs[0]? = some (plain 0) ∧
    (plain 0).state = .running ∧ (plain 0).fault = none ∧ (plain 0).nextInstr = some (.unrecognized 0) :=
  ⟨by decide +kernel, rfl, rfl, rfl, by decide +kernel⟩
theorem witness_HaltedOrFaultedNeverChanges :
    (∃ t, step (testPair (plain 0) ((plain 0).setRunState .halted)) = .next t) ∧
    ((plain 0).setRunState .halted).state = .halted ∧
    (∃ t, step (testPair (plain 0) ((plain 0).raise (.portRange 9))) = .next t) ∧
    ((plain 0).raise (.portRange 9)).fault ≠ none :=
  ⟨exists_next (by decide +kernel), rfl, exists_next (by decide +kernel), by decide⟩
theorem witness_StuckStatesAreClassified :
    (∀ k, (testState ((plain 0).setRunState .halted) []).enabled k = false) ∧
    (∀ k, (testState ((plain 0).raise (.portRange 9)) []).enabled k = false) ∧
    (∀ k, (single 0x00000003_00000002_00000000_00000000 []).enabled k = false) ∧
    (plain 0x00000003_00000002_00000000_00000000).state = .running :=
  ⟨not_enabled (by decide +kernel), not_enabled (by decide +kernel), not_enabled (by decide +kernel), rfl⟩
theorem witness_StepKeepsInvariants : (single 0 []).Inv ∧ ∃ t, step (single 0 []) = .next t :=
  ⟨single_inv 0 [], exists_next (by decide +kernel)⟩
/-- One clause each: a processor with a step, and one at IN on an unbound port. -/
theorem witness_ProgressUnderInvariants : ((single 0 []).Inv ∧ (single 0 []).enabled 0 = true) ∧
    (single 0x00000003_00000002_00000000_00000000 []).Inv ∧
    ∀ k, (single 0x00000003_00000002_00000000_00000000 []).enabled k = false :=
  ⟨⟨single_inv 0 [], by decide +kernel⟩, single_inv _ [], not_enabled (by decide +kernel)⟩
theorem witness_StepKeepsChannelOrder : (testPair (plain 0) (plain 0)).historiesAgree ∧
    ∃ t, step (testPair (plain 0) (plain 0)) = .next t := by
  refine ⟨fun e f p q hp hq => ?_, exists_next (by decide +kernel)⟩
  have hall : ∀ r ∈ (testPair (plain 0) (plain 0)).procs, r.portHist = [] := by simp [testPair, plain, testProc,
    Proc.create, Proc.reset, Proc.setAcc]
  rw [hall p (List.mem_of_getElem? hp), hall q (List.mem_of_getElem? hq)]
/-- Also the witness of ProgramAndWiringAreFixed. -/
theorem witness_HistoriesOnlyGrow : (single 0 []).procs[0]? = some (plain 0) ∧ ∃ t, step (single 0 []) = .next t :=
  ⟨rfl, exists_next (by decide +kernel)⟩
theorem witness_OtherMemoriesUntouched : (testPair (plain 0) (plain 0)).pick = some 0 ∧
    (testPair (plain 0) (plain 0)).procs[1]? = some (plain 0) ∧
    ∃ t, step (testPair (plain 0) (plain 0)) = .next t :=
  ⟨by decide +kernel, rfl, exists_next (by decide +kernel)⟩
/-- Two states that differ, in the TLB head of processor 1. -/
theorem witness_MemoryIsPrivate :
    (testPair (plain 0) (plain 0)).hideMemory 1 =
      (testPair (plain 0) ((plain 0).setMmu { Mmu.reset with tlbHead := 1 })).hideMemory 1 ∧
    (plain 0).mmu.tlbHead ≠ ({ Mmu.reset with tlbHead := 1 } : Mmu).tlbHead ∧
    (testPair (plain 0) (plain 0)).pick = some 0 ∧ ∃ t, step (testPair (plain 0) (plain 0)) = .next t :=
  ⟨rfl, by decide, by decide +kernel, exists_next (by decide +kernel)⟩
/-- The indices next to the range; also the boundary of the fault clauses of LOAD, STORE and the memory arithmetic. -/
theorem witness_OutOfRangeIndexIsRefused : ((-1 : Int) < 0 ∨ 65536 ≤ (-1 : Int)) ∧
    ((65536 : Int) < 0 ∨ 65536 ≤ (65536 : Int)) ∧ (0xFFFFFFFF#32).toInt = -1 ∧ (65536#32).toInt = 65536 ∧
    (65535#32).toInt = ((0xFFFF#16).toNat : Int) ∧ (0#32).toInt = ((0#16).toNat : Int) := by decide
/-- Also the witness of TlbIsTransparent. -/
theorem witness_ReadAfterWriteRoundTrip : Mmu.reset.Inv := Mmu.inv_reset
/-- The engine at reset with all four pages accessed. -/
def fullEngine : Mmu := (((Mmu.reset.markAccessed 0).markAccessed 1).markAccessed 2).markAccessed 3
/-- One clause each: no page accessed, and every present page accessed. -/
theorem witness_SecondChanceVictim : Mmu.reset.Inv ∧
    ((Mmu.reset.pte 0).present = true ∧ (Mmu.reset.pte 0).accessed = false) ∧ fullEngine.Inv ∧
    ∀ n, (fullEngine.pte n).present = true → (fullEngine.pte n).accessed = true :=
  ⟨Mmu.inv_reset, by decide, (((Mmu.inv_reset.markAccessed (by decide)).markAccessed (by decide)).markAccessed
    (by decide)).markAccessed (by decide), by decide +kernel⟩
theorem witness_PageFaultEffect : Mmu.reset.Inv ∧ (Mmu.reset.pte 4).present = false ∧
    (Mmu.reset.pte 63).present = false := ⟨Mmu.inv_reset, by decide, by decide⟩
theorem witness_FivePagesForceAFault : Mmu.reset.Inv ∧
    5 ≤ (([.read 0, .write 1024 1, .read 2048, .read 3072, .read 65535] : List Access).filterMap
      Access.page).toFinset.card := ⟨Mmu.inv_reset, by decide +kernel⟩
/-- The one hypothesis of StopHalts, StartForcesRunning, UnrecognizedIsNoOp, LoadnumLoadsLiteral and
JumpLandsOnTarget. -/
theorem witness_StopHalts : (single 0 []).current = some (plain 0) := rfl
/-- Also of StoreWritesMemory. -/
theorem witness_LoadReadsMemory : (single 0 []).current = some (plain 0) ∧ (plain 0).mmu.Inv ∧
    (65535#32).toInt = ((0xFFFF : VIndex).toNat : Int) ∧ ((0xFFFFFFFF#32).toInt < 0 ∨ 65536 ≤ (0xFFFFFFFF#32).toInt) ∧
    ((65536#32).toInt < 0 ∨ 65536 ≤ (65536#32).toInt) := ⟨rfl, Mmu.inv_reset, by decide, by decide, by decide⟩
/-- Whatever the pointer word, some processor holds it in cell 10 with an engine that meets the invariants. -/
theorem pointer_cell (x : F64) : ∃ p : Proc, (testState p []).current = some p ∧ p.mmu.Inv ∧ p.mmu.value 10 = x := by
  obtain ⟨m, -, hinv, hval, -⟩ := Mmu.inv_reset.write x (checkIndex_toNat 10)
  exact ⟨(plain 0).setMmu m, rfl, hinv, by simpa using hval 10⟩
/-- The pointer words of each clause: 65535.0 and -0.0, then 65536.0 and -1.0, then 2.5, +Inf and a NaN. Also of
StoreindWritesThroughPointer. -/
theorem witness_LoadindReadsThroughPointer : (10#32).toInt = ((10 : VIndex).toNat : Int) ∧
    toIndex 0x40EFFFE000000000 = .ok ((0xFFFF : VIndex).toNat : Int) ∧
    toIndex 0x8000000000000000 = .ok ((0 : VIndex).toNat : Int) ∧
    toIndex 0x40F0000000000000 = .ok 65536 ∧ toIndex 0xBFF0000000000000 = .ok (-1) ∧
    toIndex 0x4004000000000000 = .error (.addressError (.pointer 0x4004000000000000)) ∧
    toIndex 0x7FF0000000000000 = .error (.addressError (.pointer 0x7FF0000000000000)) ∧
    toIndex 0x7FF8000000000000 = .error (.addressError (.pointer 0x7FF8000000000000)) := by
  decide +kernel
theorem witness_ToIndexIsExact :
    ¬∃ i : Int, F64.isFinite 0x4004000000000000 = true ∧ F64.fixed 0x4004000000000000 = i * 2 ^ 1074 := by
  rintro ⟨i, -, h⟩
  have h0 : F64.fixed 0x4004000000000000 % 2 ^ 1074 ≠ 0 := by decide +kernel
  rw [h] at h0
  exact h0 (Int.mul_emod_left i (2 ^ 1074))
theorem witness_LiteralArithmetic : (single 0 []).current = some (plain 0) ∧
    ((Instr.divnum 0 = .addnum 0 ∧ F64.div = F64.add) ∨ (Instr.divnum 0 = .subnum 0 ∧ F64.div = F64.sub) ∨
      (Instr.divnum 0 = .mulnum 0 ∧ F64.div = F64.mul) ∨ (Instr.divnum 0 = .divnum 0 ∧ F64.div = F64.div)) :=
  ⟨rfl, .inr (.inr (.inr ⟨rfl, rfl⟩))⟩
theorem witness_MemoryArithmetic : (single 0 []).current = some (plain 0) ∧
    ((Instr.add 0 = .add 0 ∧ F64.add = F64.add) ∨ (Instr.add 0 = .sub 0 ∧ F64.add = F64.sub) ∨
      (Instr.add 0 = .mul 0 ∧ F64.add = F64.mul) ∨ (Instr.add 0 = .div 0 ∧ F64.add = F64.div)) ∧
    (plain 0).mmu.Inv ∧ (0#32).toInt = ((0 : VIndex).toNat : Int) :=
  ⟨rfl, .inl ⟨rfl, rfl⟩, Mmu.inv_reset, by decide⟩
/-- An access that walks (page 3), one that hits after it, and one that faults (page 4). -/
theorem witness_Accessed : (Mmu.reset.pte (vpn 0x0C00)).present = true ∧ Mmu.reset.probe (pageStart 0x0C00) = none ∧
    ((Mmu.reset.tlbInsert (pageStart 0x0C00) 3).probe (pageStart 0x0C05)) = some 0 ∧
    (Mmu.reset.pte (vpn 0x1000)).present = false := by decide +kernel
/-- Half a unit: equally near 0 and 1 unit. -/
theorem witness_RoundingIsNearestEven : F64.roundMag 1 2 < F64.infMag ∧ 1 < F64.infMag ∧
    |(F64.units (F64.ofMag false (F64.roundMag 1 2)) : Int) * 2 - 1| =
      |(F64.units (F64.ofMag false 1) : Int) * 2 - 1| := by decide +kernel
/-- Both infinities and a finite value that is no zero. -/
theorem witness_OperationsAreCorrectlyRounded_infinite : F64.isInf 0x7FF0000000000000 = true ∧
    F64.isInf 0xFFF0000000000000 = true ∧ F64.isFinite 1 = true ∧ F64.isZero 1 = false := by decide
/-- An overflow, an exact zero difference, and a division. -/
theorem witness_OperationsAreCorrectlyRounded : F64.isFinite 0x7FEFFFFFFFFFFFFF = true ∧
    F64.isInf (F64.mul 0 0x7FEFFFFFFFFFFFFF 0x7FEFFFFFFFFFFFFF) = true ∧ F64.isFinite 0x3FF0000000000000 = true ∧
    F64.fixed 0x3FF0000000000000 - F64.fixed 0x3FF0000000000000 = 0 ∧ F64.isZero 0x3FF0000000000000 = false ∧
    F64.isFinite (F64.div 0 0x3FF0000000000000 0x3FF0000000000000) = true := by decide +kernel
theorem witness_SpecialValues : F64.isFinite 1 = true ∧ F64.isZero 1 = false ∧ F64.isZero 0x8000000000000000 = true ∧
    F64.isInf 0xFFF0000000000000 = true ∧ F64.isNan 0x7FF0000000000001 = true := by decide
theorem witness_NanDrawCoversQuietNans : F64.isNan 0xFFF8000000000000 = true ∧
    (0xFFF8000000000000#64).getLsbD 51 = true := by decide
theorem witness_ConditionalJumps : (single 0 []).current = some (plain 0) ∧
    ((Instr.jumpnull 9 = .jumpneg 9 ∧ true = F64.lt (plain 0).acc 0) ∨
      (Instr.jumpnull 9 = .jumppos 9 ∧ true = F64.lt 0 (plain 0).acc) ∨
      (Instr.jumpnull 9 = .jumpnull 9 ∧ true = F64.eq (plain 0).acc 0)) :=
  ⟨rfl, .inr (.inr ⟨rfl, by decide⟩)⟩
/-- A NaN, both zeros and an infinity. -/
theorem witness_ExactlyOneCondition : F64.isNan 0x7FF0000000000001 = true ∧ F64.isNan 0x7FF0000000000000 = false ∧
    F64.isFinite 0 = true ∧ F64.isFinite 0x8000000000000000 = true ∧ F64.isInf 0xFFF0000000000000 = true := by decide
theorem witness_PortRangeFault : (single 0 []).current = some (plain 0) ∧
    ((0xFFFFFFFF#32).toInt < 0 ∨ ((single 0 []).wiring.numPorts : Int) ≤ (0xFFFFFFFF#32).toInt) ∧
    ((4#32).toInt < 0 ∨ ((single 0 []).wiring.numPorts : Int) ≤ (4#32).toInt) := ⟨rfl, by decide, by decide⟩
/-- OUT -1 as the next instruction of a processor that is ready. -/
theorem witness_PortRangeFault_enabled :
    (plain 0x00000004_FFFFFFFF_00000000_00000000).ready = true ∧
    (plain 0x00000004_FFFFFFFF_00000000_00000000).nextInstr = some (.out 0xFFFFFFFF) ∧
    (single 0x00000004_FFFFFFFF_00000000_00000000 []).enabled 0 = true := by decide +kernel
/-- One clause each: IN with a line to come, and past the end of the feed. -/
theorem witness_PortInstructionsWaitForAPartner :
    (plain 0x00000003_00000000_00000000_00000000).ready = true ∧
    (plain 0x00000003_00000000_00000000_00000000).nextInstr = some (.in_ 0) ∧
    (single 0x00000003_00000000_00000000_00000000 [['1']]).enabled 0 = true ∧
    (single 0x00000003_00000000_00000000_00000000 []).enabled 0 = false := by decide +kernel
/-- A line that decodes and one that does not. -/
theorem witness_StdinFeed : (single 0 [['7']]).procs[0]? = some (plain 0) ∧ (0#32).toInt = ((0 : Nat) : Int) ∧
    0 < (single 0 [['7']]).wiring.numPorts ∧
    (single 0 [['7']]).wiring.stdinPort = some ⟨0, 0⟩ ∧
    decodeText (portNan (single 0 [['7']]).ticks) ['7'] = some 0x401C000000000000 ∧
    decodeText (portNan (single 0 [['7']]).ticks) ['x'] = none :=
  ⟨rfl, by decide, by decide, rfl, by decide +kernel, by decide +kernel⟩
/-- A processor with one word, in a valid wiring beside a second that can step, past the end of the feed. -/
def beside (w : InstrWord) : State :=
  { testState (plain w) [] with
    procs := [plain w, plain 0]
    wiring := { testWiring with ids := [['A'], ['B']] } }
theorem beside_valid : WiringValid { testWiring with ids := [['A'], ['B']] } 2 :=
  ⟨rfl, by decide, by decide, by decide, by decide⟩
/-- Processor 0 waits at IN past the end of the feed, or at OUT on the stdin port, while processor 1 takes a step. -/
theorem witness_StdinFeed_waits :
    WiringValid (beside 0x00000003_00000000_00000000_00000000).wiring 2 ∧
    (plain 0x00000003_00000000_00000000_00000000).nextInstr = some (.in_ 0) ∧
    (beside 0x00000003_00000000_00000000_00000000).stdin = [] ∧
    (∃ t, step (beside 0x00000003_00000000_00000000_00000000) = .next t) ∧
    (plain 0x00000004_00000000_00000000_00000000).nextInstr = some (.out 0) ∧
    ∃ t, step (beside 0x00000004_00000000_00000000_00000000) = .next t :=
  ⟨beside_valid, by decide +kernel, rfl, exists_next (by decide +kernel), by decide +kernel,
    exists_next (by decide +kernel)⟩
/-- Processor 0 waits at IN on the stdout port while processor 1 takes a step. -/
theorem witness_StdoutSink_waits :
    WiringValid (beside 0x00000003_00000001_00000000_00000000).wiring 2 ∧
    (plain 0x00000003_00000001_00000000_00000000).nextInstr = some (.in_ 1) ∧
    ∃ t, step (beside 0x00000003_00000001_00000000_00000000) = .next t :=
  ⟨beside_valid, by decide +kernel, exists_next (by decide +kernel)⟩
/-- A processor at `OUT 0`, one at `IN 0` and one at `IN 2`. -/
def sender : Proc := plain 0x00000004_00000000_00000000_00000000
def receiver : Proc := plain 0x00000003_00000000_00000000_00000000
def waiter : Proc := plain 0x00000003_00000002_00000000_00000000
/-- A sender and a receiver on the two ends of a channel, and a channel between two ports of one processor. -/
theorem witness_RendezvousTransfer :
    (testPair sender receiver).procs[0]? = some sender ∧ (testPair sender receiver).procs[1]? = some receiver ∧
    sender.ready = true ∧ receiver.ready = true ∧ sender.nextInstr = some (.out 0) ∧
    receiver.nextInstr = some (.in_ 0) ∧ bindingOf (testPair sender receiver).wiring ⟨0, 0⟩ = .channel ⟨1, 0⟩ ∧
    bindingOf (testPair sender receiver).wiring ⟨1, 0⟩ = .channel ⟨0, 0⟩ ∧
    0 < (testPair sender receiver).wiring.numPorts ∧
    bindingOf { Wiring.reset with channels := [(⟨0, 0⟩, ⟨0, 3⟩)] } ⟨0, 0⟩ = .channel ⟨0, 3⟩ :=
  ⟨rfl, rfl, by decide +kernel, by decide +kernel, by decide +kernel, by decide +kernel, by decide, by decide,
    by decide, by decide⟩
/-- One clause each: IN on the unbound port 2, and IN on a channel whose other end stands at OUT. -/
theorem witness_UnboundOrUnmatchedEndpointsStall :
    waiter.nextInstr = some (.in_ 2) ∧ bindingOf (testState waiter []).wiring ⟨0, 2⟩ = .unbound ∧
    receiver.nextInstr = some (.in_ 0) ∧ bindingOf (testPair sender receiver).wiring ⟨1, 0⟩ = .channel ⟨0, 0⟩ ∧
    (testPair sender receiver).enabled 1 = true :=
  ⟨by decide +kernel, by decide, by decide +kernel, by decide, by decide +kernel⟩
/-- Also of WireKeepsNumbers. -/
theorem witness_TextCodecRoundTrip : F64.isNan 0x8000000000000000 = false ∧ F64.isNan 0x7FF0000000000000 = false ∧
    F64.isNan 0xFFF0000000000001 = true := by decide
theorem witness_DumpregPeek : (single 0 []).current = some (plain 0) ∧ (single 0 []).wiring.dumpMode = .peek :=
  ⟨rfl, rfl⟩
theorem witness_DumpregThroughMmu :
    let s : State := { single 0 [] with wiring := { Wiring.reset with dumpMode := .viaMmu } }
    s.current = some (plain 0) ∧ s.wiring.dumpMode = .viaMmu ∧ (plain 0).mmu.Inv := ⟨rfl, rfl, Mmu.inv_reset⟩
theorem witness_DumpprogEmitsProgram : (single 0 []).current = some (plain 0) ∧ (plain 0).progLen = 1 := ⟨rfl, rfl⟩

/-- A configuration of two processors with a channel between them (vector W8's shape). -/
def testTopology : Topology where
  procs := [(['A'], "OUT 0\nSTOP".toList), (['B'], "IN 0\nFOO\nSTOP\n".toList)]
  connections := [(⟨['A'], 0⟩, ⟨['B'], 0⟩)]
  stdins := []
  stdouts := [⟨['B'], 1⟩]
  numPorts := 2
  dumpMode := .peek
  mem0 := [(5, 1), (65535, 2)]

def isOk {ε α : Type} : Except ε α → Bool
  | .ok _ => true
  | .error _ => false

theorem exists_ok {ε α : Type} {r : Except ε α} (h : isOk r = true) : ∃ a, r = .ok a := by
  cases r <;> simp_all [isOk]

/-- Also of BootMeetsInvariants and ConfigurationAcceptedExactlyIfSound. -/
theorem witness_BootGivesResetTable : ∃ s, boot testTopology [] = .ok s := exists_ok (by decide +kernel)
/-- The accepted configuration, and a source of 201 lines. -/
theorem witness_ProgramIsLoaded : (∃ s, boot testTopology [] = .ok s) ∧
    200 < (splitLines (List.replicate 201 '\n')).length := ⟨exists_ok (by decide +kernel), by decide +kernel⟩
/-- One clause each: no token, three tokens, an unknown mnemonic, and an operand of each form that parses or fails. -/
theorem witness_LinesAssemble : splitTokens [] = [] ∧
    splitTokens "LOAD 1 2".toList = ["LOAD".toList, "1".toList, "2".toList] ∧
    splitTokens "FOO 7".toList = ["FOO".toList, "7".toList] ∧
    splitTokens "MUL 7".toList = ["MUL".toList, "7".toList] ∧ tokenInt "7".toList = some 7 ∧
    tokenInt "2.5".toList = none ∧ tokenFloat "2.5".toList = some 0x4004000000000000 ∧
    tokenFloat "FOO".toList = none ∧ splitTokens "STOP".toList = ["STOP".toList] := by decide +kernel
/-- A source of no characters has no line, and one line break is one empty line (log entry 18, R108). -/
theorem test_empty_source : assemble [] = .ok [] ∧ assemble ['\n'] = .ok [0] := by decide
/-- A NUM_PORTS of 0, an id declared twice, a port out of range, an endpoint bound twice, a line that is refused. -/
theorem test_boot_refuses :
    isOk (boot { testTopology with numPorts := 0 } []) = false ∧
    isOk (boot { testTopology with procs := testTopology.procs ++ testTopology.procs } []) = false ∧
    isOk (boot { testTopology with numPorts := 1 } []) = false ∧
    isOk (boot { testTopology with stdins := [⟨['A'], 0⟩] } []) = false ∧
    isOk (boot { testTopology with procs := [(['A'], "JUMP x".toList), (['B'], [])] } []) = false := by decide +kernel

end Sys2Proof.Tests
end

section
/-! PROOFS. Rounding to nearest, ties to even (R200). Every step of `F64.roundMag` is read off one fact: the exact value
lies between the values of two neighbouring magnitudes, and the result is the nearer of the two. -/

namespace Sys2Proof.Machine

open Sys2Proof

/-! ## Sign and magnitude of a bit pattern -/

@[simp] theorem F64.mag_ofMag (neg : Bool) {m : Nat} (h : m < 2 ^ 63) : F64.mag (F64.ofMag neg m) = m := by
  rw [F64.mag, F64.ofMag, BitVec.toNat_ofNat]
  cases neg <;> simp only [Bool.false_eq_true, if_true, if_false] <;> omega

@[simp] theorem F64.sign_ofMag (neg : Bool) {m : Nat} (h : m < 2 ^ 63) : F64.sign (F64.ofMag neg m) = neg := by
  rw [F64.sign, F64.ofMag, BitVec.msb_eq_decide, BitVec.toNat_ofNat]
  cases neg <;> simp only [Bool.false_eq_true, if_true, if_false, decide_eq_true_eq, decide_eq_false_iff_not] <;> omega

theorem F64.infMag_lt : F64.infMag < 2 ^ 63 := by decide

/-! ## The value of a magnitude -/

/-- The value of magnitude bits in units of 2^-1074, read past the infinity as if the binades went on. -/
def F64.magUnits (m : Nat) : Nat :=
  if m / 2 ^ 52 = 0 then m % 2 ^ 52 else (2 ^ 52 + m % 2 ^ 52) * 2 ^ (m / 2 ^ 52 - 1)

theorem F64.units_eq_magUnits (x : F64) : F64.units x = F64.magUnits (F64.mag x) := rfl

theorem F64.units_ofMag (neg : Bool) {m : Nat} (h : m < 2 ^ 63) : F64.units (F64.ofMag neg m) = F64.magUnits m := by
  rw [F64.units_eq_magUnits, F64.mag_ofMag neg h]

/-- A significand `q` of at most 53 bits and its `e` dropped places as one magnitude, a significand that a carry has
brought to 2^53 included. -/
theorem F64.magUnits_binade {e q : Nat} (hq : q ≤ 2 ^ 53) (he : e = 0 ∨ 2 ^ 52 ≤ q) :
    F64.magUnits (e * 2 ^ 52 + q) = q * 2 ^ e := by
  obtain hsub | hnorm | hcarry : (e = 0 ∧ q < 2 ^ 52) ∨ (2 ^ 52 ≤ q ∧ q < 2 ^ 53) ∨ q = 2 ^ 53 := by omega
  · rw [F64.magUnits, if_pos (by omega), hsub.1, pow_zero]
    omega
  · have hdiv : (e * 2 ^ 52 + q) / 2 ^ 52 = e + 1 := by omega
    have hmod : 2 ^ 52 + (e * 2 ^ 52 + q) % 2 ^ 52 = q := by omega
    rw [F64.magUnits, hdiv, hmod, if_neg (by omega), Nat.add_sub_cancel]
  · have hdiv : (e * 2 ^ 52 + q) / 2 ^ 52 = e + 2 := by omega
    have hmod : 2 ^ 52 + (e * 2 ^ 52 + q) % 2 ^ 52 = 2 ^ 52 := by omega
    rw [F64.magUnits, hdiv, hmod, if_neg (by omega), hcarry, show e + 2 - 1 = e + 1 by omega]
    ring

/-- Greater magnitude bits are a greater value. -/
theorem F64.magUnits_strictMono : StrictMono F64.magUnits := by
  refine strictMono_nat_of_lt_succ fun m => ?_
  obtain ⟨e, q, rfl, hq, he⟩ : ∃ e q, m = e * 2 ^ 52 + q ∧ q < 2 ^ 53 ∧ (e = 0 ∨ 2 ^ 52 ≤ q) :=
    ⟨m / 2 ^ 52 - 1, m - (m / 2 ^ 52 - 1) * 2 ^ 52, by omega, by omega, by omega⟩
  rw [add_assoc, F64.magUnits_binade (by omega) he, F64.magUnits_binade (by omega) (by omega)]
  exact Nat.mul_lt_mul_of_pos_right (Nat.lt_succ_self q) (Nat.two_pow_pos e)

@[simp] theorem F64.magUnits_zero : F64.magUnits 0 = 0 := by decide

/-- The threshold of an overflow is half way between the largest finite magnitude and the infinity after it. -/
theorem F64.overflow_halfway :
    F64.magUnits (F64.infMag - 1) + F64.magUnits F64.infMag = 2 * ((2 ^ 54 - 1) * 2 ^ 2044) := by
  rw [show F64.infMag - 1 = 2045 * 2 ^ 52 + (2 ^ 53 - 1) by decide, show F64.infMag = 2045 * 2 ^ 52 + 2 ^ 53 by decide,
    F64.magUnits_binade (by decide) (by decide), F64.magUnits_binade (by decide) (by decide),
    pow_succ 2 2044]
  generalize 2 ^ 2044 = p
  omega

/-! ## The significand that `roundMag` keeps -/

/-- After the dropped places at most 53 bits are left. -/
theorem significand_lt (n : Nat) : n / 2 ^ (Nat.log2 n - 52) < 2 ^ 53 := by
  rw [Nat.div_lt_iff_lt_mul (Nat.two_pow_pos _), ← pow_add]
  exact Nat.lt_log2_self.trans_le (Nat.pow_le_pow_right (by decide) (by omega))

/-- Where a place is dropped, all 53 bits are left. -/
theorem le_significand {n : Nat} (h : Nat.log2 n - 52 ≠ 0) : 2 ^ 52 ≤ n / 2 ^ (Nat.log2 n - 52) := by
  have hn : n ≠ 0 := by rintro rfl; exact h (by decide)
  rw [Nat.le_div_iff_mul_le (Nat.two_pow_pos _), ← pow_add, show 52 + (Nat.log2 n - 52) = Nat.log2 n by omega]
  exact Nat.log2_self_le hn

/-- num/den lies above the middle between the magnitudes `m` and `m + 1`, or on it with `m` odd. -/
def F64.RoundsUp (num den m : Nat) : Prop :=
  (F64.magUnits m + F64.magUnits (m + 1)) * den < 2 * num ∨
    ((F64.magUnits m + F64.magUnits (m + 1)) * den = 2 * num ∧ m % 2 = 1)

/-- What `roundMag` does: the exact value lies between the values of the magnitudes `m` and `m + 1`, and the one of them
that `RoundsUp` names is the result, an infinity past the largest finite one. -/
theorem F64.roundMag_eq (num : Nat) {den : Nat} (hden : 0 < den) :
    ∃ m, F64.magUnits m * den ≤ num ∧ num < F64.magUnits (m + 1) * den ∧
      (F64.RoundsUp num den m → F64.roundMag num den = min F64.infMag (m + 1)) ∧
      (¬F64.RoundsUp num den m → F64.roundMag num den = min F64.infMag m) := by
  set e := Nat.log2 (num / den) - 52 with he
  set d := den * 2 ^ e with hd
  set q := num / d with hq
  have hqn : q = num / den / 2 ^ e := by rw [hq, hd, Nat.div_div_eq_div_mul]
  have hlt : q < 2 ^ 53 := hqn ▸ significand_lt _
  have hge : e = 0 ∨ 2 ^ 52 ≤ q := or_iff_not_imp_left.2 fun h => hqn ▸ le_significand h
  have hnum : d * q + num % d = num := Nat.div_add_mod num d
  have hrem : num % d < d := Nat.mod_lt _ (Nat.mul_pos hden (Nat.two_pow_pos e))
  have hlo : F64.magUnits (e * 2 ^ 52 + q) * den = d * q := by
    rw [F64.magUnits_binade (by omega) hge, hd]; ring
  have hhi : F64.magUnits (e * 2 ^ 52 + q + 1) * den = d * q + d := by
    rw [add_assoc, F64.magUnits_binade (by omega) (by omega), hd]; ring
  have hup : F64.RoundsUp num den (e * 2 ^ 52 + q) ↔ d < 2 * (num % d) ∨ (2 * (num % d) = d ∧ q % 2 = 1) := by
    rw [F64.RoundsUp, Nat.add_mul, hlo, hhi]
    omega
  have hround : F64.roundMag num den = min F64.infMag
      (e * 2 ^ 52 + if d < 2 * (num % d) ∨ (2 * (num % d) = d ∧ q % 2 = 1) then q + 1 else q) := rfl
  refine ⟨e * 2 ^ 52 + q, by omega, by omega, fun h => ?_, fun h => ?_⟩
  · rw [hround, if_pos (hup.1 h), add_assoc]
  · rw [hround, if_neg fun hc => h (hup.2 hc)]

/-- `roundMag` gives magnitude bits up to those of an infinity. -/
theorem F64.roundMag_le (num den : Nat) : F64.roundMag num den ≤ F64.infMag := Nat.min_le_left _ _

/-- An overflow happens exactly from half a unit in the last place above the largest finite value. -/
theorem F64.roundMag_eq_infMag (num : Nat) {den : Nat} (hden : 0 < den) :
    F64.roundMag num den = F64.infMag ↔ (2 ^ 54 - 1) * 2 ^ 2044 * den ≤ num := by
  obtain ⟨m, hlo, hhi, hup, hdown⟩ := F64.roundMag_eq num hden
  have hresult : F64.roundMag num den = min F64.infMag (m + 1) ∨ F64.roundMag num den = min F64.infMag m :=
    (em (F64.RoundsUp num den m)).imp hup hdown
  have hhalf := congrArg (· * den) F64.overflow_halfway
  simp only [Nat.add_mul, Nat.mul_assoc 2] at hhalf
  generalize (2 ^ 54 - 1) * 2 ^ 2044 * den = t at hhalf ⊢
  have hmono : ∀ {a b}, a ≤ b → F64.magUnits a * den ≤ F64.magUnits b * den := fun h =>
    Nat.mul_le_mul_right den (F64.magUnits_strictMono.monotone h)
  have htop := hmono (Nat.sub_le F64.infMag 1)
  have hinf : 0 < F64.infMag := by decide
  have hodd : (F64.infMag - 1) % 2 = 1 := by decide
  obtain hbelow | hlast | habove : m < F64.infMag - 1 ∨ m = F64.infMag - 1 ∨ F64.infMag ≤ m := by omega
  · have hle := hmono (show m + 1 ≤ F64.infMag - 1 by omega)
    omega
  · have hiff : F64.RoundsUp num den m ↔ t ≤ num := by
      rw [F64.RoundsUp, hlast, Nat.sub_add_cancel hinf, Nat.add_mul]
      omega
    rw [← hiff]
    by_cases h : F64.RoundsUp num den m
    · simp only [h, iff_true]
      rw [hup h]
      omega
    · simp only [h, iff_false]
      rw [hdown h]
      omega
  · have hle := hmono habove
    omega

/-- A finite result is at least as near to the exact value as any magnitude, and even where another is equally near. -/
theorem F64.roundMag_nearest {num den : Nat} (hden : 0 < den) (hfin : F64.roundMag num den < F64.infMag) (n : Nat) :
    |(F64.magUnits (F64.roundMag num den) : Int) * den - num| ≤ |(F64.magUnits n : Int) * den - num| ∧
    (|(F64.magUnits (F64.roundMag num den) : Int) * den - num| = |(F64.magUnits n : Int) * den - num| →
      n = F64.roundMag num den ∨ F64.roundMag num den % 2 = 0) := by
  obtain ⟨m, hlo, hhi, hup, hdown⟩ := F64.roundMag_eq num hden
  have hmono : ∀ {a b}, a < b → F64.magUnits a * den < F64.magUnits b * den := fun h =>
    Nat.mul_lt_mul_of_pos_right (F64.magUnits_strictMono h) hden
  have hbelow : n < m → F64.magUnits n * den < F64.magUnits m * den := hmono
  have habove : m + 1 < n → F64.magUnits (m + 1) * den < F64.magUnits n * den := hmono
  have hside : n < m ∨ n = m ∨ n = m + 1 ∨ m + 1 < n := by omega
  simp only [← Nat.cast_mul, Int.abs_eq_natAbs]
  by_cases h : F64.RoundsUp num den m
  · have hr : F64.roundMag num den = m + 1 := by rw [hup h] at hfin ⊢; omega
    rw [F64.RoundsUp, Nat.add_mul] at h
    rw [hr]
    obtain hn | rfl | rfl | hn := hside <;> omega
  · have hr : F64.roundMag num den = m := by rw [hdown h] at hfin ⊢; omega
    rw [F64.RoundsUp, Nat.add_mul] at h
    rw [hr]
    obtain hn | rfl | rfl | hn := hside <;> omega

/-- Settles O39: the value lies between two neighbouring magnitudes, of which `roundMag` takes the nearer. -/
theorem roundingIsNearestEven : Obligations.RoundingIsNearestEven := by
  intro num den hden
  refine ⟨F64.roundMag_eq_infMag num hden, fun hfin m hm => ?_⟩
  rw [F64.units_ofMag false (hfin.trans F64.infMag_lt), F64.units_ofMag false (hm.trans F64.infMag_lt)]
  exact F64.roundMag_nearest hden hfin m

end Sys2Proof.Machine
end

section
/-! PROOFS. The four operations: correct rounding of finite operands (R200), and IEEE 754's results with an infinite one
(R203). -/

namespace Sys2Proof.Machine

open Sys2Proof

/-! ## Classes of values -/

theorem F64.isNan_of_isFinite {x : F64} (h : F64.isFinite x = true) : F64.isNan x = false := by
  simp only [F64.isFinite, F64.isNan, decide_eq_true_eq, decide_eq_false_iff_not] at *; omega

theorem F64.isInf_of_isFinite {x : F64} (h : F64.isFinite x = true) : F64.isInf x = false := by
  simp only [F64.isFinite, F64.isInf, decide_eq_true_eq, decide_eq_false_iff_not] at *; omega

theorem F64.isNan_of_isInf {x : F64} (h : F64.isInf x = true) : F64.isNan x = false := by
  simp only [F64.isInf, F64.isNan, decide_eq_true_eq, decide_eq_false_iff_not] at *; omega

theorem F64.isZero_of_isInf {x : F64} (h : F64.isInf x = true) : F64.isZero x = false := by
  rw [F64.isZero, of_decide_eq_true h, decide_eq_false (by decide)]

@[simp] theorem F64.isInf_ofMag_infMag (neg : Bool) : F64.isInf (F64.ofMag neg F64.infMag) = true := by
  rw [F64.isInf, F64.mag_ofMag neg F64.infMag_lt, decide_eq_true rfl]

@[simp] theorem F64.sign_ofMag_infMag (neg : Bool) : F64.sign (F64.ofMag neg F64.infMag) = neg :=
  F64.sign_ofMag neg F64.infMag_lt

@[simp] theorem F64.isZero_ofMag_zero (neg : Bool) : F64.isZero (F64.ofMag neg 0) = true := by
  rw [F64.isZero, F64.mag_ofMag neg (by decide), decide_eq_true rfl]

@[simp] theorem F64.sign_ofMag_zero (neg : Bool) : F64.sign (F64.ofMag neg 0) = neg :=
  F64.sign_ofMag neg (by decide)

/-! ## Negation -/

@[simp] theorem F64.sign_neg (x : F64) : F64.sign (F64.neg x) = !F64.sign x := by
  simp only [F64.sign, F64.neg, BitVec.msb_xor]
  rw [show (1#64 <<< 63).msb = true by decide, Bool.xor_true]

@[simp] theorem F64.mag_neg (x : F64) : F64.mag (F64.neg x) = F64.mag x := by
  rw [F64.mag, F64.mag, F64.neg, BitVec.toNat_xor, Nat.xor_mod_two_pow,
    show (1#64 <<< 63).toNat % 2 ^ 63 = 0 by decide, Nat.xor_zero]

@[simp] theorem F64.fixed_neg (x : F64) : F64.fixed (F64.neg x) = -F64.fixed x := by
  rw [F64.fixed, F64.fixed, F64.sign_neg, F64.units_eq_magUnits, F64.units_eq_magUnits, F64.mag_neg]
  cases F64.sign x <;> simp

@[simp] theorem F64.isFinite_neg (x : F64) : F64.isFinite (F64.neg x) = F64.isFinite x := by
  rw [F64.isFinite, F64.isFinite, F64.mag_neg]

@[simp] theorem F64.isInf_neg (x : F64) : F64.isInf (F64.neg x) = F64.isInf x := by
  rw [F64.isInf, F64.isInf, F64.mag_neg]

/-! ## Signed values -/

@[simp] theorem F64.natAbs_fixed (x : F64) : (F64.fixed x).natAbs = F64.units x := by
  rw [F64.fixed]; split <;> simp

/-- The sign bit of a value that is not 0 is its sign. -/
theorem F64.sign_of_fixed_ne_zero {x : F64} (h : F64.fixed x ≠ 0) : F64.sign x = decide (F64.fixed x < 0) := by
  rw [F64.fixed] at h ⊢
  cases hs : F64.sign x
  · simp
  · rw [hs, if_pos rfl] at h
    rw [if_pos rfl, eq_comm, decide_eq_true_eq]
    omega

/-- Only the zeros have the value 0. -/
theorem F64.units_pos {x : F64} (h : F64.isZero x = false) : 0 < F64.units x := by
  have hm : 0 < F64.mag x := Nat.pos_of_ne_zero (of_decide_eq_false h)
  have := F64.magUnits_strictMono hm
  rwa [F64.magUnits_zero] at this

@[simp] theorem F64.roundMag_zero (den : Nat) : F64.roundMag 0 den = 0 := by
  simp [F64.roundMag]

theorem F64.fixed_ofMag (neg : Bool) {m : Nat} (h : m < 2 ^ 63) :
    F64.fixed (F64.ofMag neg m) = if neg then -(F64.magUnits m : Int) else (F64.magUnits m : Int) := by
  rw [F64.fixed, F64.sign_ofMag neg h, F64.units_ofMag neg h]

/-- The magnitude that rounds an exact magnitude, with the sign of the exact value, is correctly rounded. -/
theorem F64.roundsTo_ofMag {neg : Bool} {num : Int} {den : Nat} (hden : 0 < den)
    (hsign : num ≠ 0 → neg = decide (num < 0)) :
    F64.RoundsTo (F64.ofMag neg (F64.roundMag num.natAbs den)) num den := by
  have hle := F64.roundMag_le num.natAbs den
  have hlt := hle.trans_lt F64.infMag_lt
  have hmag := F64.mag_ofMag neg hlt
  have hsgn := F64.sign_ofMag neg hlt
  refine ⟨?_, ?_, fun h => hsgn.trans (hsign h), hmag, fun hfin x hx => ?_⟩
  · rw [F64.isNan, hmag, decide_eq_false_iff_not]
    omega
  · rw [F64.isInf, hmag, decide_eq_true_eq]
    exact F64.roundMag_eq_infMag _ hden
  · rw [F64.isFinite, hmag, decide_eq_true_eq] at hfin
    have hown : |F64.fixed (F64.ofMag neg (F64.roundMag num.natAbs den)) * den - num| =
        |(F64.magUnits (F64.roundMag num.natAbs den) : Int) * den - (num.natAbs : Int)| := by
      rw [F64.fixed_ofMag neg hlt]
      obtain hneg | rfl | hpos := lt_trichotomy num 0
      · rw [hsign hneg.ne, decide_eq_true hneg, if_pos rfl, Int.ofNat_natAbs_of_nonpos hneg.le, ← abs_neg]
        ring_nf
      · simp
      · rw [hsign hpos.ne', decide_eq_false hpos.not_gt, if_neg Bool.false_ne_true, Int.natAbs_of_nonneg hpos.le]
    calc _ = _ := hown
      _ ≤ |(F64.magUnits (F64.mag x) : Int) * den - (num.natAbs : Int)| :=
        (F64.roundMag_nearest hden hfin (F64.mag x)).1
      _ = |(|F64.fixed x * den| - |num|)| := by
        rw [abs_mul, Nat.abs_cast, Int.abs_eq_natAbs (F64.fixed x), F64.natAbs_fixed, Int.abs_eq_natAbs num,
          F64.units_eq_magUnits]
      _ ≤ |F64.fixed x * den - num| := abs_abs_sub_abs_le _ _

/-! ## Finite operands -/

/-- Both branches of a finite sum, the exact zero and the rounded one, as one. -/
theorem F64.add_eq_of_finite (nan : F64) {a b : F64} (ha : F64.isFinite a = true) (hb : F64.isFinite b = true) :
    F64.add nan a b = F64.ofMag
      (if F64.fixed a + F64.fixed b = 0 then F64.sign a && F64.sign b else decide (F64.fixed a + F64.fixed b < 0))
      (F64.roundMag (F64.fixed a + F64.fixed b).natAbs 1) := by
  simp only [F64.add, F64.isNan_of_isFinite ha, F64.isNan_of_isFinite hb, F64.isInf_of_isFinite ha,
    F64.isInf_of_isFinite hb, Bool.or_false, Bool.false_eq_true, if_false]
  split
  next h => rw [h, Int.natAbs_zero, F64.roundMag_zero]
  next => rfl

theorem F64.roundsTo_add (nan : F64) {a b : F64} (ha : F64.isFinite a = true) (hb : F64.isFinite b = true) :
    F64.RoundsTo (F64.add nan a b) (F64.fixed a + F64.fixed b) 1 := by
  rw [F64.add_eq_of_finite nan ha hb]
  exact F64.roundsTo_ofMag Nat.one_pos fun h => if_neg h

theorem F64.sign_add_of_zero (nan : F64) {a b : F64} (ha : F64.isFinite a = true) (hb : F64.isFinite b = true)
    (h : F64.fixed a + F64.fixed b = 0) : F64.sign (F64.add nan a b) = (F64.sign a && F64.sign b) := by
  rw [F64.add_eq_of_finite nan ha hb, if_pos h, h, Int.natAbs_zero, F64.roundMag_zero, F64.sign_ofMag_zero]

theorem F64.sign_roundMag (neg : Bool) (num den : Nat) : F64.sign (F64.ofMag neg (F64.roundMag num den)) = neg :=
  F64.sign_ofMag neg ((F64.roundMag_le num den).trans_lt F64.infMag_lt)

theorem F64.mul_eq_of_finite (nan : F64) {a b : F64} (ha : F64.isFinite a = true) (hb : F64.isFinite b = true) :
    F64.mul nan a b =
      F64.ofMag (F64.sign a != F64.sign b) (F64.roundMag (F64.units a * F64.units b) (2 ^ 1074)) := by
  simp only [F64.mul, F64.isNan_of_isFinite ha, F64.isNan_of_isFinite hb, F64.isInf_of_isFinite ha,
    F64.isInf_of_isFinite hb, Bool.false_and, Bool.and_false, Bool.or_false, Bool.false_eq_true, if_false]

theorem F64.div_eq_of_finite (nan : F64) {a b : F64} (ha : F64.isFinite a = true) (hb : F64.isFinite b = true)
    (hz : F64.isZero b = false) :
    F64.div nan a b =
      F64.ofMag (F64.sign a != F64.sign b) (F64.roundMag (F64.units a * 2 ^ 1074) (F64.units b)) := by
  simp only [F64.div, F64.isNan_of_isFinite ha, F64.isNan_of_isFinite hb, F64.isInf_of_isFinite ha,
    F64.isInf_of_isFinite hb, hz, Bool.and_false, Bool.or_false, Bool.false_eq_true, if_false]

/-- A product that is not 0 is negative exactly if one factor alone is. -/
theorem decide_mul_neg {x y : Int} (hx : x ≠ 0) (hy : y ≠ 0) :
    decide (x * y < 0) = (decide (x < 0) != decide (y < 0)) := by
  rw [Bool.eq_iff_iff]
  simp only [bne_iff_ne, ne_eq, decide_eq_decide, decide_eq_true_eq, Int.mul_neg_iff]
  omega

/-- Scaling a number and giving it another's sign scales its magnitude. -/
theorem natAbs_mul_two_pow_mul_sign {x y : Int} {n : Nat} (hy : y ≠ 0) :
    (x * 2 ^ n * y.sign).natAbs = x.natAbs * 2 ^ n := by
  rw [Int.natAbs_mul, Int.natAbs_mul, Int.natAbs_sign_of_ne_zero hy, Int.natAbs_pow, mul_one]
  rfl

theorem F64.roundsTo_mul (nan : F64) {a b : F64} (ha : F64.isFinite a = true) (hb : F64.isFinite b = true) :
    F64.RoundsTo (F64.mul nan a b) (F64.fixed a * F64.fixed b) (2 ^ 1074) := by
  rw [F64.mul_eq_of_finite nan ha hb, ← F64.natAbs_fixed a, ← F64.natAbs_fixed b, ← Int.natAbs_mul]
  refine F64.roundsTo_ofMag (pow_pos Nat.two_pos _) fun h => ?_
  obtain ⟨ha', hb'⟩ := mul_ne_zero_iff.1 h
  rw [F64.sign_of_fixed_ne_zero ha', F64.sign_of_fixed_ne_zero hb', decide_mul_neg ha' hb']

theorem F64.roundsTo_div (nan : F64) {a b : F64} (ha : F64.isFinite a = true) (hb : F64.isFinite b = true)
    (hz : F64.isZero b = false) :
    F64.RoundsTo (F64.div nan a b) (F64.fixed a * 2 ^ 1074 * (F64.fixed b).sign) (F64.fixed b).natAbs := by
  have hpos := F64.units_pos hz
  have hb' : F64.fixed b ≠ 0 := by rw [← Int.natAbs_pos, F64.natAbs_fixed]; exact hpos
  have hscale : (0 : Int) < 2 ^ 1074 := pow_pos (by decide) _
  have hnum : (F64.fixed a * 2 ^ 1074 * (F64.fixed b).sign).natAbs = F64.units a * 2 ^ 1074 := by
    rw [natAbs_mul_two_pow_mul_sign hb', F64.natAbs_fixed]
  rw [F64.div_eq_of_finite nan ha hb hz, F64.natAbs_fixed, ← hnum]
  refine F64.roundsTo_ofMag hpos fun h => ?_
  obtain ⟨hscaled, hsign⟩ := mul_ne_zero_iff.1 h
  have ha' := left_ne_zero_of_mul hscaled
  rw [decide_mul_neg hscaled hsign, decide_mul_neg ha' hscale.ne', decide_eq_false hscale.not_gt, Bool.bne_false,
    decide_eq_decide.2 Int.sign_neg_iff, F64.sign_of_fixed_ne_zero ha', F64.sign_of_fixed_ne_zero hb']

/-! ## Infinite operands -/

section
variable (nan : F64) {i j c : F64}

theorem F64.add_inf_finite (hi : F64.isInf i = true) (hc : F64.isFinite c = true) : F64.add nan i c = i := by
  simp [F64.add, hi, F64.isNan_of_isInf hi, F64.isNan_of_isFinite hc, F64.isInf_of_isFinite hc]

theorem F64.add_finite_inf (hc : F64.isFinite c = true) (hi : F64.isInf i = true) : F64.add nan c i = i := by
  simp [F64.add, hi, F64.isNan_of_isInf hi, F64.isNan_of_isFinite hc, F64.isInf_of_isFinite hc]

theorem F64.add_inf_inf (hi : F64.isInf i = true) (hj : F64.isInf j = true) :
    F64.add nan i j = if F64.sign i = F64.sign j then i else nan := by
  simp [F64.add, hi, hj, F64.isNan_of_isInf hi, F64.isNan_of_isInf hj]

/-- A product with an infinity, but for the invalid one with a zero. -/
theorem F64.mul_of_isInf (ha : F64.isNan i = false) (hb : F64.isNan j = false)
    (hinf : (F64.isInf i || F64.isInf j) = true) (hi : F64.isZero i = false) (hj : F64.isZero j = false) :
    F64.mul nan i j = F64.ofMag (F64.sign i != F64.sign j) F64.infMag := by
  simp only [F64.mul, ha, hb, hinf, hi, hj, Bool.or_self, Bool.and_false, Bool.false_and, Bool.false_eq_true, if_false,
    if_true]

theorem F64.div_inf_finite (hi : F64.isInf i = true) (hc : F64.isFinite c = true) :
    F64.div nan i c = F64.ofMag (F64.sign i != F64.sign c) F64.infMag := by
  simp [F64.div, hi, F64.isNan_of_isInf hi, F64.isNan_of_isFinite hc, F64.isInf_of_isFinite hc, F64.isZero_of_isInf hi]

theorem F64.div_finite_inf (hc : F64.isFinite c = true) (hi : F64.isInf i = true) :
    F64.div nan c i = F64.ofMag (F64.sign c != F64.sign i) 0 := by
  simp [F64.div, hi, F64.isNan_of_isInf hi, F64.isNan_of_isFinite hc, F64.isInf_of_isFinite hc, F64.isZero_of_isInf hi]

theorem F64.div_inf_inf (hi : F64.isInf i = true) (hj : F64.isInf j = true) : F64.div nan i j = nan := by
  simp [F64.div, hi, hj]

end

/-- Settles O40: a finite result is `ofMag` of the rounded exact magnitude, and the results with an infinite operand are
the rows of the operations' definitions that stand before the rounding. -/
theorem operationsAreCorrectlyRounded : Obligations.OperationsAreCorrectlyRounded := by
  refine ⟨fun nan a b ha hb => ?_, fun nan i c hi hc => ?_, fun nan i j hi hj => ?_⟩
  · have hb' : F64.isFinite (F64.neg b) = true := by rwa [F64.isFinite_neg]
    have hsub := F64.roundsTo_add nan ha hb'
    have hsubZero := F64.sign_add_of_zero nan ha hb'
    rw [F64.fixed_neg, ← sub_eq_add_neg] at hsub hsubZero
    rw [F64.sign_neg] at hsubZero
    refine ⟨F64.roundsTo_add nan ha hb, F64.sign_add_of_zero nan ha hb, hsub, hsubZero,
      F64.roundsTo_mul nan ha hb, ?_, fun hz => ⟨F64.roundsTo_div nan ha hb hz, ?_⟩⟩
    · rw [F64.mul_eq_of_finite nan ha hb, F64.sign_roundMag]
    · rw [F64.div_eq_of_finite nan ha hb hz, F64.sign_roundMag]
  · have hi' := F64.isNan_of_isInf hi
    have hc' := F64.isNan_of_isFinite hc
    have hineg : F64.isInf (F64.neg i) = true := by rwa [F64.isInf_neg]
    have hsub : F64.sub nan c i = F64.neg i := F64.add_finite_inf nan hc hineg
    refine ⟨F64.add_inf_finite nan hi hc, F64.add_finite_inf nan hc hi,
      F64.add_inf_finite nan hi (by rwa [F64.isFinite_neg]), ?_, ?_, fun hz => ?_, ?_, ?_, ?_, ?_⟩
    · rw [hsub, hineg]
    · rw [hsub, F64.sign_neg]
    · rw [F64.mul_of_isInf nan hi' hc' (by simp [hi]) (F64.isZero_of_isInf hi) hz,
        F64.mul_of_isInf nan hc' hi' (by simp [hi]) hz (F64.isZero_of_isInf hi)]
      simp only [F64.isInf_ofMag_infMag, F64.sign_ofMag_infMag, bne_comm (a := F64.sign c), and_self]
    · rw [F64.div_inf_finite nan hi hc, F64.isInf_ofMag_infMag]
    · rw [F64.div_inf_finite nan hi hc, F64.sign_ofMag_infMag]
    · rw [F64.div_finite_inf nan hc hi, F64.isZero_ofMag_zero]
    · rw [F64.div_finite_inf nan hc hi, F64.sign_ofMag_zero, bne_comm]
  · have hjneg : F64.isInf (F64.neg j) = true := by rwa [F64.isInf_neg]
    have hmul := F64.mul_of_isInf nan (F64.isNan_of_isInf hi) (F64.isNan_of_isInf hj) (by simp [hi])
      (F64.isZero_of_isInf hi) (F64.isZero_of_isInf hj)
    refine ⟨F64.add_inf_inf nan hi hj, ?_, ?_, ?_, F64.div_inf_inf nan hi hj⟩
    · rw [F64.sub, F64.add_inf_inf nan hi hjneg, F64.sign_neg]
      cases F64.sign i <;> cases F64.sign j <;> rfl
    · rw [hmul, F64.isInf_ofMag_infMag]
    · rw [hmul, F64.sign_ofMag_infMag]

end Sys2Proof.Machine
end

section
/-! PROOFS. A processor's Memory Engine and dump sink change in its own steps only (R80). -/

namespace Sys2Proof.Machine

open Sys2Proof

/-- A transfer touches neither Memory Engine nor dump sink of any processor, sender and receiver included. -/
theorem State.transfer_memory {s : State} {src dst : Endpoint} {p q r : Proc} {j : Nat}
    (hp : s.procs[src.proc]? = some p) (hq : s.procs[dst.proc]? = some q) (hr : s.procs[j]? = some r) :
    ∃ r', (s.transfer src p dst q).procs[j]? = some r' ∧ r'.mmu = r.mmu ∧ r'.dumpOut = r.dumpOut := by
  obtain ⟨hlt, -⟩ := List.getElem?_eq_some_iff.1 hr
  simp only [State.transfer, List.getElem?_set, List.length_set]
  by_cases hd : dst.proc = j
  · subst hd
    obtain rfl : q = r := by simpa [hq] using hr
    exact ⟨_, by rw [if_pos rfl, if_pos hlt], by simp, by simp⟩
  · rw [if_neg hd]
    by_cases hs : src.proc = j
    · subst hs
      obtain rfl : p = r := by simpa [hp] using hr
      exact ⟨_, by rw [if_pos rfl, if_pos hlt], by simp, by simp⟩
    · exact ⟨r, by rw [if_neg hs, hr], rfl, rfl⟩

/-- Each effect of a step leaves the memory of every processor but the one of the turn as it was. -/
theorem Effect.others_memory {s t : State} (h : Effect s t) {j : Nat} {p : Proc} (hj : j ≠ s.turn)
    (hp : s.procs[j]? = some p) : ∃ p', t.procs[j]? = some p' ∧ p'.mmu = p.mmu ∧ p'.dumpOut = p.dumpOut := by
  have hset : ∀ p' : Proc, (s.procs.set s.turn p')[j]? = some p := fun p' => by
    rw [List.getElem?_set_ne hj.symm, hp]
  cases h with
  | alone _ _ => exact ⟨p, hset _, rfl, rfl⟩
  | line _ _ => exact ⟨p, hset _, rfl, rfl⟩
  | badLine _ _ => exact ⟨p, hset _, rfl, rfl⟩
  | print _ => exact ⟨p, hset _, rfl, rfl⟩
  | transfer hsender hreceiver _ _ => exact State.transfer_memory hsender hreceiver hp

/-- Settles O18, effect by effect of a step. -/
theorem otherMemoriesUntouched : Obligations.OtherMemoriesUntouched := by
  intro s t j k p hk hstep hjk hp
  obtain ⟨k', u, hk', -, heffect, rfl⟩ := step_effect hstep
  obtain rfl : k = k' := Option.some.inj (hk.symm.trans hk')
  exact heffect.others_memory hjk hp

end Sys2Proof.Machine
end

section
/-! PROOFS. Which configurations are accepted (R242): each stage of `boot` succeeds exactly on its own conditions. -/

namespace Sys2Proof.Machine

open Sys2Proof

/-! ## Programs (R108 to R111) -/

theorem assembleLines_ok_iff {lines : List Text} :
    (∃ ws, assembleLines lines = .ok ws) ↔ ∀ line ∈ lines, ∃ w, assembleLine line = .ok w := by
  induction lines with
  | nil => simp [assembleLines]
  | cons l ls ih =>
    rw [List.forall_mem_cons, ← ih, assembleLines]
    cases assembleLine l with
    | error e => simp
    | ok w => cases assembleLines ls <;> simp

theorem assemble_ok_iff {source : Text} :
    (∃ ws, assemble source = .ok ws) ↔
      (splitLines source).length ≤ 200 ∧ ∀ line ∈ splitLines source, ∃ w, assembleLine line = .ok w := by
  rw [← assembleLines_ok_iff, assemble]
  by_cases h : 200 < (splitLines source).length
  · simp [h]
  · simp only [if_neg h, Nat.not_lt.1 h, true_and]

theorem assembleAll_ok_iff {procs : List (Text × Text)} :
    (∃ wss, assembleAll procs = .ok wss) ↔ ∀ d ∈ procs, ∃ ws, assemble d.2 = .ok ws := by
  induction procs with
  | nil => simp [assembleAll]
  | cons d ds ih =>
    rw [List.forall_mem_cons, ← ih, assembleAll]
    cases assemble d.2 with
    | error e => simp
    | ok ws => cases assembleAll ds <;> simp

/-! ## Endpoints (R170, R260) -/

/-- A named endpoint that R242 accepts: its id declared, its port in range. -/
def PortRef.Sound (ids : List Text) (numPorts : Nat) (r : PortRef) : Prop :=
  r.id ∈ ids ∧ 0 ≤ r.port ∧ r.port < (numPorts : Int)

/-- The endpoint that a sound name stands for. -/
def PortRef.endpoint (ids : List Text) (r : PortRef) : Endpoint := ⟨ids.idxOf r.id, r.port.toNat⟩

theorem resolvePort_eq_ok_iff {ids : List Text} {numPorts : Nat} {r : PortRef} {e : Endpoint} :
    resolvePort ids numPorts r = .ok e ↔ r.Sound ids numPorts ∧ r.endpoint ids = e := by
  rw [resolvePort, PortRef.Sound, PortRef.endpoint]
  cases hk : ids.idxOf? r.id with
  | none => simp [List.idxOf?_eq_none_iff.1 hk]
  | some k =>
    have hid : r.id ∈ ids := List.isSome_idxOf?.1 (by rw [hk, Option.isSome_some])
    have hidx : ids.idxOf r.id = k := by rw [List.idxOf_eq_getD_idxOf?, hk, Option.getD_some]
    by_cases hport : 0 ≤ r.port ∧ r.port < (numPorts : Int) <;> simp [hid, hidx, hport]

theorem resolvePorts_eq_ok_iff {ids : List Text} {numPorts : Nat} {rs : List PortRef} {es : List Endpoint} :
    resolvePorts ids numPorts rs = .ok es ↔
      (∀ r ∈ rs, r.Sound ids numPorts) ∧ rs.map (PortRef.endpoint ids) = es := by
  induction rs generalizing es with
  | nil => simp [resolvePorts]
  | cons r rs ih =>
    rw [resolvePorts, List.forall_mem_cons, List.map_cons]
    cases hr : resolvePort ids numPorts r with
    | error e =>
      have hunsound : ¬r.Sound ids numPorts := fun h => by
        rw [resolvePort_eq_ok_iff.2 ⟨h, rfl⟩] at hr
        cases hr
      simp [hunsound]
    | ok e =>
      obtain ⟨hsound, he⟩ := resolvePort_eq_ok_iff.1 hr
      simp only [hsound, he, true_and]
      cases hrs : resolvePorts ids numPorts rs with
      | error e' =>
        have hunsound : ¬∀ r ∈ rs, r.Sound ids numPorts := fun h => by
          rw [ih.2 ⟨h, rfl⟩] at hrs
          cases hrs
        simp [hunsound]
      | ok es' =>
        obtain ⟨hall, hes⟩ := ih.1 hrs
        rw [hes, Except.ok.injEq]
        exact (and_iff_right hall).symm

/-- Two sound names of one endpoint are the same name. -/
theorem PortRef.endpoint_injOn (ids : List Text) (numPorts : Nat) :
    Set.InjOn (PortRef.endpoint ids) {r | r.Sound ids numPorts} := by
  rintro ⟨id, port⟩ ⟨hid, hport, -⟩ ⟨id', port'⟩ ⟨hid', hport', -⟩ h
  simp only [PortRef.endpoint, Endpoint.mk.injEq] at *
  obtain ⟨hidx, hnat⟩ := h
  rw [List.idxOf_inj hid] at hidx
  exact PortRef.mk.injEq .. ▸ ⟨hidx, by omega⟩

/-- The endpoints a topology names, each as often as it names it. -/
def Topology.refs (t : Topology) : List PortRef :=
  t.connections.map Prod.fst ++ t.connections.map Prod.snd ++ t.stdins ++ t.stdouts

/-- The wiring that a topology of sound names stands for. -/
def Topology.wiring (t : Topology) : Wiring :=
  let endpoint := PortRef.endpoint (t.procs.map Prod.fst)
  { ids := t.procs.map Prod.fst
    numPorts := t.numPorts
    channels := ((t.connections.map Prod.fst).map endpoint).zip ((t.connections.map Prod.snd).map endpoint)
    stdinPort := (t.stdins.map endpoint).head?
    stdoutPort := (t.stdouts.map endpoint).head?
    dumpMode := t.dumpMode }

/-- The ends of a list of pairs, pair by pair, are the first ends and then the second ones in another order. -/
theorem flatMap_ends_perm {α : Type} (xs ys : List α) (h : xs.length = ys.length) :
    ((xs.zip ys).flatMap fun c => [c.1, c.2]).Perm (xs ++ ys) := by
  induction xs generalizing ys with
  | nil => obtain rfl := List.length_eq_zero_iff.1 h.symm; rfl
  | cons x xs ih =>
    cases ys with
    | nil => cases h
    | cons y ys =>
      have hrest := ih ys (Nat.succ.inj h)
      exact ((hrest.cons y).trans List.perm_middle.symm).cons x

theorem head?_toList_of_length_le_one {α : Type} {l : List α} (h : l.length ≤ 1) : l.head?.toList = l := by
  match l, h with
  | [], _ => rfl
  | [_], _ => rfl

/-- A wiring binds the endpoints its topology names, in another order. -/
theorem Topology.boundEndpoints_perm {t : Topology} (hin : t.stdins.length ≤ 1) (hout : t.stdouts.length ≤ 1) :
    (boundEndpoints t.wiring).Perm (t.refs.map (PortRef.endpoint (t.procs.map Prod.fst))) := by
  simp only [boundEndpoints, Topology.wiring, Topology.refs, List.map_append]
  rw [head?_toList_of_length_le_one (by simpa), head?_toList_of_length_le_one (by simpa)]
  exact ((flatMap_ends_perm _ _ (by simp)).append_right _).append_right _

/-- Sound names are distinct exactly if their endpoints are. -/
theorem nodup_map_endpoint_iff {ids : List Text} {numPorts : Nat} {rs : List PortRef}
    (h : ∀ r ∈ rs, r.Sound ids numPorts) : (rs.map (PortRef.endpoint ids)).Nodup ↔ rs.Nodup :=
  ⟨List.Nodup.of_map _, fun hnodup => hnodup.map_on fun r hr r' hr' heq =>
    PortRef.endpoint_injOn ids numPorts (h r hr) (h r' hr') heq⟩

/-- The conditions of R242 on the declarations and bindings of a topology. -/
structure Topology.Sound (t : Topology) : Prop where
  somePort : 1 ≤ t.numPorts
  idsDistinct : (t.procs.map Prod.fst).Nodup
  oneStdin : t.stdins.length ≤ 1
  oneStdout : t.stdouts.length ≤ 1
  refsSound : ∀ r ∈ t.refs, r.Sound (t.procs.map Prod.fst) t.numPorts
  boundOnce : t.refs.Nodup

/-- A sound topology passes every check of `wire?`. -/
theorem Topology.Sound.wire {t : Topology} (h : t.Sound) : wire? t = .ok t.wiring := by
  obtain ⟨hport, hids, hin, hout, hrefs, hnodup⟩ := h
  have hbound : (boundEndpoints t.wiring).Nodup :=
    (Topology.boundEndpoints_perm hin hout).nodup_iff.2 ((nodup_map_endpoint_iff hrefs).2 hnodup)
  simp only [Topology.refs, List.forall_mem_append] at hrefs
  obtain ⟨⟨⟨hfst, hsnd⟩, hins⟩, houts⟩ := hrefs
  rw [wire?, if_neg (by omega), if_neg (not_not.2 hids), resolvePorts_eq_ok_iff.2 ⟨hfst, rfl⟩,
    resolvePorts_eq_ok_iff.2 ⟨hsnd, rfl⟩, resolvePorts_eq_ok_iff.2 ⟨hins, rfl⟩,
    resolvePorts_eq_ok_iff.2 ⟨houts, rfl⟩]
  simp only [List.length_map, Nat.not_lt.2 hin, Nat.not_lt.2 hout, if_false]
  exact if_pos hbound

/-- Each refusal of `wire?` names one of the conditions, so an accepted topology meets all of them. -/
theorem Topology.sound_of_wire {t : Topology} {w : Wiring} (h : wire? t = .ok w) : t.Sound := by
  rw [wire?] at h
  split at h
  · cases h
  rename_i hport
  split at h
  · cases h
  rename_i hids
  split at h
  case h_1 xs ys ins outs hxs hys hins houts =>
    obtain ⟨hfst, rfl⟩ := resolvePorts_eq_ok_iff.1 hxs
    obtain ⟨hsnd, rfl⟩ := resolvePorts_eq_ok_iff.1 hys
    obtain ⟨hin, rfl⟩ := resolvePorts_eq_ok_iff.1 hins
    obtain ⟨hout, rfl⟩ := resolvePorts_eq_ok_iff.1 houts
    have hrefs : ∀ r ∈ t.refs, r.Sound (t.procs.map Prod.fst) t.numPorts := by
      simp only [Topology.refs, List.forall_mem_append]
      exact ⟨⟨⟨hfst, hsnd⟩, hin⟩, hout⟩
    simp only [List.length_map] at h
    split at h
    · cases h
    rename_i hstdin
    split at h
    · cases h
    rename_i hstdout
    split at h
    · rename_i hbound
      rw [Nat.not_lt] at hstdin hstdout
      exact ⟨by omega, not_not.1 hids, hstdin, hstdout, hrefs, (nodup_map_endpoint_iff hrefs).1
        ((Topology.boundEndpoints_perm hstdin hstdout).nodup_iff.1 hbound)⟩
    · cases h
  all_goals cases h

/-- A configuration is accepted exactly if its wiring is and all its programs assemble. -/
theorem boot_ok_iff {t : Topology} {feed : List Text} :
    (∃ s, boot t feed = .ok s) ↔ t.Sound ∧ ∃ wss, assembleAll t.procs = .ok wss := by
  rw [boot]
  constructor
  · rintro ⟨s, h⟩
    split at h
    next => cases h
    next w hw =>
      split at h
      next => cases h
      next wss hwss => exact ⟨Topology.sound_of_wire hw, wss, hwss⟩
  · rintro ⟨hsound, wss, hwss⟩
    rw [hsound.wire, hwss]
    exact ⟨_, rfl⟩

/-- Settles O60: `boot` refuses exactly what `wire?` or the assembler refuses. -/
theorem configurationAcceptedExactlyIfSound : Obligations.ConfigurationAcceptedExactlyIfSound := by
  intro t feed
  simp only [boot_ok_iff, assembleAll_ok_iff, assemble_ok_iff]
  constructor
  · rintro ⟨⟨hport, hids, hin, hout, hrefs, hnodup⟩, hprogs⟩
    exact ⟨hport, hids, hin, hout, hrefs, hnodup, hprogs⟩
  · rintro ⟨hport, hids, hin, hout, hrefs, hnodup, hprogs⟩
    exact ⟨⟨hport, hids, hin, hout, hrefs, hnodup⟩, hprogs⟩

end Sys2Proof.Machine
end

section
/-! PROOFS. What a step does to one processor, said once (`step_proc`): it stays as it was, or it was ready and has moved.
The invariants that a step keeps processor by processor follow from that (R24, R25, R37, R39, R130, R131, R250). -/

namespace Sys2Proof.Machine

open Sys2Proof

/-! ## A processor that takes part in a step -/

/-- What a step does to a processor that takes part in it, whether alone, on a feed or sink, or in a joint step. -/
structure Proc.Moved (p p' : Proc) : Prop where
  prog : p'.prog = p.prog
  progLen : p'.progLen = p.progLen
  portHist : p.portHist <+: p'.portHist
  dumpOut : p.dumpOut <+: p'.dumpOut
  faultLog : p.mmu.faultLog <+: p'.mmu.faultLog
  mmu : p.mmu.Inv → p'.mmu.Inv
  ending : p.Ending p'

theorem Proc.Alone.moved {p p' : Proc} (h : p.Alone p') : p.Moved p' :=
  ⟨h.prog, h.progLen, h.portHist ▸ List.prefix_rfl, h.dumpOut, h.faultLog, h.mmu, h.ending⟩

/-- A completed transfer (R161, R162): the accumulator, a record, and the end of the step. -/
theorem Proc.moved_record (p : Proc) (v : F64) (r : PortRecord) : p.Moved ((p.setAcc v).recordPort r).finish where
  prog := by simp
  progLen := by simp
  portHist := by simp
  dumpOut := by simp
  faultLog := by simp
  mmu := by simp
  ending := .ended p.state _ (.inl rfl) (Proc.endsAt_finish_of rfl rfl rfl)

/-- A processor that moves from a ready state keeps its invariants. -/
theorem Proc.Inv.of_moved {p p' : Proc} (h : p.Inv) (hready : p.ready = true) (hm : p.Moved p') : p'.Inv := by
  obtain ⟨hrunning, hnofault⟩ := Proc.ready_iff.1 hready
  have hpc := h.pcInProg hrunning hnofault
  have hlen : p'.progLen ≤ 200 := hm.progLen ▸ h.progLen
  have hpad : ∀ k : Fin 200, p'.progLen ≤ k.val → p'.prog[k] = 0#128 := by
    rw [hm.prog, hm.progLen]; exact h.padding
  cases hm.ending with
  | raised c hfault hpc' hstate =>
    refine ⟨hm.mmu h.mmu, hpc' ▸ h.pcRange, fun _ hf => ?_, fun _ => hstate.trans hrunning, hlen, hpad⟩
    rw [hfault] at hf
    cases hf
  | ended r pc' htarget hends =>
    obtain ⟨hp, hs, hf⟩ := hends
    simp only [hnofault] at hs hf
    have hrange : -2147483648 ≤ pc' ∧ pc' ≤ 2147483647 := by
      obtain rfl | ⟨f, rfl⟩ := htarget
      · omega
      · have hlow := BitVec.le_toInt f
        have hhigh := BitVec.toInt_lt (x := f)
        omega
    refine ⟨hm.mmu h.mmu, hp ▸ hrange, fun hrun hnone => ?_, fun hsome => ?_, hlen, hpad⟩
    · -- past slot 199 the processor would be HALTED (R134), below slot 0 faulted (R135)
      rw [hs] at hrun
      rw [hf] at hnone
      rw [hp]
      grind
    · -- only the negative pc faults here, and it leaves the processor RUNNING
      rw [hf] at hsome
      rw [hs]
      grind

/-! ## The processors after a step -/

/-- Replacing the processor of the turn by one it has moved to. -/
theorem State.setCurrent_proc {s : State} {p p' : Proc} (hcur : s.current = some p) (hready : p.ready = true)
    (hm : p.Moved p') {k : Nat} {q : Proc} (hq : s.procs[k]? = some q) :
    (s.setCurrent p').procs[k]? = some q ∨
      q.ready = true ∧ ∃ q', (s.setCurrent p').procs[k]? = some q' ∧ q.Moved q' := by
  have honly := State.onlyCurrent_setCurrent hcur p'
  by_cases hk : k = s.turn
  · subst hk
    obtain rfl : p = q := Option.some.inj (hcur.symm.trans hq)
    exact .inr ⟨hready, p', honly.current, hm⟩
  · exact .inl ((honly.others k hk).trans hq)

/-- The processors after a transfer (R171): the receiver, the sender, and all others. -/
theorem State.transfer_procs {s : State} {src dst : Endpoint} {p q : Proc} (hp : s.procs[src.proc]? = some p)
    (hq : s.procs[dst.proc]? = some q) (k : Nat) :
    (s.transfer src p dst q).procs[k]? =
      if k = dst.proc then some ((q.setAcc (wire (portNan s.ticks) p.acc)).recordPort (.transfer src dst p.acc)).finish
      else if k = src.proc then some (p.recordPort (.transfer src dst p.acc)).finish
      else s.procs[k]? := by
  obtain ⟨hsrc, -⟩ := List.getElem?_eq_some_iff.1 hp
  obtain ⟨hdst, -⟩ := List.getElem?_eq_some_iff.1 hq
  simp only [State.transfer, List.getElem?_set, List.length_set, eq_comm (b := k), hsrc, hdst, if_true]

/-- What an effect does to each processor, if the one of the turn is ready. -/
theorem Effect.proc {s t : State} (h : Effect s t) (hready : ∀ p, s.current = some p → p.ready = true) {k : Nat}
    {q : Proc} (hq : s.procs[k]? = some q) :
    t.procs[k]? = some q ∨ q.ready = true ∧ ∃ q', t.procs[k]? = some q' ∧ q.Moved q' := by
  cases h with
  | alone hcur hown => exact State.setCurrent_proc hcur (hready _ hcur) hown.moved hq
  | line hcur _ => exact State.setCurrent_proc hcur (hready _ hcur) (Proc.moved_record _ _ _) hq
  | badLine hcur _ => exact State.setCurrent_proc hcur (hready _ hcur) (Proc.alone_raise _ _).moved hq
  | print hcur => exact State.setCurrent_proc hcur (hready _ hcur) (Proc.moved_record _ _ _) hq
  | @transfer src dst p r hsender hreceiver _ hturn =>
    have hboth : p.ready = true ∧ r.ready = true := by
      obtain ⟨ht, hr⟩ | ⟨ht, hp⟩ := hturn
      · exact ⟨hready p (by rw [State.current, ht, hsender]), hr⟩
      · exact ⟨hp, hready r (by rw [State.current, ht, hreceiver])⟩
    rw [State.transfer_procs hsender hreceiver]
    by_cases hd : k = dst.proc
    · obtain rfl : r = q := Option.some.inj (hreceiver.symm.trans (hd ▸ hq))
      exact .inr ⟨hboth.2, _, if_pos hd, Proc.moved_record _ _ _⟩
    · rw [if_neg hd]
      by_cases hs : k = src.proc
      · obtain rfl : p = q := Option.some.inj (hsender.symm.trans (hs ▸ hq))
        exact .inr ⟨hboth.1, _, if_pos hs, Proc.moved_record p p.acc _⟩
      · exact .inl ((if_neg hs).trans hq)

/-- What an effect does outside the processors. -/
theorem Effect.frame {s t : State} (h : Effect s t) :
    t.wiring = s.wiring ∧ t.procs.length = s.procs.length ∧ s.stdout <+: t.stdout ∧ t.stdin <:+ s.stdin := by
  cases h with
  | alone _ _ => exact ⟨rfl, List.length_set .., List.prefix_rfl, List.suffix_rfl⟩
  | line _ hfeed => exact ⟨rfl, List.length_set .., List.prefix_rfl, hfeed ▸ List.suffix_cons ..⟩
  | badLine _ hfeed => exact ⟨rfl, List.length_set .., List.prefix_rfl, hfeed ▸ List.suffix_cons ..⟩
  | print _ => exact ⟨rfl, List.length_set .., List.prefix_append .., List.suffix_rfl⟩
  | transfer _ _ _ _ => exact ⟨rfl, by simp [State.transfer], List.prefix_rfl, List.suffix_rfl⟩

/-- What a step does to each processor: it stays as it was, or it was ready and has moved. -/
theorem step_proc {s t : State} (h : step s = .next t) {k : Nat} {p : Proc} (hp : s.procs[k]? = some p) :
    t.procs[k]? = some p ∨ p.ready = true ∧ ∃ p', t.procs[k]? = some p' ∧ p.Moved p' := by
  obtain ⟨j, u, -, henabled, heffect, rfl⟩ := step_effect h
  refine heffect.proc (fun r hr => ?_) hp
  obtain ⟨q, hq, hready⟩ := State.ready_of_enabled henabled
  obtain rfl : q = r := Option.some.inj (hq.symm.trans hr)
  exact hready

/-- What a step does outside the processors. -/
theorem step_frame {s t : State} (h : step s = .next t) :
    t.wiring = s.wiring ∧ t.procs.length = s.procs.length ∧ s.stdout <+: t.stdout ∧ t.stdin <:+ s.stdin := by
  obtain ⟨k, u, -, -, heffect, rfl⟩ := step_effect h
  exact heffect.frame

/-- Settles O12: a processor that stays keeps its invariants, and so does one that moves from a ready state. -/
theorem stepKeepsInvariants : Obligations.StepKeepsInvariants := by
  intro s t hs hstep
  obtain ⟨hwiring, hlength, -, -⟩ := step_frame hstep
  refine ⟨fun p' hp' => ?_, by rw [hwiring, hlength]; exact hs.wiring⟩
  obtain ⟨k, hk⟩ := List.getElem?_of_mem hp'
  obtain ⟨hlt, -⟩ := List.getElem?_eq_some_iff.1 hk
  obtain ⟨p, hp⟩ : ∃ p, s.procs[k]? = some p := ⟨_, List.getElem?_eq_getElem (hlength ▸ hlt)⟩
  have hinv := hs.procs p (List.mem_of_getElem? hp)
  obtain hsame | ⟨hready, q, hq, hmoved⟩ := step_proc hstep hp
  · obtain rfl : p = p' := Option.some.inj (hsame.symm.trans hk)
    exact hinv
  · obtain rfl : q = p' := Option.some.inj (hq.symm.trans hk)
    exact hinv.of_moved hready hmoved

/-- Settles O9: a processor that moves was RUNNING without a fault. -/
theorem haltedOrFaultedNeverChanges : Obligations.HaltedOrFaultedNeverChanges := by
  intro s t k p hstep hp hstopped
  obtain hsame | ⟨hready, -⟩ := step_proc hstep hp
  · exact hsame
  · obtain ⟨hrunning, hnofault⟩ := Proc.ready_iff.1 hready
    simp [hrunning, hnofault] at hstopped

/-- Settles O16, processor by processor. -/
theorem historiesOnlyGrow : Obligations.HistoriesOnlyGrow := by
  intro s t hstep
  obtain ⟨-, -, hout, hin⟩ := step_frame hstep
  refine ⟨hout, hin, fun k p hp => ?_⟩
  obtain hsame | ⟨-, p', hp', hmoved⟩ := step_proc hstep hp
  · exact ⟨p, hsame, List.prefix_rfl, List.prefix_rfl, List.prefix_rfl⟩
  · exact ⟨p', hp', hmoved.faultLog, hmoved.dumpOut, hmoved.portHist⟩

/-- Settles O17, processor by processor. -/
theorem programAndWiringAreFixed : Obligations.ProgramAndWiringAreFixed := by
  intro s t hstep
  obtain ⟨hwiring, hlength, -, -⟩ := step_frame hstep
  refine ⟨hwiring, hlength, fun k p hp => ?_⟩
  obtain hsame | ⟨-, p', hp', hmoved⟩ := step_proc hstep hp
  · exact ⟨p, hsame, rfl, rfl⟩
  · exact ⟨p', hp', hmoved.prog, hmoved.progLen⟩

end Sys2Proof.Machine
end

section
/-! PROOFS. The records a step leaves of the transfers on a channel (R39, R171, R172). -/

namespace Sys2Proof.Machine

open Sys2Proof

/-- t is a state after s in which exactly the processors `who` have recorded something more, each of them `rs`. -/
def State.Records (s t : State) (who : List Nat) (rs : List PortRecord) : Prop :=
  ∀ (k : Nat) (p' : Proc), t.procs[k]? = some p' →
    ∃ p, s.procs[k]? = some p ∧ p'.portHist = p.portHist ++ if k ∈ who then rs else []

/-- A step in which the processor of the turn alone gains records. -/
theorem State.records_setCurrent {s : State} {p p' : Proc} {rs : List PortRecord} (hcur : s.current = some p)
    (hrs : p'.portHist = p.portHist ++ rs) : s.Records (s.setCurrent p') [s.turn] rs := by
  intro k q hq
  have honly := State.onlyCurrent_setCurrent hcur p'
  by_cases hk : k = s.turn
  · subst hk
    obtain rfl : p' = q := Option.some.inj (honly.current.symm.trans hq)
    exact ⟨p, hcur, by simpa using hrs⟩
  · exact ⟨q, (honly.others k hk).symm.trans hq, by simp [hk]⟩

/-- A transfer (R171) leaves the same record at the sender and at the receiver. -/
theorem State.records_transfer {s : State} {src dst : Endpoint} {p q : Proc} (hp : s.procs[src.proc]? = some p)
    (hq : s.procs[dst.proc]? = some q) :
    s.Records (s.transfer src p dst q) [src.proc, dst.proc] [.transfer src dst p.acc] := by
  intro k r hr
  rw [State.transfer_procs hp hq] at hr
  split at hr
  next hk => exact ⟨q, hk ▸ hq, by rw [← Option.some.inj hr]; simp [hk]⟩
  next hkdst =>
    split at hr
    next hk => exact ⟨p, hk ▸ hp, by rw [← Option.some.inj hr]; simp [hk]⟩
    next hksrc => exact ⟨r, hr, by simp [hkdst, hksrc]⟩

/-- What a step records of a transfer, it records at both ends. -/
theorem Effect.records {s t : State} (h : Effect s t) : ∃ who rs, s.Records t who rs ∧
    ∀ e f : Endpoint, ∀ r ∈ rs, isTransferOf e f r = true → e.proc ∈ who ∧ f.proc ∈ who := by
  cases h with
  | alone hcur hown => exact ⟨_, [], State.records_setCurrent hcur (by simp [hown.portHist]), by simp⟩
  | @line p n x l _ hcur _ =>
    exact ⟨_, [.stdinLine n l], State.records_setCurrent hcur (by simp), by simp [isTransferOf]⟩
  | badLine hcur _ => exact ⟨_, [], State.records_setCurrent hcur (by simp), by simp⟩
  | @print p n l hcur =>
    exact ⟨_, [.stdoutLine n l], State.records_setCurrent hcur (by simp), by simp [isTransferOf]⟩
  | transfer hsender hreceiver _ _ =>
    refine ⟨_, _, State.records_transfer hsender hreceiver, fun e f r hr htransfer => ?_⟩
    obtain rfl := List.mem_singleton.1 hr
    simp only [isTransferOf, Bool.and_eq_true, decide_eq_true_eq] at htransfer
    simp [← htransfer.1, ← htransfer.2]

/-- Two histories that agree on a channel still do after new records that stand in both or are of other channels. -/
theorem State.Records.keep_historiesAgree {s t : State} {who : List Nat} {rs : List PortRecord}
    (h : s.Records t who rs) (hagree : s.historiesAgree)
    (hrs : ∀ e f : Endpoint, ∀ r ∈ rs, isTransferOf e f r = true → e.proc ∈ who ∧ f.proc ∈ who) :
    t.historiesAgree := by
  intro e f p' q' hp' hq'
  obtain ⟨p, hp, hphist⟩ := h e.proc p' hp'
  obtain ⟨q, hq, hqhist⟩ := h f.proc q' hq'
  rw [hphist, hqhist, List.filter_append, List.filter_append, hagree e f p q hp hq]
  by_cases hboth : e.proc ∈ who ∧ f.proc ∈ who
  · rw [if_pos hboth.1, if_pos hboth.2]
  · have hnone : rs.filter (isTransferOf e f) = [] :=
      List.filter_eq_nil_iff.2 fun r hr htransfer => hboth (hrs e f r hr htransfer)
    rw [apply_ite (List.filter _), apply_ite (List.filter _), hnone, List.filter_nil, ite_self, ite_self]

/-- Settles O15: a transfer is recorded at both its ends or not at all. -/
theorem stepKeepsChannelOrder : Obligations.StepKeepsChannelOrder := by
  intro s t hagree hstep
  obtain ⟨k, u, -, -, heffect, rfl⟩ := step_effect hstep
  obtain ⟨who, rs, hrecords, hrs⟩ := heffect.records
  exact hrecords.keep_historiesAgree hagree hrs

end Sys2Proof.Machine
end

section
/-! PROOFS. Which pages a sequence of accesses faults on (R37, R60, R88): a page that was not present at the start and is
accessed, or present at the end, has been logged. -/

namespace Sys2Proof.Machine

open Sys2Proof

/-- m' is m after accesses to at least the pages `ps` that logged the faults `l`: of those pages, and of those present in
m', every one was present in m or has been logged. -/
structure Mmu.Faulted (m m' : Mmu) (ps : Finset (Fin 64)) (l : List (Fin 64)) : Prop where
  inv : m'.Inv
  faultLog : m'.faultLog = m.faultLog ++ l
  accessed : ps ⊆ m.presentPages ∪ l.toFinset
  present : m'.presentPages ⊆ m.presentPages ∪ l.toFinset

theorem Mmu.Inv.faulted_refl {m : Mmu} (h : m.Inv) : m.Faulted m ∅ [] :=
  ⟨h, by simp, by simp, by simp⟩

theorem Mmu.Faulted.trans {m₁ m₂ m₃ : Mmu} {ps qs : Finset (Fin 64)} {l k : List (Fin 64)} (h : m₁.Faulted m₂ ps l)
    (h' : m₂.Faulted m₃ qs k) : m₁.Faulted m₃ (ps ∪ qs) (l ++ k) := by
  have hlater : m₂.presentPages ∪ k.toFinset ⊆ m₁.presentPages ∪ (l ++ k).toFinset := by
    rw [List.toFinset_append, ← Finset.union_assoc]
    exact Finset.union_subset_union_left h.present
  have hsooner : m₁.presentPages ∪ l.toFinset ⊆ m₁.presentPages ∪ (l ++ k).toFinset := by
    rw [List.toFinset_append]
    exact Finset.union_subset_union_right Finset.subset_union_left
  exact ⟨h'.inv, by rw [h'.faultLog, h.faultLog, List.append_assoc],
    Finset.union_subset (h.accessed.trans hsooner) (h'.accessed.trans hlater), h'.present.trans hlater⟩

/-- The 4 pages of I1 are the only ones an access can reach without a fault. -/
theorem Mmu.Faulted.card_le {m m' : Mmu} {ps : Finset (Fin 64)} {l : List (Fin 64)} (h : m.Inv)
    (hf : m.Faulted m' ps l) : ps.card ≤ 4 + l.length :=
  calc ps.card ≤ (m.presentPages ∪ l.toFinset).card := Finset.card_le_card hf.accessed
    _ ≤ m.presentPages.card + l.toFinset.card := Finset.card_union_le _ _
    _ ≤ 4 + l.length := Nat.add_le_add h.presentFour.le l.toFinset_card_le

/-! ## One access -/

/-- A page fault makes no page present but the requested one. -/
theorem Mmu.Inv.pageFault_faulted {m m' : Mmu} (h : m.Inv) {n : Fin 64} (hn : (m.pte n).present = false)
    (hf : m.pageFault n = some m') : m.Faulted m' {n} [n] := by
  obtain ⟨m₂, hf₂, hinv, -, -, hlog⟩ := h.pageFault hn
  obtain rfl : m₂ = m' := Option.some.inj (hf₂.symm.trans hf)
  refine ⟨hinv, hlog, by simp, fun k hk => ?_⟩
  obtain ⟨v, m₁, hsel, -, hv, -, -, hpt, -⟩ := (h.logFault n).secondChance
  have hne : n ≠ v := by rintro rfl; simp [hn] at hv
  have hpres : (m₁.pte k).present = (m.pte k).present := by
    rcases hpt k with he | ⟨-, he⟩ <;> rw [he, Mmu.pte_logFault]
  rw [Mmu.mem_presentPages] at hk
  simp only [Finset.mem_union, Mmu.mem_presentPages, List.mem_toFinset, List.mem_singleton]
  rw [Mmu.pageFault, hsel] at hf
  simp only [Option.some.injEq] at hf
  rw [← hf, Mmu.pte_swapIn _ _ hne] at hk
  split at hk
  next hkn => exact .inr hkn
  next =>
    refine .inl (hpres ▸ ?_)
    split at hk
    next => cases hk
    next hkv =>
      split at hk
      next => rwa [Mmu.pte_swapOut, if_neg hkv] at hk
      next => exact hk

/-- An access of a present page takes no page fault. -/
theorem Mmu.Touched.faulted {m m' : Mmu} {i : VIndex} {stored : Option F64} (h : m.Touched m' i stored)
    (hinv : m'.Inv) (hp : (m.pte (vpn i)).present = true) : m.Faulted m' {vpn i} [] := by
  refine ⟨hinv, by simp [h.faultLog], by simpa [Mmu.mem_presentPages], fun n hn => ?_⟩
  simp only [List.toFinset_nil, Finset.union_empty, Mmu.mem_presentPages] at hn ⊢
  by_cases hni : n = vpn i
  · exact hni ▸ hp
  · rwa [h.otherPages n hni] at hn

/-- An access is one of a present page, or a page fault and then one. -/
theorem Mmu.Accessed.faulted {m m' : Mmu} {i : VIndex} {stored : Option F64} (h : m.Inv)
    (ha : m.Accessed m' i stored) (hinv : m'.Inv) : ∃ l, m.Faulted m' {vpn i} l := by
  rw [Mmu.Accessed] at ha
  split at ha
  next hp => exact ⟨[], ha.faulted hinv hp⟩
  next hp =>
    have habsent : (m.pte (vpn i)).present = false := by simpa using hp
    obtain ⟨m₁, hf, ht⟩ := ha
    obtain ⟨m₂, hf₂, -, -, hp₁, -⟩ := h.pageFault habsent
    obtain rfl : m₂ = m₁ := Option.some.inj (hf₂.symm.trans hf)
    have hfault := (h.pageFault_faulted habsent hf).trans (ht.faulted hinv hp₁)
    exact ⟨[vpn i], by simpa using hfault⟩

/-- One access of a trace, in range or not. -/
theorem Mmu.Inv.access_faulted {m : Mmu} (h : m.Inv) (a : Access) :
    ∃ l, m.Faulted (m.access a).2 a.page.toFinset l := by
  cases a with
  | read i =>
    cases hi : checkIndex i with
    | none =>
      have hstop : m.read i = .error (.address i) := m.read_out_of_range (checkIndex_eq_none.1 hi)
      exact ⟨[], by simpa [Mmu.access, Access.page, hstop, hi] using h.faulted_refl⟩
    | some j =>
      obtain ⟨m', hr, hinv, -⟩ := h.read hi
      simpa [Mmu.access, Access.page, hr, hi] using (h.read_accessed hi hr).faulted h hinv
  | write i v =>
    cases hi : checkIndex i with
    | none =>
      have hstop : m.write i v = .error (.address i) := m.write_out_of_range v (checkIndex_eq_none.1 hi)
      exact ⟨[], by simpa [Mmu.access, Access.page, hstop, hi] using h.faulted_refl⟩
    | some j =>
      obtain ⟨m', hw, hinv, -⟩ := h.write v hi
      simpa [Mmu.access, Access.page, hw, hi] using (h.write_accessed hi hw).faulted h hinv

/-! ## A trace -/

/-- The faults of a trace are those of its accesses in order. -/
theorem Mmu.Inv.runTrace_faulted {m : Mmu} (h : m.Inv) (trace : List Access) :
    ∃ l, m.Faulted (Mmu.runTrace Mmu.access trace m).2 (trace.filterMap Access.page).toFinset l := by
  induction trace generalizing m with
  | nil => exact ⟨[], h.faulted_refl⟩
  | cons a as ih =>
    obtain ⟨l, hl⟩ := h.access_faulted a
    obtain ⟨k, hk⟩ := ih hl.inv
    rw [Mmu.runTrace_cons]
    have hboth := hl.trans hk
    exact ⟨l ++ k, by cases hp : a.page <;> simpa [hp] using hboth⟩

/-- Settles O27: at most 4 of the pages are reached without a fault. -/
theorem fivePagesForceAFault : Obligations.FivePagesForceAFault := by
  intro m trace h hfive
  obtain ⟨l, hl⟩ := h.runTrace_faulted trace
  have hcard := hl.card_le h
  obtain ⟨n, k, rfl⟩ := List.exists_cons_of_length_pos (show 0 < l.length by omega)
  exact ⟨n, k, hl.faultLog⟩

end Sys2Proof.Machine
end

section
/-! PROOFS. DUMPREG through the MMU (R38, R231): the 65536 reads give the words of V, in order, and touch all 64 pages. -/

namespace Sys2Proof.Machine

open Sys2Proof

/-- An index below 65536 passes the range check as its 16 bits. -/
theorem checkIndex_natCast {i : Nat} (h : i < 65536) : checkIndex (i : Int) = some (BitVec.ofNat 16 i) :=
  checkIndex_eq_some.2 ⟨by omega, (BitVec.ofInt_natCast 16 i).symm⟩

/-- The loop of R231 completes, emits V(i) for the indices it reads, and leaves V as it was. -/
theorem Mmu.Inv.dumpRead {m : Mmu} (h : m.Inv) (n i : Nat) (hle : i + n ≤ 65536) :
    ∃ m', Mmu.dumpRead n i m =
        .ok ((List.range' i n).map fun j => .memWord j (m.value (BitVec.ofNat 16 j)), m') ∧
      ∀ k, m'.value k = m.value k := by
  induction n generalizing i m with
  | zero => exact ⟨m, rfl, fun _ => rfl⟩
  | succ n ih =>
    obtain ⟨m₁, hread, hinv, hval₁, -⟩ := h.read (checkIndex_natCast (show i < 65536 by omega))
    obtain ⟨m', hrest, hval⟩ := ih hinv (i + 1) (by omega)
    refine ⟨m', ?_, fun k => (hval k).trans (hval₁ k)⟩
    rw [Mmu.dumpRead, hread, Mmu.dumpNext.eq_def]
    simp only [hrest, hval₁, List.range'_succ, List.map_cons]

/-- The whole loop emits the records of DUMP_MODE = peek. -/
theorem Mmu.Inv.dumpRead_all {m : Mmu} (h : m.Inv) :
    ∃ m', Mmu.dumpRead 65536 0 m = .ok (m.dumpPeek, m') ∧ ∀ k, m'.value k = m.value k := by
  rw [Mmu.dumpPeek, List.range_eq_range']
  exact h.dumpRead 65536 0 (by omega)

theorem Mmu.length_dumpPeek (m : Mmu) : m.dumpPeek.length = 65536 := by
  rw [Mmu.dumpPeek, List.length_map, List.length_range]

theorem Mmu.getElem?_dumpPeek (m : Mmu) (i : VIndex) :
    m.dumpPeek[i.toNat]? = some (.memWord i.toNat (m.value i)) := by
  rw [Mmu.dumpPeek, List.getElem?_map, List.getElem?_range i.isLt, Option.map_some, BitVec.ofNat_toNat,
    BitVec.setWidth_eq]

/-- The reads of 0..65535 lie on all 64 pages. -/
theorem pages_of_all_reads :
    (((List.range 65536).map fun i : Nat => Access.read (i : Int)).filterMap Access.page).toFinset = Finset.univ := by
  refine Finset.eq_univ_of_forall fun n => List.mem_toFinset.2 (List.mem_filterMap.2 ?_)
  refine ⟨.read ((pageTag n).toNat : Int), List.mem_map.2 ⟨_, List.mem_range.2 (pageTag n).isLt, rfl⟩, ?_⟩
  rw [Access.page, checkIndex_toNat, Option.map_some, vpn_pageTag]

/-- Settles O55: of the 64 pages the reads touch, the 4 present ones alone take no page fault. -/
theorem dumpregThroughMmu : Obligations.DumpregThroughMmu := by
  intro s p hcur hmode hinv
  obtain ⟨m', hdump, hval⟩ := hinv.dumpRead_all
  have htrace := Mmu.dumpRead_trace hdump
  obtain ⟨l, hl⟩ := hinv.runTrace_faulted ((List.range 65536).map fun i : Nat => .read (i : Int))
  rw [List.range_eq_range', ← htrace, ← List.range_eq_range', pages_of_all_reads] at hl
  have hsixty : 64 ≤ 4 + l.length := by simpa using hl.card_le hinv
  have hexec : exec .dumpreg s = .next (s.setCurrent ((p.setMmu m').emitDump p.mmu.dumpPeek).finish) :=
    State.onCurrent_ok hcur (by simp only [hmode, Proc.dumpMemory, hdump])
  refine ⟨_, _, p.mmu.dumpPeek, hexec, State.onlyCurrent_setCurrent hcur _, by simp, p.mmu.length_dumpPeek,
    p.mmu.getElem?_dumpPeek, Proc.endsAt_finish_of rfl rfl rfl, ?_, by simpa using hval, by simpa using hl.inv,
    ⟨l, by simpa using hl.faultLog, by omega⟩, by simp, by simp, by simp, by simp⟩
  rw [List.range_eq_range', ← htrace]
  simp

end Sys2Proof.Machine
end

section
/-! PROOFS. The machine at the start of a run (R40, R111, R242, R280): what reset and `boot` give each processor, and that
it meets the invariants. -/

namespace Sys2Proof.Machine

open Sys2Proof

/-! ## The memory image (R40) -/

/-- The image of MEM0 is a memory of 65536 words. -/
theorem imageMemory_wf (words : List (Nat × F64)) : Memory.Wf 65536 (imageMemory words) := by
  induction words with
  | nil => exact Memory.wf_nil _
  | cons c rest ih =>
    rw [imageMemory]
    split
    next hlt => exact Memory.write_wf c.2 ih hlt
    next => exact ih

/-- The first words of a memory are a memory of their own. -/
theorem Memory.wf_filter_lt {size : Nat} {m : Memory} (h : Memory.Wf size m) (b : Nat) :
    Memory.Wf b (m.filter fun c => c.1 < b) := by
  refine ⟨h.1.filter _, fun c hc => ?_⟩
  obtain ⟨hmem, hlt⟩ := List.mem_filter.1 hc
  exact ⟨of_decide_eq_true hlt, (h.2 c hmem).2⟩

theorem Memory.read_filter_lt (m : Memory) {a b : Nat} (h : a < b) :
    Memory.read (m.filter fun c => c.1 < b) a = Memory.read m a := by
  induction m with
  | nil => rfl
  | cons c m ih =>
    rw [List.filter_cons]
    split
    next => rw [Memory.read, Memory.read, ih]
    next hge =>
      have hne : c.1 ≠ a := by rintro rfl; simp [h] at hge
      rw [Memory.read, if_neg hne, ih]

/-! ## The Memory Engine at reset (R40) -/

@[simp] theorem Mmu.pte_create (mem0 : Memory) (n : Fin 64) : (Mmu.create mem0).pte n = Pte.reset n := by
  simp [Mmu.create, Mmu.reset, Mmu.pte]

@[simp] theorem Mmu.tlbEntry_create (mem0 : Memory) (k : Fin 32) :
    (Mmu.create mem0).tlbEntry k = { tag := 0, frame := 0, valid := false } := by
  simp [Mmu.create, Mmu.reset, Mmu.tlbEntry]

theorem Pte.frame_reset (n : Fin 64) : (Pte.reset n).frame.val = if n.val < 4 then n.val else 0 := by
  simp only [Pte.reset]
  split <;> rfl

/-- A word of a present page reads as in the image. -/
theorem Mmu.read_phys_create (mem0 : Memory) {n : Fin 64} {o : Nat} (hn : (Pte.reset n).present = true)
    (ho : o < 1024) :
    Memory.read (Mmu.create mem0).phys (frameWord (Pte.reset n).frame o) = Memory.read mem0 (n.val * 1024 + o) := by
  have hlt := frameWord_lt (f := (Pte.reset n).frame) ho
  rw [Mmu.create, Memory.read_filter_lt _ hlt, frameWord, Pte.frame_reset, if_pos (of_decide_eq_true hn)]

theorem Mmu.inv_create {mem0 : Memory} (h : Memory.Wf 65536 mem0) : (Mmu.create mem0).Inv :=
  { Mmu.inv_reset with
    cleanEqual := fun n hn _ o ho => by
      rw [Mmu.pte_create] at hn ⊢
      exact Mmu.read_phys_create mem0 hn ho
    physWf := Memory.wf_filter_lt h 4096
    swapWf := h }

/-- At reset V is the image (R38, R40). -/
theorem Mmu.value_create (mem0 : Memory) (i : VIndex) : (Mmu.create mem0).value i = Memory.read mem0 i.toNat := by
  have hindex : (vpn i).val * 1024 + offset i = i.toNat := by
    rw [vpn_val, offset_eq]
    omega
  cases hp : (Pte.reset (vpn i)).present with
  | true =>
    rw [Mmu.value_of_present (by rwa [Mmu.pte_create]), Mmu.pte_create, Mmu.read_phys_create mem0 hp (offset_lt i),
      hindex]
  | false => rw [Mmu.value_of_absent (by rwa [Mmu.pte_create]), hindex]; rfl

/-! ## A processor at reset -/

/-- A RUNNING processor at slot 0 without a fault meets the invariants if its engine and its program do. -/
theorem Proc.inv_of_start {p : Proc} (hmmu : p.mmu.Inv) (hpc : p.pc = 0) (hfault : p.fault = none)
    (hlen : p.progLen ≤ 200) (hpad : ∀ k : Fin 200, p.progLen ≤ k.val → p.prog[k] = 0#128) : p.Inv :=
  ⟨hmmu, by omega, fun _ _ => by omega, fun h => absurd hfault h, hlen, hpad⟩

@[simp] theorem Proc.prog_create (mem0 : Memory) (words : List InstrWord) (k : Fin 200) :
    (Proc.create mem0 words).prog[k] = words.getD k.val 0#128 := by
  simp [Proc.create]

theorem Proc.inv_create {mem0 : Memory} {words : List InstrWord} (h : Memory.Wf 65536 mem0)
    (hlen : words.length ≤ 200) : (Proc.create mem0 words).Inv :=
  Proc.inv_of_start (Mmu.inv_create h) rfl rfl hlen fun k hk => by
    rw [Proc.prog_create, List.getD_eq_default _ _ hk]

/-! ## The programs (R111, R280) -/

theorem assembleLines_length {lines : List Text} {ws : List InstrWord} (h : assembleLines lines = .ok ws) :
    ws.length = lines.length := by
  induction lines generalizing ws with
  | nil => cases h; rfl
  | cons l ls ih =>
    rw [assembleLines] at h
    split at h
    next => cases h
    next =>
      split at h
      next => cases h
      next hls => cases h; rw [List.length_cons, List.length_cons, ih hls]

theorem assemble_length {source : Text} {ws : List InstrWord} (h : assemble source = .ok ws) : ws.length ≤ 200 := by
  have hlines := (assemble_ok_iff.1 ⟨ws, h⟩).1
  rw [assemble] at h
  simp only [Nat.not_lt.2 hlines, if_false] at h
  rwa [assembleLines_length h]

/-- The programs stand in declaration order, each assembled from its own source. -/
theorem assembleAll_forall₂ {procs : List (Text × Text)} {wss : List (List InstrWord)}
    (h : assembleAll procs = .ok wss) : List.Forall₂ (fun d ws => assemble d.2 = .ok ws) procs wss := by
  induction procs generalizing wss with
  | nil => cases h; exact .nil
  | cons d ds ih =>
    rw [assembleAll] at h
    split at h
    next => cases h
    next hd =>
      split at h
      next => cases h
      next hds => cases h; exact .cons hd (ih hds)

/-! ## The configuration (R242) -/

theorem Topology.Sound.wiringValid {t : Topology} (h : t.Sound) : WiringValid t.wiring t.procs.length := by
  have hperm := Topology.boundEndpoints_perm h.oneStdin h.oneStdout
  refine ⟨List.length_map .., h.idsDistinct, h.somePort, fun e he => ?_,
    hperm.nodup_iff.2 ((nodup_map_endpoint_iff h.refsSound).2 h.boundOnce)⟩
  obtain ⟨r, hr, rfl⟩ := List.mem_map.1 (hperm.mem_iff.1 he)
  obtain ⟨hid, hport, hlt⟩ := h.refsSound r hr
  have hidx := List.idxOf_lt_length_of_mem hid
  rw [List.length_map] at hidx
  exact ⟨hidx, by simp only [PortRef.endpoint, Topology.wiring]; omega⟩

/-- What an accepted configuration starts as (R280). -/
theorem boot_eq_ok {t : Topology} {feed : List Text} {s : State} (h : boot t feed = .ok s) :
    t.Sound ∧ ∃ programs, assembleAll t.procs = .ok programs ∧
      s = State.create t.wiring (imageMemory t.mem0) programs feed := by
  rw [boot] at h
  split at h
  next => cases h
  next w hw =>
    have hsound := Topology.sound_of_wire hw
    obtain rfl : t.wiring = w := Except.ok.inj (hsound.wire.symm.trans hw)
    split at h
    next => cases h
    next programs hprograms => exact ⟨hsound, programs, hprograms, (Except.ok.inj h).symm⟩

theorem boot_length {t : Topology} {feed : List Text} {s : State} (h : boot t feed = .ok s) :
    s.procs.length = t.procs.length := by
  obtain ⟨-, programs, hprograms, rfl⟩ := boot_eq_ok h
  exact (List.length_map ..).trans (assembleAll_forall₂ hprograms).length_eq.symm

/-- Each processor of a booted machine is its declaration's, at reset with its own program. -/
theorem boot_proc {t : Topology} {feed : List Text} {s : State} (h : boot t feed = .ok s) {k : Nat} {p : Proc}
    (hp : s.procs[k]? = some p) :
    ∃ d words, t.procs[k]? = some d ∧ assemble d.2 = .ok words ∧ p = Proc.create (imageMemory t.mem0) words := by
  obtain ⟨-, programs, hprograms, rfl⟩ := boot_eq_ok h
  obtain ⟨hlength, hassemble⟩ := List.forall₂_iff_get.1 (assembleAll_forall₂ hprograms)
  have hmap : (programs.map (Proc.create (imageMemory t.mem0)))[k]? = some p := hp
  obtain ⟨words, hwords, rfl⟩ := Option.map_eq_some_iff.1 (List.getElem?_map .. ▸ hmap)
  obtain ⟨hk, rfl⟩ := List.getElem?_eq_some_iff.1 hwords
  exact ⟨_, _, List.getElem?_eq_getElem (hlength ▸ hk), hassemble k (hlength ▸ hk) hk, rfl⟩

/-- Settles O11: one processor at slot 0 with the engine at reset, and no endpoint bound. -/
theorem resetMeetsInvariants : Obligations.ResetMeetsInvariants where
  procs := fun p hp => by
    obtain rfl := List.mem_singleton.1 hp
    exact Proc.inv_of_start Mmu.inv_reset rfl rfl (Nat.zero_le _) fun k _ => by simp [Proc.reset]
  wiring := ⟨rfl, by decide, by decide, by decide, by decide⟩

/-- Settles O14: a sound topology gives a valid configuration, and every assembled program fits its processor. -/
theorem bootMeetsInvariants : Obligations.BootMeetsInvariants := by
  intro t feed s h
  refine ⟨fun p hp => ?_, ?_⟩
  · obtain ⟨k, hk⟩ := List.getElem?_of_mem hp
    obtain ⟨d, words, -, hwords, rfl⟩ := boot_proc h hk
    exact Proc.inv_create (imageMemory_wf _) (assemble_length hwords)
  · rw [boot_length h]
    obtain ⟨hsound, programs, -, rfl⟩ := boot_eq_ok h
    exact hsound.wiringValid

/-- Settles O57: every processor is `Proc.create` of the image and of its own program. -/
theorem bootGivesResetTable : Obligations.BootGivesResetTable := by
  intro t feed s h
  refine ⟨boot_length h, ?_, ?_, fun k p hp => ?_⟩
  · obtain ⟨-, programs, -, rfl⟩ := boot_eq_ok h
    rfl
  · obtain ⟨-, programs, -, rfl⟩ := boot_eq_ok h
    rfl
  · obtain ⟨d, words, hd, hwords, rfl⟩ := boot_proc h hp
    have hinv := Mmu.inv_create (imageMemory_wf t.mem0)
    refine ⟨rfl, rfl, rfl, rfl, rfl, rfl, rfl, rfl, rfl, Mmu.tlbEntry_create _, fun n => ?_, fun i _ => rfl,
      fun i hi => Memory.read_filter_lt _ hi, Mmu.value_create _, d, words, hd, hwords, rfl, Proc.prog_create _ _⟩
    have hpte : (Proc.create (imageMemory t.mem0) words).mmu.pte n = Pte.reset n := Mmu.pte_create _ n
    rw [hpte]
    exact ⟨rfl, rfl, rfl, Mmu.pte_create (imageMemory t.mem0) n ▸ hinv.swapOff_toNat n, Pte.frame_reset n⟩

end Sys2Proof.Machine
end

section
/-! PROOFS. The decomposition of an index, the range check and the TLB insertion, each from its law (R52, R53, R58); the
round trip of a write and a read (R86), and DUMPREG with peek (R231). -/

namespace Sys2Proof.Machine

open Sys2Proof

theorem dirIndex_eq (i : VIndex) : dirIndex i = i.toNat / 8192 := by
  have := i.isLt
  simp only [dirIndex, BitVec.extractLsb'_toNat, Nat.shiftRight_eq_div_pow]
  omega

theorem tblIndex_eq (i : VIndex) : tblIndex i = i.toNat / 1024 % 8 := by
  simp only [tblIndex, BitVec.extractLsb'_toNat, Nat.shiftRight_eq_div_pow, Nat.reducePow]

/-- Settles O20: the first five equations are the definitions, the other two the arithmetic of the fields. -/
theorem indexDecomposition : Obligations.IndexDecomposition := by
  intro i
  refine ⟨rfl, rfl, rfl, rfl, rfl, ?_, ?_⟩
  · rw [vpn_val, dirIndex_eq, tblIndex_eq]
    omega
  · rw [pageStart_eq_pageTag, pageTag_toNat, vpn_val, offset_eq]
    omega

theorem Mmu.peek_out_of_range (m : Mmu) {i : Int} (h : i < 0 ∨ 65536 ≤ i) : m.peek i = .error (.address i) := by
  simp only [Mmu.peek, checkIndex_eq_none.2 h]

/-- Settles O21: the three operations refuse the index at their range check. -/
theorem outOfRangeIndexIsRefused : Obligations.OutOfRangeIndexIsRefused := fun m _ v h =>
  ⟨m.read_out_of_range h, m.write_out_of_range v h, m.peek_out_of_range h⟩

/-- Settles O26: an entry other than the head's that has the frame after the insertion has been invalidated. -/
theorem tlbInsertLeavesOneEntry : Obligations.TlbInsertLeavesOneEntry := by
  intro m tag f
  refine ⟨by rw [Mmu.tlbEntry_tlbInsert, if_pos rfl], m.tlbInsert_tlbHead tag f, fun k hvalid hframe => ?_,
    fun k hk hframe => ?_⟩
  · by_contra hk
    rw [Mmu.tlbEntry_tlbInsert, if_neg hk] at hvalid hframe
    split at hvalid
    next => cases hvalid
    next hstale => exact hstale ⟨hvalid, by rwa [if_neg hstale] at hframe⟩
  · rw [Mmu.tlbEntry_tlbInsert, if_neg hk, if_neg fun hstale => hframe hstale.2]

/-- Settles O22: the write makes V(i) the word written, and the read answers V(i). -/
theorem readAfterWriteRoundTrip : Obligations.ReadAfterWriteRoundTrip := by
  intro m i v h
  obtain ⟨m₁, hwrite, hinv, hval, -⟩ := h.write v (checkIndex_toNat i)
  obtain ⟨m₂, hread, -⟩ := hinv.read (checkIndex_toNat i)
  exact ⟨m₁, m₂, hwrite, by rw [hread, hval, if_pos rfl]⟩

/-- Settles O54: the records are those of the loop over V(0) to V(65535). -/
theorem dumpregPeek : Obligations.DumpregPeek := by
  intro s p hcur hmode
  have hexec : exec .dumpreg s = .next (s.setCurrent (p.emitDump p.mmu.dumpPeek).finish) :=
    State.onCurrent_ok hcur (by simp only [hmode, Proc.dumpMemory])
  exact ⟨_, _, p.mmu.dumpPeek, hexec, State.onlyCurrent_setCurrent hcur _, by simp, p.mmu.length_dumpPeek,
    p.mmu.getElem?_dumpPeek, Proc.endsAt_finish_of rfl rfl rfl, by simp, by simp, by simp, by simp, by simp⟩

end Sys2Proof.Machine
end

section
/-! PROOFS. Under the invariants every enabled processor's instruction has a next state (R61, R131, R136, R262): no read
or write stalls, and no IN or OUT that the schedule picks lacks its partner. -/

namespace Sys2Proof.Machine

open Sys2Proof

/-! ## Memory accesses complete -/

/-- An instruction that reads and then completes, completes; out of range it ends with AddressError (R53). -/
theorem Proc.withRead_completes {p : Proc} (h : p.mmu.Inv) (i : Int) {k : F64 → Proc → Except Fault Proc}
    (hk : ∀ x m, m.Inv → ∃ p', k x (p.setMmu m) = .ok p') : ∃ p', p.withRead i k = .ok p' := by
  cases hi : checkIndex i with
  | none => exact ⟨_, p.withRead_out_of_range (checkIndex_eq_none.1 hi) k⟩
  | some j =>
    obtain ⟨m, hread, hinv, -⟩ := h.read hi
    rw [Proc.withRead_ok hread]
    exact hk _ m hinv

/-- An instruction that writes and then completes, completes; out of range it ends with AddressError (R53). -/
theorem Proc.withWrite_completes {p : Proc} (h : p.mmu.Inv) (i : Int) (v : F64) {k : Proc → Except Fault Proc}
    (hk : ∀ m, ∃ p', k (p.setMmu m) = .ok p') : ∃ p', p.withWrite i v k = .ok p' := by
  cases hi : checkIndex i with
  | none => exact ⟨_, p.withWrite_out_of_range (checkIndex_eq_none.1 hi) v k⟩
  | some j =>
    obtain ⟨m, hwrite, -⟩ := h.write v hi
    rw [Proc.withWrite_ok hwrite]
    exact hk m

/-- The first access of LOADIND and STOREIND completes, and a word that is no index ends the instruction (R180). -/
theorem Proc.withPointer_completes {p : Proc} (h : p.mmu.Inv) (i : Int) {k : Int → Proc → Except Fault Proc}
    (hk : ∀ a m, m.Inv → ∃ p', k a (p.setMmu m) = .ok p') : ∃ p', p.withPointer i k = .ok p' :=
  Proc.withRead_completes h i fun x m hinv => by
    cases toIndex x with
    | error c => exact ⟨_, rfl⟩
    | ok a => exact hk a m hinv

theorem Proc.arithMem_completes {p : Proc} (h : p.mmu.Inv) (op : F64 → F64 → F64) (i : Int) :
    ∃ p', p.arithMem op i = .ok p' :=
  Proc.withRead_completes h i fun _ _ _ => ⟨_, rfl⟩

theorem Proc.dumpMemory_completes {p : Proc} (h : p.mmu.Inv) (mode : DumpMode) : ∃ p', p.dumpMemory mode = .ok p' := by
  cases mode with
  | peek => exact ⟨_, rfl⟩
  | viaMmu =>
    obtain ⟨m, hdump, -⟩ := h.dumpRead_all
    simp only [Proc.dumpMemory, hdump, Except.ok.injEq, exists_eq']

/-! ## Instructions complete -/

theorem State.onCurrent_completes {s : State} {p : Proc} {f : Proc → Except Fault Proc} (hcur : s.current = some p)
    (h : ∃ p', f p = .ok p') : ∃ t, s.onCurrent f = .next t := by
  obtain ⟨p', hp'⟩ := h
  exact ⟨_, State.onCurrent_ok hcur hp'⟩

/-- IN completes: a port out of range faults (R160), and a port in range has its producer ready. -/
theorem execIn_completes {s : State} {p : Proc} {f : BitVec 32} (hcur : s.current = some p)
    (hready : ∀ n, checkPort s.wiring.numPorts (immI f) = some n → (s.producer ⟨s.turn, n⟩).isSome = true) :
    ∃ t, execIn f s = .next t := by
  simp only [execIn, hcur]
  cases hport : checkPort s.wiring.numPorts (immI f) with
  | none => exact ⟨_, rfl⟩
  | some n =>
    obtain ⟨src, hsrc⟩ := Option.isSome_iff_exists.1 (hready n hport)
    simp only [hsrc]
    exact ⟨_, rfl⟩

/-- OUT completes: a port out of range faults (R160), and a port in range has its consumer ready. -/
theorem execOut_completes {s : State} {p : Proc} {f : BitVec 32} (hcur : s.current = some p)
    (hready : ∀ n, checkPort s.wiring.numPorts (immI f) = some n → (s.consumer ⟨s.turn, n⟩).isSome = true) :
    ∃ t, execOut f s = .next t := by
  simp only [execOut, hcur]
  cases hport : checkPort s.wiring.numPorts (immI f) with
  | none => exact ⟨_, rfl⟩
  | some n =>
    obtain ⟨dst, hdst⟩ := Option.isSome_iff_exists.1 (hready n hport)
    simp only [hdst]
    exact ⟨_, rfl⟩

/-- The next instruction of an enabled processor, if it is an IN or OUT with a port in range, has its partner (R136). -/
theorem State.partner_of_enabled {s : State} {k : Nat} {p : Proc} {i : Instr} (h : s.enabled k = true)
    (hp : s.procs[k]? = some p) (hi : p.nextInstr = some i) {f : BitVec 32} {n : Nat}
    (hn : checkPort s.wiring.numPorts (immI f) = some n) :
    (i = .in_ f → (s.producer ⟨k, n⟩).isSome = true) ∧ (i = .out f → (s.consumer ⟨k, n⟩).isSome = true) := by
  simp only [State.enabled, hp, hi, Option.bind_some, Bool.and_eq_true] at h
  obtain ⟨⟨-, hin⟩, hout⟩ := h
  constructor
  · rintro rfl
    simpa only [inPort?, hn] using hin
  · rintro rfl
    simpa only [outPort?, hn] using hout

/-- An enabled processor's next instruction completes on an engine that meets the invariants. -/
theorem exec_completes {s : State} {p : Proc} {i : Instr} (henabled : s.enabled s.turn = true)
    (hcur : s.current = some p) (hi : p.nextInstr = some i) (h : p.mmu.Inv) : ∃ t, exec i s = .next t := by
  have alone : ∀ {g : Proc → Except Fault Proc}, (∃ p', g p = .ok p') → ∃ t, s.onCurrent g = .next t :=
    State.onCurrent_completes hcur
  cases i with
  | in_ f => exact execIn_completes hcur fun n hn => (State.partner_of_enabled henabled hcur hi hn).1 rfl
  | out f => exact execOut_completes hcur fun n hn => (State.partner_of_enabled henabled hcur hi hn).2 rfl
  | load f => exact alone (Proc.withRead_completes h _ fun _ _ _ => ⟨_, rfl⟩)
  | store f => exact alone (Proc.withWrite_completes h _ _ fun _ => ⟨_, rfl⟩)
  | add f => exact alone (Proc.arithMem_completes h _ _)
  | sub f => exact alone (Proc.arithMem_completes h _ _)
  | mul f => exact alone (Proc.arithMem_completes h _ _)
  | div f => exact alone (Proc.arithMem_completes h _ _)
  | loadind f =>
    exact alone (Proc.withPointer_completes h _ fun a m hm =>
      Proc.withRead_completes (p := p.setMmu m) hm a fun _ _ _ => ⟨_, rfl⟩)
  | storeind f =>
    exact alone (Proc.withPointer_completes h _ fun a m hm =>
      Proc.withWrite_completes (p := p.setMmu m) hm a _ fun _ => ⟨_, rfl⟩)
  | dumpreg => exact alone (Proc.dumpMemory_completes h _)
  | stop | start | dumpprog | loadnum _ | addnum _ | subnum _ | mulnum _ | divnum _ | jump _ | jumpneg _ | jumppos _
  | jumpnull _ | unrecognized _ =>
    simp only [exec, execStop, execStart, execDumpprog, execLoadnum, execAddnum, execSubnum, execMulnum, execDivnum,
      execJump, execJumpneg, execJumppos, execJumpnull, execUnrecognized]
    exact alone ⟨_, rfl⟩

/-! ## A step -/

/-- The schedule picks a processor exactly if some processor has a step. -/
theorem State.pick_eq_none_iff {s : State} : s.pick = none ↔ ∀ k, s.enabled k = false := by
  simp only [State.pick_eq_none, List.eq_nil_iff_forall_not_mem, State.mem_enabledList, Bool.not_eq_true]

/-- The step of a picked processor has a next state: its pc names a slot (R131), and its instruction completes. -/
theorem State.Inv.step_completes {s : State} (h : s.Inv) {k : Nat} (hk : s.pick = some k) : ∃ t, step s = .next t := by
  have henabled := State.pick_mem hk
  obtain ⟨p, hp, hready⟩ := State.ready_of_enabled henabled
  have hinv := h.procs p (List.mem_of_getElem? hp)
  obtain ⟨hrunning, hnofault⟩ := Proc.ready_iff.1 hready
  obtain ⟨i, hi⟩ := Proc.nextInstr_of_range (hinv.pcInProg hrunning hnofault)
  have hfetch : (s.setTurn k).fetchDecode = some i := State.fetchDecode_eq_some.2 ⟨p, hp, hi⟩
  obtain ⟨t, ht⟩ := exec_completes (s := s.setTurn k) henabled hp hi hinv.mmu
  exact ⟨t.endStep, by simp only [step, hk, hfetch, ht, endOutcome]⟩

theorem State.stopReason_cases (s : State) :
    s.stopReason = .runEnded ∨ s.stopReason = .runFaulted ∨ s.stopReason = .deadlock := by
  rw [State.stopReason]
  split
  · exact .inl rfl
  · split
    · exact .inr (.inl rfl)
    · exact .inr (.inr rfl)

/-- Settles O13: the schedule picks an enabled processor if there is one, and stops with R262's reason if not. -/
theorem progressUnderInvariants : Obligations.ProgressUnderInvariants := by
  intro s hs
  refine ⟨fun ⟨k, hk⟩ => ?_, fun hnone => ?_⟩
  · cases hpick : s.pick with
    | none => simp [State.pick_eq_none_iff.1 hpick k] at hk
    | some j => exact hs.step_completes hpick
  · simp only [step, State.pick_eq_none_iff.2 hnone, Host.Outcome.fault.injEq]
    exact s.stopReason_cases

end Sys2Proof.Machine
end

section
/-! PROOFS. The victim of second chance (R62): a stretch of the sweep that selects nothing clears the accessed bits of
the pages it passes, and the sweep ends at the first page it then meets present with accessed = 0. -/

namespace Sys2Proof.Machine

open Sys2Proof

/-- Two page tables with the same entries. -/
theorem pageTable_ext {pt pt' : Vector Pte 64} (h : ∀ n : Fin 64, pt[n] = pt'[n]) : pt = pt' :=
  Vector.ext fun k hk => h ⟨k, hk⟩

theorem getElem_set_page (pt : Vector Pte 64) (p n : Fin 64) (e : Pte) :
    (pt.set p e)[n] = if n = p then e else pt[n] := by
  simp only [Fin.getElem_fin, Vector.getElem_set, Fin.ext_iff, eq_comm]

/-- The page table with the accessed bits of the present pages among the d pages from j cleared. -/
def clearAccessed (pt : Vector Pte 64) (j : Fin 64) (d : Nat) : Vector Pte 64 :=
  Vector.ofFn fun n => if pt[n].present = true ∧ (n - j).val < d then { pt[n] with accessed := false } else pt[n]

theorem getElem_clearAccessed (pt : Vector Pte 64) (j : Fin 64) (d : Nat) (n : Fin 64) :
    (clearAccessed pt j d)[n] =
      if pt[n].present = true ∧ (n - j).val < d then { pt[n] with accessed := false } else pt[n] := by
  simp only [clearAccessed, Fin.getElem_fin, Vector.getElem_ofFn, Fin.eta]

@[simp] theorem clearAccessed_zero (pt : Vector Pte 64) (j : Fin 64) : clearAccessed pt j 0 = pt :=
  pageTable_ext fun n => (getElem_clearAccessed pt j 0 n).trans (if_neg (by omega))

/-- The page at distance d from j. -/
theorem sub_val_eq_iff {n j : Fin 64} {d : Nat} (hd : d < 64) : (n - j).val = d ↔ n = j + Fin.ofNat 64 d := by
  simp only [Fin.ext_iff, Fin.sub_def, Fin.add_def, Fin.ofNat_eq_cast, Fin.val_natCast]
  omega

theorem add_ofNat_succ (j : Fin 64) (d : Nat) : j + Fin.ofNat 64 d + 1 = j + Fin.ofNat 64 (d + 1) := by
  simp only [Fin.ext_iff, Fin.add_def, Fin.ofNat_eq_cast, Fin.val_natCast, Fin.coe_ofNat_eq_mod]
  omega

/-- One page more: what the sweep does to the page table when it passes the page (R62). -/
theorem clearAccessed_succ (pt : Vector Pte 64) {j p : Fin 64} {d : Nat} (hp : (p - j).val = d) :
    clearAccessed pt j (d + 1) =
      if pt[p].present = true then (clearAccessed pt j d).set p { pt[p] with accessed := false }
      else clearAccessed pt j d := by
  have hlt : ∀ n : Fin 64, (n - j).val < d + 1 ↔ (n - j).val < d ∨ n = p := fun n => by
    rw [Nat.lt_succ_iff_lt_or_eq, ← hp, ← Fin.ext_iff, sub_left_inj]
  by_cases hpres : pt[p].present = true
  · rw [if_pos hpres]
    refine pageTable_ext fun n => ?_
    rw [getElem_set_page, getElem_clearAccessed]
    by_cases hn : n = p
    · subst hn
      rw [if_pos rfl, if_pos ⟨hpres, by omega⟩]
    · simp only [getElem_clearAccessed, hlt, hn, or_false, if_false]
  · rw [if_neg hpres]
    refine pageTable_ext fun n => ?_
    by_cases hn : n = p
    · subst hn
      rw [getElem_clearAccessed, getElem_clearAccessed, if_neg (mt And.left hpres), if_neg (mt And.left hpres)]
    · simp only [getElem_clearAccessed, hlt, hn, or_false]

/-- A sweep over d pages of which none is present with accessed = 0. -/
theorem sweep_past {pt : Vector Pte 64} {j : Fin 64} {d : Nat} (fuel : Nat) (hd : d ≤ 64)
    (h : ∀ n : Fin 64, pt[n].present = true → (n - j).val < d → pt[n].accessed = true) :
    sweep (d + fuel) j pt = sweep fuel (j + Fin.ofNat 64 d) (clearAccessed pt j d) := by
  induction d generalizing fuel with
  | zero => simp
  | succ d ih =>
    have hdist := (sub_val_eq_iff (n := j + Fin.ofNat 64 d) (j := j) (show d < 64 by omega)).2 rfl
    have hpage : (clearAccessed pt j d)[j + Fin.ofNat 64 d] = pt[j + Fin.ofNat 64 d] := by
      rw [getElem_clearAccessed, if_neg (by omega)]
    rw [Nat.add_right_comm, Nat.add_assoc, ih (fuel + 1) (by omega) fun n hp hn => h n hp (by omega), sweep, hpage,
      add_ofNat_succ, clearAccessed_succ pt hdist]
    by_cases hp : pt[j + Fin.ofNat 64 d].present = true
    · rw [if_pos hp, if_pos hp, if_pos (h _ hp (by omega))]
    · rw [if_neg hp, if_neg hp]

/-- A sweep selects the first page from j that is present with accessed = 0. -/
theorem sweep_first {pt : Vector Pte 64} {j v : Fin 64} {fuel : Nat} (hp : pt[v].present = true)
    (ha : pt[v].accessed = false)
    (h : ∀ n : Fin 64, pt[n].present = true → (n - j).val < (v - j).val → pt[n].accessed = true)
    (hfuel : (v - j).val < fuel) : sweep fuel j pt = some (v, clearAccessed pt j (v - j).val) := by
  obtain ⟨rest, rfl⟩ := Nat.exists_eq_add_of_lt hfuel
  have hv : j + Fin.ofNat 64 (v - j).val = v := ((sub_val_eq_iff (v - j).isLt).1 rfl).symm
  have hpage : (clearAccessed pt j (v - j).val)[v] = pt[v] := by rw [getElem_clearAccessed, if_neg (by omega)]
  rw [Nat.add_assoc, sweep_past _ (v - j).isLt.le h, hv, sweep, hpage, if_pos hp, if_neg (ha ▸ Bool.false_ne_true)]

/-- Of the pages with a property there is a first one from j. -/
theorem exists_first {P : Fin 64 → Prop} (j : Fin 64) (h : ∃ n, P n) :
    ∃ v, P v ∧ ∀ n, P n → (v - j).val ≤ (n - j).val := by
  obtain ⟨v, hv, hmin⟩ := (measure fun n : Fin 64 => (n - j).val).wf.has_min {n | P n} h
  exact ⟨v, hv, fun n hn => Nat.le_of_not_lt (hmin n hn)⟩

theorem Mmu.secondChance_of_sweep {m : Mmu} {v : Fin 64} {pt : Vector Pte 64}
    (h : sweep 128 m.scCursor m.pt = some (v, pt)) :
    m.secondChance = some (v, { m with pt := pt, scCursor := v + 1 }) := by
  simp only [Mmu.secondChance, h]

/-- A round that meets no page present with accessed = 0 comes back to its first page with every present page's bit
clear, and selects the first present page. -/
theorem sweep_second_round {pt : Vector Pte 64} {j v : Fin 64} (hv : pt[v].present = true)
    (hfirst : ∀ n : Fin 64, pt[n].present = true → (v - j).val ≤ (n - j).val)
    (hall : ∀ n : Fin 64, pt[n].present = true → pt[n].accessed = true) :
    sweep 128 j pt = some (v, clearAccessed pt j 64) := by
  have hround := sweep_past (pt := pt) (j := j) (d := 64) 64 le_rfl fun n hp _ => hall n hp
  have hj : j + Fin.ofNat 64 64 = j := by simp [Fin.ofNat]
  have hcleared : ∀ n : Fin 64, (clearAccessed pt j 64)[n] =
      if pt[n].present = true then { pt[n] with accessed := false } else pt[n] := fun n => by
    simp only [getElem_clearAccessed, (n - j).isLt, and_true]
  have hpres : ∀ n : Fin 64, (clearAccessed pt j 64)[n].present = pt[n].present := fun n => by
    rw [hcleared]; split <;> rfl
  have hbefore : ∀ n : Fin 64, (clearAccessed pt j 64)[n].present = true → ¬(n - j).val < (v - j).val :=
    fun n hn => Nat.not_lt.2 (hfirst n (hpres n ▸ hn))
  have hnone : clearAccessed (clearAccessed pt j 64) j (v - j).val = clearAccessed pt j 64 :=
    pageTable_ext fun n => (getElem_clearAccessed _ j _ n).trans (if_neg fun ⟨hn, hlt⟩ => hbefore n hn hlt)
  rw [hround, hj, sweep_first (by rw [hpres, hv]) (by rw [hcleared, if_pos hv])
    (fun n hn hlt => absurd hlt (hbefore n hn)) (v - j).isLt, hnone]

/-- Settles O24: by the sweep's one round, or its second one if the first clears every present page. -/
theorem secondChanceVictim : Obligations.SecondChanceVictim := by
  intro m h
  by_cases hclear : ∃ n, (m.pte n).present = true ∧ (m.pte n).accessed = false
  · obtain ⟨v, ⟨hv, ha⟩, hfirst⟩ := exists_first m.scCursor hclear
    have hbefore : ∀ n, (m.pte n).present = true → (n - m.scCursor).val < (v - m.scCursor).val →
        (m.pte n).accessed = true := fun n hn hlt => by
      by_contra hna
      exact absurd (hfirst n ⟨hn, by simpa using hna⟩) (by omega)
    have hsweep : sweep 128 m.scCursor m.pt = _ := sweep_first hv ha hbefore (by omega)
    refine ⟨v, _, Mmu.secondChance_of_sweep hsweep, rfl, rfl, hv, fun _ => ⟨ha, fun n => ?_⟩, fun hall => ?_⟩
    · have hpte := getElem_clearAccessed m.pt m.scCursor (v - m.scCursor).val n
      split
      next hn => exact ⟨hbefore n hn.1 hn.2, hpte.trans (if_pos hn)⟩
      next hn => exact hpte.trans (if_neg hn)
    · simp [hall v hv] at ha
  · have hall : ∀ n, (m.pte n).present = true → (m.pte n).accessed = true := by simpa using hclear
    obtain ⟨v, hv, hfirst⟩ : ∃ v, (m.pte v).present = true ∧
        ∀ n, (m.pte n).present = true → (v - m.scCursor).val ≤ (n - m.scCursor).val := by
      obtain ⟨u, -, -, -, hu, -⟩ := h.secondChance
      exact exists_first m.scCursor ⟨u, hu⟩
    refine ⟨v, _, Mmu.secondChance_of_sweep (sweep_second_round hv hfirst hall), rfl, rfl, hv,
      fun hsome => absurd hsome hclear, fun _ => ⟨hfirst, fun n => ?_⟩⟩
    have hpte := getElem_clearAccessed m.pt m.scCursor 64 n
    simp only [(n - m.scCursor).isLt, and_true] at hpte
    split
    next hn => exact hpte.trans (if_pos hn)
    next hn => exact hpte.trans (if_neg hn)

end Sys2Proof.Machine
end

section
/-! PROOFS. What a page fault changes (R60, R63 to R65): the selection, the write-back of the victim's frame and the
swap-in, each by what it does to the entries and to the words of the two memories. -/

namespace Sys2Proof.Machine

open Sys2Proof

theorem in_block {base o : Nat} (h : o < 1024) : base ≤ base + o ∧ base + o < base + 1024 := by omega

theorem outside_block {base a : Nat} (h : ∀ o, o < 1024 → a ≠ base + o) : ¬(base ≤ a ∧ a < base + 1024) :=
  fun ⟨hle, hlt⟩ => h (a - base) (by omega) (by omega)

/-! ## The write-back of the victim (R60, R64) -/

/-- The engine after the swap-out of a dirty victim, and unchanged for a clean one (R60). -/
def Mmu.writeBack (m : Mmu) (v : Fin 64) : Mmu := if (m.pte v).dirty then m.swapOut v (m.pte v).frame else m

/-- PageFault(n) once its victim is selected (R60). -/
theorem Mmu.pageFault_of_secondChance {m m₁ : Mmu} {n v : Fin 64} (h : (m.logFault n).secondChance = some (v, m₁)) :
    m.pageFault n = some ((m₁.writeBack v).swapIn n v (m₁.pte v).frame) := by
  simp only [Mmu.pageFault, h, Mmu.writeBack]

@[simp] theorem Mmu.writeBack_phys (m : Mmu) (v : Fin 64) : (m.writeBack v).phys = m.phys := by
  rw [Mmu.writeBack]; split <;> rfl

theorem Mmu.tlbEntry_writeBack (m : Mmu) (v : Fin 64) (k : Fin 32) :
    (m.writeBack v).tlbEntry k = m.tlbEntry k := by
  rw [Mmu.writeBack]; split <;> rfl

@[simp] theorem Mmu.writeBack_tlbHead (m : Mmu) (v : Fin 64) : (m.writeBack v).tlbHead = m.tlbHead := by
  rw [Mmu.writeBack]; split <;> rfl

@[simp] theorem Mmu.writeBack_scCursor (m : Mmu) (v : Fin 64) : (m.writeBack v).scCursor = m.scCursor := by
  rw [Mmu.writeBack]; split <;> rfl

@[simp] theorem Mmu.writeBack_faultLog (m : Mmu) (v : Fin 64) : (m.writeBack v).faultLog = m.faultLog := by
  rw [Mmu.writeBack]; split <;> rfl

/-- The write-back leaves the victim clean, and the other entries as they were. -/
theorem Mmu.pte_writeBack (m : Mmu) (v k : Fin 64) :
    (m.writeBack v).pte k = if k = v then { m.pte v with dirty := false } else m.pte k := by
  rw [Mmu.writeBack]
  split
  next => exact m.pte_swapOut v _ k
  next hclean =>
    split
    next hk => rw [hk, ← (m.pte v).dirty.eq_false_of_not_eq_true hclean]
    next => rfl

/-- After the write-back the victim's swap slot holds the words of its frame: a clean victim's did before (I7). -/
theorem Mmu.Inv.read_writeBack {m : Mmu} (h : m.Inv) {v : Fin 64} (hv : (m.pte v).present = true) (a : Nat) :
    Memory.read (m.writeBack v).swap a =
      if v.val * 1024 ≤ a ∧ a < v.val * 1024 + 1024
        then Memory.read m.phys (frameWord (m.pte v).frame (a - v.val * 1024))
        else Memory.read m.swap a := by
  rw [Mmu.writeBack]
  split
  next => exact h.read_swapOut v _ a
  next hclean =>
    split
    next hslot =>
      rw [h.cleanEqual v hv (by simpa using hclean) _ (by omega)]
      congr 1
      omega
    next => rfl

theorem Mmu.Inv.writeBack {m : Mmu} (h : m.Inv) {v : Fin 64} (hv : (m.pte v).present = true) : (m.writeBack v).Inv := by
  rw [Mmu.writeBack]
  split
  · exact (h.swapOut hv).1
  · exact h

/-! ## The swap-in (R65) -/

/-- What SwapIn leaves in PHYS (R65): the swap slot's words in the frame. -/
theorem Mmu.Inv.read_swapIn {m : Mmu} (h : m.Inv) (n v : Fin 64) (f : Fin 4) (a : Nat) :
    Memory.read (m.swapIn n v f).phys a =
      if f.val * 1024 ≤ a ∧ a < f.val * 1024 + 1024 then Memory.read m.swap (n.val * 1024 + (a - f.val * 1024))
      else Memory.read m.phys a := by
  rw [Mmu.swapIn_phys, h.swapOff_toNat, Memory.read_copy h.swapWf h.physWf (by simp only [frameWord]; omega)]
  simp only [frameWord, Nat.zero_add, Nat.add_comm]

/-- What SwapIn leaves in the TLB is what its insertion leaves (R58, R65). -/
theorem Mmu.tlb_swapIn (m : Mmu) (n v : Fin 64) (f : Fin 4) :
    (m.swapIn n v f).tlbEntry m.tlbHead = { tag := pageTag n, frame := f, valid := true } ∧
    (∀ k, ((m.swapIn n v f).tlbEntry k).valid = true → ((m.swapIn n v f).tlbEntry k).frame = f → k = m.tlbHead) ∧
    (∀ k, k ≠ m.tlbHead → (m.tlbEntry k).frame ≠ f → (m.swapIn n v f).tlbEntry k = m.tlbEntry k) := by
  obtain ⟨hhead, -, hone, hothers⟩ := tlbInsertLeavesOneEntry
    (({ m with phys := Memory.copy m.swap (m.pte n).swapOff.toNat 1024 m.phys (frameWord f 0) } : Mmu).remap n v f)
    (pageTag n) f
  exact ⟨hhead, hone, hothers⟩

/-! ## The whole page fault -/

/-- The selection of a page fault on page n (R60, R62): another page, present and in the frame it had, and no change but
to accessed bits of present pages, the cursor and the log. -/
theorem Mmu.Inv.selectVictim {m : Mmu} (h : m.Inv) {n : Fin 64} (hn : (m.pte n).present = false) :
    ∃ v m₁, (m.logFault n).secondChance = some (v, m₁) ∧ m₁.Inv ∧ n ≠ v ∧ (m₁.pte v).present = true ∧
      (m₁.pte v).frame = (m.pte v).frame ∧ m₁.pte n = m.pte n ∧ m₁.phys = m.phys ∧ m₁.swap = m.swap ∧
      (∀ k, m₁.tlbEntry k = m.tlbEntry k) ∧ m₁.tlbHead = m.tlbHead ∧ m₁.faultLog = m.faultLog ++ [n] := by
  obtain ⟨v, m₁, hsel, hinv, hv, -, -, hpt, hphys, hswap, htlb, hhead, hlog⟩ := (h.logFault n).secondChance
  simp only [Mmu.pte_logFault] at hv hpt
  refine ⟨v, m₁, hsel, hinv, ?_, ?_, ?_, ?_, hphys, hswap, fun k => ?_, hhead, hlog⟩
  · rintro rfl
    simp [hn] at hv
  · rcases hpt v with he | ⟨-, he⟩ <;> rw [he] <;> exact hv
  · rcases hpt v with he | ⟨-, he⟩ <;> rw [he]
  · exact (hpt n).resolve_right fun he => by simp [hn] at he
  · simp only [Mmu.tlbEntry, htlb, Mmu.logFault_tlb]

/-- Settles O25: the selection changes accessed bits alone, the write-back the victim's slot, the swap-in its frame. -/
theorem pageFaultEffect : Obligations.PageFaultEffect := by
  intro m n h hn
  obtain ⟨v, m₁, hsel, hinv₁, hne, hv₁, hframe, hpte_n, hphys, hswap, hentry, hhead, hlog⟩ := h.selectVictim hn
  have hfault : m.pageFault n = some ((m₁.writeBack v).swapIn n v (m.pte v).frame) :=
    hframe ▸ Mmu.pageFault_of_secondChance hsel
  obtain ⟨m', hm', hinv', hval, -, -⟩ := h.pageFault hn
  obtain rfl := Option.some.inj (hfault.symm.trans hm')
  have hinv₂ := hinv₁.writeBack hv₁
  have hpte := (m₁.writeBack v).pte_swapIn (m.pte v).frame hne
  have hread_phys := hinv₂.read_swapIn n v (m.pte v).frame
  have hread_swap := hinv₁.read_writeBack hv₁
  rw [Mmu.writeBack_phys, hphys] at hread_phys
  rw [hswap, hphys, hframe] at hread_swap
  obtain ⟨htlb_head, htlb_one, htlb_others⟩ := (m₁.writeBack v).tlb_swapIn n v (m.pte v).frame
  simp only [Mmu.writeBack_tlbHead, hhead, Mmu.tlbEntry_writeBack, hentry] at htlb_head htlb_one htlb_others
  refine ⟨v, m₁, _, hsel, hfault, hne.symm, ?_, ?_, ?_, fun k hkv hkn => ?_, fun o ho => ?_, fun a ha => ?_,
    fun o ho => ?_, fun a ha => ?_, ?_, ?_, htlb_one, htlb_others, htlb_head, hval, hinv'⟩
  · rw [Mmu.swapIn_faultLog, Mmu.writeBack_faultLog, hlog]
  · rw [hpte, if_neg hne.symm, if_pos rfl, Mmu.pte_writeBack, if_pos rfl]
  · rw [hpte, if_pos rfl, Mmu.pte_writeBack, if_neg hne, hpte_n]
  · rw [hpte, if_neg hkn, if_neg hkv, Mmu.pte_writeBack, if_neg hkv]
  · rw [hread_phys, frameWord, if_pos (in_block ho), Nat.add_sub_cancel_left, hread_swap, if_neg]
    have := Fin.val_ne_of_ne hne
    omega
  · rw [hread_phys, if_neg (outside_block ha)]
  · rw [Mmu.swapIn_swap, hread_swap, if_pos (in_block ho), Nat.add_sub_cancel_left]
  · rw [Mmu.swapIn_swap, hread_swap, if_neg (outside_block ha)]
  · rw [Mmu.swapIn_scCursor, Mmu.writeBack_scCursor]
  · rw [Mmu.swapIn_tlbHead, Mmu.writeBack_tlbHead, hhead]

end Sys2Proof.Machine
end

section
/-! PROOFS. The TLB is transparent (R87): an engine that meets the invariants and one equal to it but for the TLB answer
an access alike, the second with every probe forced to miss, and stay equal but for the TLB. -/

namespace Sys2Proof.Machine

open Sys2Proof

/-! ## The operations below the translation -/

theorem Mmu.sameButTlb.pte {m m' : Mmu} (h : m.sameButTlb m') (n : Fin 64) : m.pte n = m'.pte n := by
  obtain ⟨hpt, -⟩ := h
  simp only [Mmu.pte, hpt]

theorem Mmu.sameButTlb.phys {m m' : Mmu} (h : m.sameButTlb m') : m.phys = m'.phys := by
  obtain ⟨-, -, hphys, -⟩ := h
  exact hphys

/-- Two engines equal but for the TLB are one engine with two TLBs. -/
theorem Mmu.sameButTlb_iff {m m' : Mmu} :
    m.sameButTlb m' ↔ m' = { m with tlb := m'.tlb, tlbHead := m'.tlbHead } := by
  cases m
  cases m'
  simp only [Mmu.sameButTlb, Mmu.mk.injEq, true_and, eq_comm]
  tauto

theorem Mmu.sameButTlb.markAccessed {m m' : Mmu} (h : m.sameButTlb m') (n : Fin 64) :
    (m.markAccessed n).sameButTlb (m'.markAccessed n) := by
  rw [Mmu.sameButTlb_iff.1 h]
  exact ⟨rfl, rfl, rfl, rfl, rfl⟩

/-- The dirty bit and the store of a write (R71). -/
theorem Mmu.sameButTlb.store {m m' : Mmu} (h : m.sameButTlb m') (n : Fin 64) (mem : Memory) :
    ({ m.markDirty n with phys := mem } : Mmu).sameButTlb { m'.markDirty n with phys := mem } := by
  rw [Mmu.sameButTlb_iff.1 h]
  exact ⟨rfl, rfl, rfl, rfl, rfl⟩

theorem Mmu.sameButTlb.writeBack {m m' : Mmu} (h : m.sameButTlb m') (v : Fin 64) :
    (m.writeBack v).sameButTlb (m'.writeBack v) := by
  rw [Mmu.sameButTlb_iff.1 h, Mmu.writeBack, Mmu.writeBack, Mmu.pte, Mmu.pte]
  split <;> exact ⟨rfl, rfl, rfl, rfl, rfl⟩

theorem Mmu.sameButTlb.swapIn {m m' : Mmu} (h : m.sameButTlb m') (n v : Fin 64) (f : Fin 4) :
    (m.swapIn n v f).sameButTlb (m'.swapIn n v f) := by
  rw [Mmu.sameButTlb_iff.1 h]
  exact ⟨rfl, rfl, rfl, rfl, rfl⟩

theorem Mmu.sameButTlb.secondChance {m m' m₁ : Mmu} (h : m.sameButTlb m') {v : Fin 64}
    (hs : m.secondChance = some (v, m₁)) : ∃ m₁', m'.secondChance = some (v, m₁') ∧ m₁.sameButTlb m₁' := by
  rw [Mmu.sameButTlb_iff.1 h]
  rw [Mmu.secondChance] at hs ⊢
  split at hs
  next => cases hs
  next hsweep =>
    cases hs
    simp only [hsweep]
    exact ⟨_, rfl, rfl, rfl, rfl, rfl, rfl⟩

/-- A page fault reads no TLB entry (R60 to R65). -/
theorem Mmu.sameButTlb.pageFault {m m' m₁ : Mmu} (h : m.sameButTlb m') {n : Fin 64} (hf : m.pageFault n = some m₁) :
    ∃ m₁', m'.pageFault n = some m₁' ∧ m₁.sameButTlb m₁' := by
  have hlogged : (m.logFault n).sameButTlb (m'.logFault n) := by
    rw [Mmu.sameButTlb_iff.1 h]
    exact ⟨rfl, rfl, rfl, rfl, rfl⟩
  cases hsel : (m.logFault n).secondChance with
  | none =>
    rw [Mmu.pageFault, hsel] at hf
    cases hf
  | some r =>
    obtain ⟨m₂', hsel', hs⟩ := hlogged.secondChance hsel
    obtain rfl := Option.some.inj ((Mmu.pageFault_of_secondChance hsel).symm.trans hf)
    refine ⟨_, Mmu.pageFault_of_secondChance hsel', ?_⟩
    rw [hs.pte]
    exact (hs.writeBack r.1).swapIn n r.1 _

/-! ## Translation -/

/-- Steps 1 and 2 on a present page, and step 2 alone on the other engine (R55 to R57). -/
theorem Mmu.Inv.lookup_sameButTlb {m m' : Mmu} (h : m.Inv) (hs : m.sameButTlb m') {i : VIndex}
    (hp : (m.pte (vpn i)).present = true) :
    ∃ a m₁ m₁', m.lookup i = some (a, m₁) ∧ m'.lookupMiss i = some (a, m₁') ∧ m₁.sameButTlb m₁' := by
  obtain ⟨m₁, hl, -, hpt, hphys, hswap, hcursor, hlog⟩ := h.lookup_present hp
  obtain ⟨hpt', hcursor', hphys', hswap', hlog'⟩ := hs.markAccessed (vpn i)
  rw [hs.pte] at hp hl
  refine ⟨_, m₁, _, hl, by rw [Mmu.lookupMiss, if_pos hp], ?_⟩
  simp only [Mmu.sameButTlb, Mmu.tlbInsert_pt, Mmu.tlbInsert_scCursor, Mmu.tlbInsert_phys, Mmu.tlbInsert_swap,
    Mmu.tlbInsert_faultLog]
  exact ⟨hpt.trans hpt', hcursor.trans hcursor', hphys.trans hphys', hswap.trans hswap', hlog.trans hlog'⟩

/-- Translate on the two engines, with at most one page fault on each (R66, R68). -/
theorem Mmu.Inv.translate_sameButTlb {m m' : Mmu} (h : m.Inv) (hs : m.sameButTlb m') (i : VIndex) :
    ∃ a m₁ m₁', m.translate i = some (a, m₁) ∧ m'.translateMiss i = some (a, m₁') ∧ m₁.sameButTlb m₁' := by
  by_cases hp : (m.pte (vpn i)).present = true
  · obtain ⟨a, m₁, m₁', hl, hl', hs₁⟩ := h.lookup_sameButTlb hs hp
    exact ⟨a, m₁, m₁', by simp only [Mmu.translate, hl], by simp only [Mmu.translateMiss, hl'], hs₁⟩
  · have habsent : (m.pte (vpn i)).present = false := by simpa using hp
    obtain ⟨m₂, hf, hinv₂, -, hp₂, -⟩ := h.pageFault habsent
    obtain ⟨m₂', hf', hs₂⟩ := hs.pageFault hf
    obtain ⟨a, m₁, m₁', hl, hl', hs₁⟩ := hinv₂.lookup_sameButTlb hs₂ hp₂
    have hmiss : m'.lookupMiss i = none := by rw [Mmu.lookupMiss, ← hs.pte, if_neg hp]
    exact ⟨a, m₁, m₁', by simp only [Mmu.translate, h.lookup_absent habsent, hf, hl],
      by simp only [Mmu.translateMiss, hmiss, hf', hl'], hs₁⟩

/-! ## Accesses and traces -/

/-- One access, in range or not, on the two engines. -/
theorem Mmu.Inv.access_sameButTlb {m m' : Mmu} (h : m.Inv) (hs : m.sameButTlb m') (a : Access) :
    (m.access a).1 = (m'.accessMiss a).1 ∧ (m.access a).2.sameButTlb (m'.accessMiss a).2 := by
  cases a with
  | read i =>
    cases hi : checkIndex i with
    | none => simpa only [Mmu.access, Mmu.accessMiss, Mmu.read, hi, true_and] using hs
    | some j =>
      obtain ⟨a, m₁, m₁', ht, ht', hs₁⟩ := h.translate_sameButTlb hs j
      have hphys := hs₁.phys
      simpa only [Mmu.access, Mmu.accessMiss, Mmu.read, hi, ht, ht', hphys, true_and] using hs₁
  | write i v =>
    cases hi : checkIndex i with
    | none => simpa only [Mmu.access, Mmu.accessMiss, Mmu.write, hi, true_and] using hs
    | some j =>
      obtain ⟨a, m₁, m₁', ht, ht', hs₁⟩ := h.translate_sameButTlb hs j
      have hphys := hs₁.phys
      have hstored := hs₁.store (vpn j) (Memory.write m₁.phys a v)
      simpa only [Mmu.access, Mmu.accessMiss, Mmu.write, hi, ht, ht', Mmu.markDirty_phys, hphys, true_and]
        using hstored

/-- A trace on the two engines. -/
theorem Mmu.Inv.runTrace_sameButTlb {m m' : Mmu} (h : m.Inv) (hs : m.sameButTlb m') (trace : List Access) :
    (Mmu.runTrace Mmu.access trace m).1 = (Mmu.runTrace Mmu.accessMiss trace m').1 ∧
    (Mmu.runTrace Mmu.access trace m).2.sameButTlb (Mmu.runTrace Mmu.accessMiss trace m').2 := by
  induction trace generalizing m m' with
  | nil => exact ⟨rfl, hs⟩
  | cons a as ih =>
    obtain ⟨hanswer, hs₁⟩ := h.access_sameButTlb hs a
    obtain ⟨l, hl⟩ := h.access_faulted a
    obtain ⟨hanswers, hs₂⟩ := ih hl.inv hs₁
    simp only [Mmu.runTrace, hanswer, hanswers, true_and]
    exact hs₂

/-- Settles O23: the two runs start from the same engine. -/
theorem tlbIsTransparent : Obligations.TlbIsTransparent := fun _ trace h =>
  h.runTrace_sameButTlb ⟨rfl, rfl, rfl, rfl, rfl⟩ trace

end Sys2Proof.Machine
end

section
/-! PROOFS. No processor observes another's memory (R80): a step of a processor other than j does the same once
j's Memory Engine is hidden. -/

namespace Sys2Proof.Machine

open Sys2Proof

/-! ## The state without one memory -/

/-- Processor k as the state without j's memory shows it. -/
def Proc.hideIn (j k : Nat) (p : Proc) : Proc := if j = k then p.setMmu Mmu.reset else p

@[simp] theorem Proc.hideIn_acc (j k : Nat) (p : Proc) : (p.hideIn j k).acc = p.acc := by
  rw [Proc.hideIn]; split <;> rfl

@[simp] theorem Proc.hideIn_ready (j k : Nat) (p : Proc) : (p.hideIn j k).ready = p.ready := by
  rw [Proc.hideIn]; split <;> rfl

@[simp] theorem Proc.hideIn_nextInstr (j k : Nat) (p : Proc) : (p.hideIn j k).nextInstr = p.nextInstr := by
  rw [Proc.hideIn]; split <;> rfl

theorem Proc.hideIn_of_ne {j k : Nat} (h : k ≠ j) (p : Proc) : p.hideIn j k = p := if_neg h.symm

theorem Proc.finish_setMmu (p : Proc) (m : Mmu) : (p.setMmu m).finish = p.finish.setMmu m := by
  simp only [Proc.finish, Proc.guardPc, apply_ite (Proc.setMmu · m)]
  rfl

/-! The end of a step, the registers and the histories do not meet the memory that is hidden. -/

theorem Proc.hideIn_setAcc (j k : Nat) (p : Proc) (v : F64) : (p.hideIn j k).setAcc v = (p.setAcc v).hideIn j k := by
  rw [Proc.hideIn, Proc.hideIn]; split <;> rfl

theorem Proc.hideIn_recordPort (j k : Nat) (p : Proc) (r : PortRecord) :
    (p.hideIn j k).recordPort r = (p.recordPort r).hideIn j k := by
  rw [Proc.hideIn, Proc.hideIn]; split <;> rfl

theorem Proc.hideIn_finish (j k : Nat) (p : Proc) : (p.hideIn j k).finish = p.finish.hideIn j k := by
  rw [Proc.hideIn, Proc.hideIn]
  split
  · exact p.finish_setMmu _
  · rfl

@[simp] theorem State.hideMemory_wiring (j : Nat) (s : State) : (s.hideMemory j).wiring = s.wiring := rfl
@[simp] theorem State.hideMemory_stdin (j : Nat) (s : State) : (s.hideMemory j).stdin = s.stdin := rfl
@[simp] theorem State.hideMemory_turn (j : Nat) (s : State) : (s.hideMemory j).turn = s.turn := rfl
@[simp] theorem State.hideMemory_ticks (j : Nat) (s : State) : (s.hideMemory j).ticks = s.ticks := rfl

theorem State.length_hideMemory (j : Nat) (s : State) : (s.hideMemory j).procs.length = s.procs.length :=
  List.length_modify ..

theorem State.getElem?_hideMemory (j k : Nat) (s : State) :
    (s.hideMemory j).procs[k]? = s.procs[k]?.map (Proc.hideIn j k) := by
  rw [State.hideMemory, List.getElem?_modify]
  rfl

/-- A state that shows its processors as t without j's memory does, and the rest as t does. -/
theorem State.eq_hideMemory {j : Nat} {t u : State}
    (hprocs : ∀ k, u.procs[k]? = t.procs[k]?.map (Proc.hideIn j k)) (hrest : { u with procs := t.procs } = t) :
    u = t.hideMemory j := by
  have hlist : u.procs = (t.hideMemory j).procs :=
    List.ext_getElem? fun k => (hprocs k).trans (State.getElem?_hideMemory j k t).symm
  calc u = { ({ u with procs := t.procs } : State) with procs := u.procs } := rfl
    _ = t.hideMemory j := by rw [hrest, hlist]; rfl

/-- The processor of the turn is as it was, if it is not j. -/
theorem State.current_hideMemory {j : Nat} {s : State} (h : s.turn ≠ j) : (s.hideMemory j).current = s.current :=
  (State.getElem?_hideMemory j s.turn s).trans (by rw [funext (Proc.hideIn_of_ne h)]; exact Option.map_id')

theorem State.setCurrent_hideMemory {j : Nat} {s : State} (h : s.turn ≠ j) (p : Proc) :
    (s.hideMemory j).setCurrent p = (s.setCurrent p).hideMemory j := by
  refine State.eq_hideMemory (fun k => ?_) rfl
  simp only [State.setCurrent_procs, List.getElem?_set, State.length_hideMemory, State.getElem?_hideMemory,
    State.hideMemory_turn]
  split
  next hk =>
    rw [← hk]
    split
    · rw [Option.map_some, Proc.hideIn_of_ne h]
    · rfl
  next => rfl

/-! ## The schedule -/

theorem State.partner_hideMemory (j : Nat) (s : State) (port? : Instr → Option (BitVec 32)) (e : Endpoint) :
    (s.hideMemory j).partner port? e = (s.partner port? e).map (Proc.hideIn j e.proc) := by
  rw [State.partner, State.partner, State.getElem?_hideMemory, State.hideMemory_wiring]
  cases s.procs[e.proc]? with
  | none => rfl
  | some r =>
    simp only [Option.map_some, Proc.hideIn_nextInstr, Proc.hideIn_ready]
    cases r.nextInstr.bind port? with
    | none => rfl
    | some f => simp only [apply_ite (Option.map (Proc.hideIn j e.proc)), Option.map_some, Option.map_none]

/-- A producer as the state without j's memory shows it. -/
def Producer.hideMemory (j : Nat) : Producer → Producer
  | .line t rest => .line t rest
  | .processor q r => .processor q (r.hideIn j q.proc)

/-- A consumer as the state without j's memory shows it. -/
def Consumer.hideMemory (j : Nat) : Consumer → Consumer
  | .sink => .sink
  | .processor q r => .processor q (r.hideIn j q.proc)

theorem State.producer_hideMemory (j : Nat) (s : State) (e : Endpoint) :
    (s.hideMemory j).producer e = (s.producer e).map (Producer.hideMemory j) := by
  rw [State.producer, State.producer, State.hideMemory_wiring, State.hideMemory_stdin]
  cases bindingOf s.wiring e with
  | stdin => cases s.stdin <;> rfl
  | stdout | unbound => rfl
  | channel q =>
    simp only [State.partner_hideMemory]
    split
    · rfl
    · cases s.partner outPort? q <;> rfl

theorem State.consumer_hideMemory (j : Nat) (s : State) (e : Endpoint) :
    (s.hideMemory j).consumer e = (s.consumer e).map (Consumer.hideMemory j) := by
  rw [State.consumer, State.consumer, State.hideMemory_wiring]
  cases bindingOf s.wiring e with
  | stdin | stdout | unbound => rfl
  | channel q =>
    simp only [State.partner_hideMemory]
    split
    · rfl
    · cases s.partner inPort? q <;> rfl

theorem State.enabled_hideMemory (j k : Nat) (s : State) : (s.hideMemory j).enabled k = s.enabled k := by
  rw [State.enabled, State.enabled, State.getElem?_hideMemory]
  cases s.procs[k]? with
  | none => rfl
  | some p =>
    simp only [Option.map_some, Proc.hideIn_nextInstr, Proc.hideIn_ready, State.hideMemory_wiring,
      State.producer_hideMemory, State.consumer_hideMemory, Option.isSome_map]

/-- The schedule does not read a memory. -/
theorem State.pick_hideMemory (j : Nat) (s : State) : (s.hideMemory j).pick = s.pick := by
  have hlist : (s.hideMemory j).enabledList = s.enabledList := by
    simp only [State.enabledList, State.length_hideMemory, funext fun k => s.enabled_hideMemory j k]
  rw [State.pick, State.pick, hlist]
  rfl

/-! ## Instructions -/

/-- The next state of an outcome, seen otherwise. -/
def mapNext (g : State → State) (o : Outcome) : Outcome :=
  match o with
  | .next s => .next (g s)
  | .fault e => .fault e
  | .refused r => .refused r

theorem mapNext_eq_next {g : State → State} {o : Outcome} {u : State} (h : mapNext g o = .next u) :
    ∃ t, o = .next t ∧ g t = u := by
  cases o with
  | next t => exact ⟨t, rfl, by injection h⟩
  | fault e => cases h
  | refused r => cases h

theorem State.onCurrent_hideMemory {j : Nat} {s : State} (h : s.turn ≠ j) (f : Proc → Except Fault Proc) :
    (s.hideMemory j).onCurrent f = mapNext (State.hideMemory j) (s.onCurrent f) := by
  rw [State.onCurrent, State.onCurrent, State.current_hideMemory h]
  cases s.current with
  | none => rfl
  | some p =>
    dsimp only
    cases f p with
    | error e => rfl
    | ok p' => simp only [mapNext, State.setCurrent_hideMemory h]

/-- The joint step of two processors (R171) reads neither memory. -/
theorem State.transfer_hideMemory (j : Nat) (s : State) (src dst : Endpoint) (p q : Proc) :
    (s.hideMemory j).transfer src (p.hideIn j src.proc) dst (q.hideIn j dst.proc) =
      (s.transfer src p dst q).hideMemory j := by
  refine State.eq_hideMemory (fun k => ?_) rfl
  simp only [State.transfer, List.getElem?_set, List.length_set, State.length_hideMemory, State.getElem?_hideMemory,
    Proc.hideIn_acc, Proc.hideIn_setAcc, Proc.hideIn_recordPort, Proc.hideIn_finish, State.hideMemory_ticks]
  by_cases hdst : dst.proc = k
  · subst hdst
    simp only [if_true]
    split <;> rfl
  · simp only [if_neg hdst]
    split
    next hsrc =>
      subst hsrc
      split <;> rfl
    next => rfl

theorem State.receive_hideMemory {j : Nat} {s : State} (h : s.turn ≠ j) (n : Nat) (p : Proc) (src : Producer) :
    (s.hideMemory j).receive ⟨s.turn, n⟩ p (src.hideMemory j) = (s.receive ⟨s.turn, n⟩ p src).hideMemory j := by
  cases src with
  | line t rest =>
    simp only [State.receive, Producer.hideMemory, State.setCurrent_hideMemory h, State.hideMemory_ticks]
    split <;> rfl
  | processor q r =>
    have htransfer := s.transfer_hideMemory j q ⟨s.turn, n⟩ r p
    rwa [Proc.hideIn_of_ne h] at htransfer

theorem State.deliver_hideMemory {j : Nat} {s : State} (h : s.turn ≠ j) (n : Nat) (p : Proc) (dst : Consumer) :
    (s.hideMemory j).deliver ⟨s.turn, n⟩ p (dst.hideMemory j) = (s.deliver ⟨s.turn, n⟩ p dst).hideMemory j := by
  cases dst with
  | sink =>
    simp only [State.deliver, Consumer.hideMemory, State.setCurrent_hideMemory h]
    rfl
  | processor q r =>
    have htransfer := s.transfer_hideMemory j ⟨s.turn, n⟩ q p r
    rwa [Proc.hideIn_of_ne h] at htransfer

theorem execIn_hideMemory {j : Nat} {s : State} (h : s.turn ≠ j) (port : BitVec 32) :
    execIn port (s.hideMemory j) = mapNext (State.hideMemory j) (execIn port s) := by
  rw [execIn, execIn, State.current_hideMemory h, State.hideMemory_wiring, State.hideMemory_turn]
  cases s.current with
  | none => rfl
  | some p =>
    simp only [State.producer_hideMemory]
    cases checkPort s.wiring.numPorts (immI port) with
    | none => simp only [mapNext, State.setCurrent_hideMemory h]
    | some n =>
      dsimp only
      cases s.producer ⟨s.turn, n⟩ with
      | none => rfl
      | some src => simp only [Option.map_some, mapNext, State.receive_hideMemory h]

theorem execOut_hideMemory {j : Nat} {s : State} (h : s.turn ≠ j) (port : BitVec 32) :
    execOut port (s.hideMemory j) = mapNext (State.hideMemory j) (execOut port s) := by
  rw [execOut, execOut, State.current_hideMemory h, State.hideMemory_wiring, State.hideMemory_turn]
  cases s.current with
  | none => rfl
  | some p =>
    simp only [State.consumer_hideMemory]
    cases checkPort s.wiring.numPorts (immI port) with
    | none => simp only [mapNext, State.setCurrent_hideMemory h]
    | some n =>
      dsimp only
      cases s.consumer ⟨s.turn, n⟩ with
      | none => rfl
      | some dst => simp only [Option.map_some, mapNext, State.deliver_hideMemory h]

/-- Every instruction of a processor other than j does the same with j's memory hidden. -/
theorem exec_hideMemory {j : Nat} {s : State} (h : s.turn ≠ j) (i : Instr) :
    exec i (s.hideMemory j) = mapNext (State.hideMemory j) (exec i s) := by
  cases i with
  | in_ port => exact execIn_hideMemory h port
  | out port => exact execOut_hideMemory h port
  | _ =>
    simp only [exec, execStop, execStart, execLoad, execStore, execLoadnum, execAdd, execSub, execMul, execDiv,
      execAddnum, execSubnum, execMulnum, execDivnum, execJump, execJumpneg, execJumppos, execJumpnull, execLoadind,
      execStoreind, execDumpreg, execDumpprog, execUnrecognized]
    exact State.onCurrent_hideMemory h _

/-! ## A step -/

theorem State.fetchDecode_hideMemory {j : Nat} {s : State} (h : s.turn ≠ j) :
    (s.hideMemory j).fetchDecode = s.fetchDecode := by
  rw [State.fetchDecode, State.fetchDecode, State.current_hideMemory h]

/-- A step of a processor other than j does the same with j's memory hidden. -/
theorem step_hideMemory {j k : Nat} {s : State} (hk : s.pick = some k) (hkj : k ≠ j) :
    step (s.hideMemory j) = mapNext (State.hideMemory j) (step s) := by
  have hfetch : ((s.hideMemory j).setTurn k).fetchDecode = (s.setTurn k).fetchDecode :=
    State.fetchDecode_hideMemory (s := s.setTurn k) hkj
  have hexec : ∀ i, exec i ((s.hideMemory j).setTurn k) = mapNext (State.hideMemory j) (exec i (s.setTurn k)) :=
    exec_hideMemory (s := s.setTurn k) hkj
  simp only [step, State.pick_hideMemory, hk, hfetch, hexec]
  cases (s.setTurn k).fetchDecode with
  | none => rfl
  | some i =>
    dsimp only
    cases exec i (s.setTurn k) <;> rfl

/-- Settles O19: both states take the step of the state they both show without j's memory. -/
theorem memoryIsPrivate : Obligations.MemoryIsPrivate := by
  intro s s' t j k heq hk hkj hstep
  have hk' : s'.pick = some k := by rw [← State.pick_hideMemory j, ← heq, State.pick_hideMemory, hk]
  have hhidden : mapNext (State.hideMemory j) (step s') = .next (t.hideMemory j) := by
    rw [← step_hideMemory hk' hkj, ← heq, step_hideMemory hk hkj, hstep]
    rfl
  obtain ⟨t', hstep', ht'⟩ := mapNext_eq_next hhidden
  exact ⟨hk', t', hstep', ht'.symm⟩

end Sys2Proof.Machine
end

section
/-! PROOFS. Encoding and decoding (R100 to R106): the operand field each opcode consumes is the one `decode` takes, and the
opcodes without a row of their own are the unrecognized ones. -/

namespace Sys2Proof.Machine

open Sys2Proof

/-! ## Opcodes without a row (R105, R106) -/

theorem unrecognizedOp_iff {op : BitVec 8} : unrecognizedOp op = true ↔ op = 0x00#8 ∨ 0x18 ≤ op.toNat := by
  simp [unrecognizedOp, BitVec.ule]

/-- Every other row of `decode` is for an opcode of its own (R152). -/
theorem decode_of_unrecognizedOp {w : InstrWord} (h : unrecognizedOp (opField w) = true) :
    decode w = .unrecognized (opField w) := by
  rw [decode]
  split
  case h_24 => rfl
  all_goals
    rename_i hop
    rw [hop] at h
    exact absurd h (by decide)

/-! ## Encoding and decoding (R101, R104, R105, R113) -/

/-- Settles O1: `decode` takes from the packed word the opcode and the field that `encode` put there. -/
theorem decodeAfterEncode : Obligations.DecodeAfterEncode := by
  intro i hwf
  obtain ⟨hop, hI, hF, -⟩ := fields_packWord i.opcode i.immI i.immF
  cases i
  case unrecognized op =>
    have hun : unrecognizedOp (opField (encode (.unrecognized op))) = true := by rwa [encode, hop]
    rw [decode_of_unrecognizedOp hun, encode, hop]
    rfl
  all_goals
    rw [encode, decode, hop, hI, hF]
    rfl

/-- Settles O2: a word with an opcode of the table selects that row of `decode`, whatever its other fields. -/
theorem opcodeMap : Obligations.OpcodeMap := by
  intro w
  refine ⟨?_, ?_, ?_, ?_, ?_, ?_, ?_, ?_, ?_, ?_, ?_, ?_, ?_, ?_, ?_, ?_, ?_, ?_, ?_, ?_, ?_, ?_, ?_,
    fun h => decode_of_unrecognizedOp (unrecognizedOp_iff.2 h)⟩
  all_goals
    intro h
    rw [decode, h]
    rfl

/-- Settles O3: each row of `decode` reads OP and the one field its opcode consumes, and `exec` reads only the
instruction. -/
theorem ignoredFieldsDoNotMatter : Obligations.IgnoredFieldsDoNotMatter := by
  intro w w' hop hI hF
  have hdecode : decode w = decode w' := by
    rw [decode, decode, ← hop]
    split
    case h_24 => rfl
    all_goals
      rename_i hrow
      simp [hI, hF, hrow]
  exact ⟨hdecode, fun s => by rw [hdecode]⟩

/-- Settles O4: each row's instruction has the row's opcode, and an opcode that selects no row is unrecognized. -/
theorem decodeGivesWellFormed : Obligations.DecodeGivesWellFormed := by
  intro w
  rw [decode]
  split
  case h_24 =>
    refine ⟨unrecognizedOp_iff.2 ?_, rfl⟩
    -- the opcode differs from each of 0x01 to 0x17
    simp only [imp_false, ← BitVec.toNat_inj, BitVec.toNat_ofNat] at *
    omega
  all_goals
    rename_i hop
    exact ⟨rfl, hop.symm⟩

/-- Settles O5: eleven lines and eleven words, each evaluated; the literals' rounding needs the kernel's arithmetic. -/
theorem encodingExamples : Obligations.EncodingExamples := by
  intro row hrow
  constructor
  · revert row
    decide +kernel
  · revert row
    decide

end Sys2Proof.Machine
end

section
/-! PROOFS. The program that `boot` loads (R108, R111): slot by slot the words of the source's lines. -/

namespace Sys2Proof.Machine

open Sys2Proof

theorem assembleLines_forall₂ {lines : List Text} {ws : List InstrWord} (h : assembleLines lines = .ok ws) :
    List.Forall₂ (fun line w => assembleLine line = .ok w) lines ws := by
  induction lines generalizing ws with
  | nil => cases h; exact .nil
  | cons l ls ih =>
    rw [assembleLines] at h
    split at h
    next => cases h
    next hl =>
      split at h
      next => cases h
      next hls => cases h; exact .cons hl (ih hls)

theorem assemble_forall₂ {source : Text} {ws : List InstrWord} (h : assemble source = .ok ws) :
    List.Forall₂ (fun line w => assembleLine line = .ok w) (splitLines source) ws := by
  have hlines := (assemble_ok_iff.1 ⟨ws, h⟩).1
  rw [assemble] at h
  simp only [Nat.not_lt.2 hlines, if_false] at h
  exact assembleLines_forall₂ h

/-- Settles O58: `boot` accepts only sources of at most 200 lines, and loads each line's word into the line's slot. -/
theorem programIsLoaded : Obligations.ProgramIsLoaded := by
  intro t feed
  constructor
  · intro d hd hlong
    cases hboot : boot t feed with
    | error e => exact ⟨e, rfl⟩
    | ok s =>
      have hall := assembleAll_ok_iff.1 (boot_ok_iff.1 ⟨s, hboot⟩).2
      have hshort := (assemble_ok_iff.1 (hall d hd)).1
      omega
  · intro s k p id source hboot hk hp
    obtain ⟨d, words, hd, hwords, rfl⟩ := boot_proc hboot hp
    obtain rfl : d = (id, source) := Option.some.inj (hd.symm.trans hk)
    obtain ⟨hlength, hline⟩ := List.forall₂_iff_get.1 (assemble_forall₂ hwords)
    refine ⟨hlength.symm, fun j => ?_⟩
    rw [Proc.prog_create]
    split
    next line hj =>
      obtain ⟨hlt, rfl⟩ := List.getElem?_eq_some_iff.1 hj
      rw [List.getD_eq_getElem _ _ (hlength ▸ hlt)]
      exact hline j.val hlt (hlength ▸ hlt)
    next hj => exact List.getD_eq_default _ _ (hlength ▸ List.getElem?_eq_none_iff.1 hj)

end Sys2Proof.Machine
end

section
/-! PROOFS. The word of a line (R108 to R110): which lines are refused, and the decimal integers that parse. -/

namespace Sys2Proof.Machine

open Sys2Proof

/-! ## Decimal integers (R109) -/

theorem digitVal_eq_some {c : Char} (h : c.isDigit = true) : digitVal c = some (c.toNat - 48) := by
  rw [Char.isDigit_iff_toNat] at h
  exact if_pos h

/-- Digits are read to the end of the text, their value that of the decimal numeral. -/
theorem readDigits_of_isDigit {t : Text} (h : ∀ c ∈ t, c.isDigit = true) (n acc : Nat) :
    readDigits t n acc = (n + t.length, Nat.ofDigitChars 10 t acc, []) := by
  induction t generalizing n acc with
  | nil => rw [readDigits, Nat.ofDigitChars_nil]; rfl
  | cons c cs ih =>
    obtain ⟨hc, hcs⟩ := List.forall_mem_cons.1 h
    rw [readDigits, digitVal_eq_some hc]
    simp only [ih hcs, List.length_cons, Nat.ofDigitChars_cons, Nat.mul_comm 10, Nat.succ_add_eq_add_succ]
    rfl

theorem isDigit_of_mem_natDigits {n : Nat} {c : Char} (h : c ∈ natDigits n) : c.isDigit = true :=
  Nat.isDigit_of_mem_toDigits (by decide) (by decide) h

theorem readSign_natDigits (n : Nat) : readSign (natDigits n) = (false, natDigits n) := by
  unfold readSign
  split
  next h => exact absurd (isDigit_of_mem_natDigits (h ▸ List.mem_cons_self)) (by decide)
  next h => exact absurd (isDigit_of_mem_natDigits (h ▸ List.mem_cons_self)) (by decide)
  next => rfl

/-- The numeral of n, read after a sign, gives n with that sign. -/
theorem parseInt_of_readSign {t : Text} {neg : Bool} {n : Nat} (h : readSign t = (neg, natDigits n)) :
    parseInt t = some (if neg then -(n : Int) else n) := by
  have hne : (natDigits n).length ≠ 0 := Nat.length_toDigits_pos.ne'
  have hvalue : Nat.ofDigitChars 10 (natDigits n) 0 = n := Nat.ofDigitChars_ten_toDigits
  rw [parseInt, h]
  simp only [readDigits_of_isDigit fun _ => isDigit_of_mem_natDigits, hvalue, Nat.zero_add]
  exact if_pos ⟨hne, trivial⟩

/-- A numeral without a minus sign parses exactly if it is at most 2^31 - 1. -/
theorem tokenInt_of_nonneg {t : Text} {n : Nat} (h : readSign t = (false, natDigits n)) :
    tokenInt t = if n ≤ 2147483647 then some (BitVec.ofNat 32 n) else none := by
  simp only [tokenInt, parseInt_of_readSign h, Bool.false_eq_true, if_false, BitVec.ofInt_natCast]
  exact if_congr (by omega) rfl rfl

/-- A numeral with a minus sign parses exactly if it is at most 2^31. -/
theorem tokenInt_of_neg {t : Text} {n : Nat} (h : readSign t = (true, natDigits n)) :
    tokenInt t = if n ≤ 2147483648 then some (-BitVec.ofNat 32 n) else none := by
  simp only [tokenInt, parseInt_of_readSign h, if_true, BitVec.ofInt_neg, BitVec.ofInt_natCast]
  exact if_congr (by omega) rfl rfl

/-! ## Lines (R108 to R110) -/

/-- Some operand token fails the interpretation that the form consumes (R104, R109). -/
def OperandForm.Refuses (form : OperandForm) (operands : List Text) : Prop :=
  match form with
  | .nothing => False
  | .integer => ∃ t ∈ operands, tokenInt t = none
  | .literal => ∃ t ∈ operands, tokenFloat t = none

theorem OperandForm.not_refuses_nil (form : OperandForm) : ¬form.Refuses [] := by
  cases form <;> simp [Refuses]

theorem OperandForm.refuses_singleton {form : OperandForm} {t : Text} :
    form.Refuses [t] ↔ (form = .integer ∧ tokenInt t = none) ∨ (form = .literal ∧ tokenFloat t = none) := by
  cases form <;> simp [Refuses]

/-- The word of a line with a first token and at most one operand, unless it is refused. -/
def lineWord (m : Text) (operands : List Text) : InstrWord :=
  packWord (lookupMnemonic m).1 ((operands.head?.bind tokenInt).getD 0) ((operands.head?.bind tokenFloat).getD 0)

theorem fields_lineWord (m : Text) (operands : List Text) :
    opField (lineWord m operands) = (lookupMnemonic m).1 ∧
      immIField (lineWord m operands) = (operands.head?.bind tokenInt).getD 0 ∧
      immFField (lineWord m operands) = (operands.head?.bind tokenFloat).getD 0 ∧
      rsvField (lineWord m operands) = 0#24 := fields_packWord _ _ _

/-- `names` lists the mnemonics of the table; no other first token has a row (R110). -/
theorem lookupMnemonic_of_forall_ne {m : Text} {names : List String}
    (hnames : mnemonicTable.map Prod.fst = names.map String.toList) (h : ∀ n ∈ names, m ≠ n.toList) :
    lookupMnemonic m = (0x00#8, .nothing) := by
  have hfind : mnemonicTable.find? (fun r => r.1 == m) = none := by
    rw [List.find?_eq_none]
    intro r hr hm
    have hmem : m ∈ names.map String.toList := hnames ▸ eq_of_beq hm ▸ List.mem_map_of_mem hr
    obtain ⟨n, hn, hnm⟩ := List.mem_map.1 hmem
    exact h n hn hnm.symm
  rw [lookupMnemonic, hfind]

section
variable {line m : Text} {rest : List Text} (hline : splitTokens line = m :: rest)
include hline

theorem assembleLine_of_tooManyTokens (hrest : 1 < rest.length) : assembleLine line = .error .tooManyTokens := by
  match rest, hrest with
  | _ :: _ :: _, _ => rw [assembleLine, hline]

theorem assembleLine_of_refuses (hrest : rest.length ≤ 1) (h : (lookupMnemonic m).2.Refuses rest) :
    assembleLine line = .error .badOperand := by
  match rest, hrest with
  | [], _ => exact absurd h (OperandForm.not_refuses_nil _)
  | [t], _ =>
    simp only [assembleLine, hline]
    rw [OperandForm.refuses_singleton] at h
    obtain ⟨hform, ht⟩ | ⟨hform, ht⟩ := h
    · rw [hform, ht]
    · rw [hform, ht]

theorem assembleLine_of_not_refuses (hrest : rest.length ≤ 1) (h : ¬(lookupMnemonic m).2.Refuses rest) :
    assembleLine line = .ok (lineWord m rest) := by
  match rest, hrest with
  | [], _ => simp only [assembleLine, hline, lineWord, List.head?_nil, Option.bind_none, Option.getD_none]
  | [t], _ =>
    simp only [assembleLine, hline, lineWord, List.head?_cons, Option.bind_some]
    rw [OperandForm.refuses_singleton, not_or] at h
    obtain ⟨hint, hfloat⟩ := h
    split
    next hform ht => exact absurd ⟨hform, ht⟩ hint
    next hform ht => exact absurd ⟨hform, ht⟩ hfloat
    next => rfl

theorem exists_assembleLine_of_not_refuses (hrest : rest.length ≤ 1) {op : BitVec 8} {form : OperandForm}
    (hlookup : lookupMnemonic m = (op, form)) (h : ¬form.Refuses rest) :
    ∃ w, assembleLine line = .ok w ∧ opField w = op := by
  obtain ⟨hop, -, -, -⟩ := fields_lineWord m rest
  exact ⟨_, assembleLine_of_not_refuses hline hrest (by rwa [hlookup]), by rw [hop, hlookup]⟩

theorem assembleLine_of_lookupMnemonic (hrest : rest.length ≤ 1) {op : BitVec 8} {form : OperandForm}
    (hlookup : lookupMnemonic m = (op, form)) {_ : Decidable (form.Refuses rest)} :
    if form.Refuses rest then ∃ e, assembleLine line = .error e
    else ∃ w, assembleLine line = .ok w ∧ opField w = op := by
  split
  next h => exact ⟨_, assembleLine_of_refuses hline hrest (by rwa [hlookup])⟩
  next h => exact exists_assembleLine_of_not_refuses hline hrest hlookup h

theorem eq_lineWord_of_assembleLine (hrest : rest.length ≤ 1) {w : InstrWord} (h : assembleLine line = .ok w) :
    w = lineWord m rest := by
  by_cases href : (lookupMnemonic m).2.Refuses rest
  · rw [assembleLine_of_refuses hline hrest href] at h
    cases h
  · rw [assembleLine_of_not_refuses hline hrest href] at h
    exact (Except.ok.inj h).symm

end

/-- Settles O59: a line with at most one operand is refused exactly if the operand fails the mnemonic's form, and else its
word is `lineWord`; the integer literals are those of `tokenInt_of_nonneg` and `tokenInt_of_neg`. -/
theorem linesAssemble : Obligations.LinesAssemble := by
  refine ⟨fun line hline => ?_, fun line m rest hline hrest => ⟨_, assembleLine_of_tooManyTokens hline hrest⟩,
    fun line m rest hline hrest => ⟨fun w hw => ?_, ?_, ?_, ?_, fun hne => ?_⟩,
    fun n => ⟨tokenInt_of_nonneg (readSign_natDigits n), tokenInt_of_nonneg rfl, tokenInt_of_neg rfl⟩⟩
  · rw [assembleLine, hline]; rfl
  · obtain rfl := eq_lineWord_of_assembleLine hline hrest hw
    obtain ⟨-, hI, hF, hrsv⟩ := fields_lineWord m rest
    exact ⟨hrsv, hI, hF⟩
  · intro r hr
    have hlookup : lookupMnemonic r.1.toList = (r.2, .nothing) := by
      revert r
      decide
    rintro rfl
    exact exists_assembleLine_of_not_refuses hline hrest hlookup id
  · intro r hr
    have hlookup : lookupMnemonic r.1.toList = (r.2, .integer) := by
      revert r
      decide
    rintro rfl
    exact assembleLine_of_lookupMnemonic hline hrest hlookup
  · intro r hr
    have hlookup : lookupMnemonic r.1.toList = (r.2, .literal) := by
      revert r
      decide
    rintro rfl
    exact assembleLine_of_lookupMnemonic hline hrest hlookup
  · obtain ⟨w, hw, hop⟩ := exists_assembleLine_of_not_refuses hline hrest (lookupMnemonic_of_forall_ne rfl hne) id
    have hun : unrecognizedOp (opField w) = true := hop ▸ rfl
    exact ⟨w, hw, hop, by rw [decode_of_unrecognizedOp hun, hop]⟩

end Sys2Proof.Machine
end

section
/-! PROOFS. Which processors have a step and which of them the schedule picks (R130, R136, R263), and what the picked
one executes: the instruction at its pc (R131, R132), where an IN or OUT has a transition only with its partner ready
(R161, R162). -/

namespace Sys2Proof.Machine

open Sys2Proof

/-! ## The choice of the turn (R263) -/

/-- The first entry at or after an entry of an increasing list is that entry. -/
theorem find?_le_of_mem {l : List Nat} (hl : l.Pairwise (· < ·)) {k : Nat} (h : k ∈ l) :
    l.find? (fun j => decide (k ≤ j)) = some k := by
  obtain ⟨before, after, rfl⟩ := List.append_of_mem h
  have hbefore : ∀ j ∈ before, j < k := fun j hj => (List.pairwise_append.1 hl).2.2 j hj k List.mem_cons_self
  exact List.find?_eq_some_iff_append.2
    ⟨by simp, before, after, rfl, fun j hj => by simpa using hbefore j hj⟩

theorem State.enabledList_pairwise_lt (s : State) : s.enabledList.Pairwise (· < ·) :=
  List.pairwise_lt_range.filter _

/-- The schedule picks the first processor at or after the turn that has a step, where there is one. -/
theorem State.pick_of_find? {s : State} {k : Nat} (h : s.enabledList.find? (fun j => decide (s.turn ≤ j)) = some k) :
    s.pick = some k := by
  rw [State.pick]
  split
  case h_1 he => simp [he] at h
  case h_2 j he =>
    have hmem := List.mem_of_find?_eq_some h
    rw [he, List.mem_singleton] at hmem
    rw [hmem]
  case h_3 he => rw [← he, h, Option.getD_some]

/-- A processor that has a step is picked when the turn names it. -/
theorem State.pick_setTurn_of_enabled {s : State} {k : Nat} (h : s.enabled k = true) : (s.setTurn k).pick = some k :=
  State.pick_of_find? (find?_le_of_mem s.enabledList_pairwise_lt (State.mem_enabledList.2 h))

/-- Settles O7: a processor that has a step is picked at the turn that names it. -/
theorem scheduleMayPickAnyEnabledProcessor : Obligations.ScheduleMayPickAnyEnabledProcessor :=
  fun _ => ⟨fun _ => State.pick_mem, State.pick_eq_none_iff, fun k hk => ⟨k, State.pick_setTurn_of_enabled hk⟩⟩

/-! ## The instruction executed (R131, R132) -/

/-- Fetch and decode of the word in the slot at pc. -/
theorem Proc.nextInstr_of_slot {p : Proc} {w : InstrWord} (hpc : 0 ≤ p.pc) (hw : p.prog[p.pc.toNat]? = some w) :
    p.nextInstr = some (decode w) := by
  obtain ⟨hslot, rfl⟩ := Vector.getElem?_eq_some_iff.1 hw
  rw [Proc.nextInstr, Proc.fetch, dif_pos ⟨hpc, by omega⟩, Option.map_some]

/-- A step is exec of the next instruction of the picked processor, at the state that gives it the turn. -/
theorem step_of_pick {s : State} {k : Nat} {p : Proc} {i : Instr} (hk : s.pick = some k) (hp : s.procs[k]? = some p)
    (hi : p.nextInstr = some i) : step s = endOutcome (exec i (s.setTurn k)) := by
  have hfetch : (s.setTurn k).fetchDecode = some i := State.fetchDecode_eq_some.2 ⟨p, hp, hi⟩
  simp only [step, hk, hfetch]

/-- Settles O6: the slot at pc decodes to the next instruction, which the step executes. -/
theorem stepRunsDecodedInstruction : Obligations.StepRunsDecodedInstruction := by
  intro s k p w hk hp hpc hw
  exact step_of_pick hk hp (Proc.nextInstr_of_slot hpc hw)

/-! ## Who has a step (R130, R136) -/

theorem inPort?_of_ne_in {i : Instr} (h : ∀ f, i ≠ .in_ f) : inPort? i = none := by
  cases i with
  | in_ f => exact absurd rfl (h f)
  | _ => rfl

theorem outPort?_of_ne_out {i : Instr} (h : ∀ f, i ≠ .out f) : outPort? i = none := by
  cases i with
  | out f => exact absurd rfl (h f)
  | _ => rfl

section

variable {s : State} {k : Nat} {p : Proc} (hp : s.procs[k]? = some p) (hready : p.ready = true)
include hp hready

/-- A ready processor at neither IN nor OUT has a step. -/
theorem State.enabled_of_no_port {i : Instr} (hi : p.nextInstr = some i) (hin : inPort? i = none)
    (hout : outPort? i = none) : s.enabled k = true := by
  simp only [State.enabled, hp, hready, hi, Option.bind_some, hin, hout, Bool.and_self]

/-- A ready processor at IN has a step exactly if its port is out of range or has its producer. -/
theorem State.enabled_of_in {f : BitVec 32} (hi : p.nextInstr = some (.in_ f)) : s.enabled k =
    (checkPort s.wiring.numPorts (immI f)).all fun n => (s.producer ⟨k, n⟩).isSome := by
  simp only [State.enabled, hp, hready, hi, Option.bind_some, inPort?, outPort?, Bool.true_and, Bool.and_true]
  cases checkPort s.wiring.numPorts (immI f) <;> rfl

/-- A ready processor at OUT has a step exactly if its port is out of range or has its consumer. -/
theorem State.enabled_of_out {f : BitVec 32} (hi : p.nextInstr = some (.out f)) : s.enabled k =
    (checkPort s.wiring.numPorts (immI f)).all fun n => (s.consumer ⟨k, n⟩).isSome := by
  simp only [State.enabled, hp, hready, hi, Option.bind_some, inPort?, outPort?, Bool.and_true, Bool.true_and]
  cases checkPort s.wiring.numPorts (immI f) <;> rfl

end

/-- Settles O8: only IN and OUT add a condition to that of R130. -/
theorem enabledWhenReady : Obligations.EnabledWhenReady := by
  refine fun s k => ⟨fun henabled => ?_, fun p i hp hrunning hnofault hi hin hout => ?_⟩
  · obtain ⟨p, hp, hready⟩ := State.ready_of_enabled henabled
    exact ⟨p, hp, Proc.ready_iff.1 hready⟩
  · exact State.enabled_of_no_port hp (Proc.ready_iff.2 ⟨hrunning, hnofault⟩) hi (inPort?_of_ne_in hin)
      (outPort?_of_ne_out hout)

/-! ## IN and OUT without a partner (R161, R162) -/

/-- IN on a port in range without a ready producer has no transition. -/
theorem execIn_stalls {s : State} {p : Proc} {f : BitVec 32} {n : Nat} (hcur : s.current = some p)
    (hn : checkPort s.wiring.numPorts (immI f) = some n) (hsrc : s.producer ⟨s.turn, n⟩ = none) :
    execIn f s = .fault .portStall := by
  simp only [execIn, hcur, hn, hsrc]

/-- OUT on a port in range without a ready consumer has no transition. -/
theorem execOut_stalls {s : State} {p : Proc} {f : BitVec 32} {n : Nat} (hcur : s.current = some p)
    (hn : checkPort s.wiring.numPorts (immI f) = some n) (hdst : s.consumer ⟨s.turn, n⟩ = none) :
    execOut f s = .fault .portStall := by
  simp only [execOut, hcur, hn, hdst]

/-- A port in range whose endpoint has no partner, where the condition of a step at IN or OUT fails. -/
theorem exists_of_all_isSome_eq_false {α β : Type} {port : Option α} {partner : α → Option β}
    (h : port.all (fun n => (partner n).isSome) = false) : ∃ n, port = some n ∧ partner n = none := by
  simpa only [Option.all_eq_false, Option.isSome_eq_false_iff, Option.isNone_iff_eq_none] using h

/-- Settles O47: what IN or OUT needs for a transition is what it needs for its processor to have a step. -/
theorem portInstructionsWaitForAPartner : Obligations.PortInstructionsWaitForAPartner := by
  rintro s p f i (rfl | rfl) hcur hready hi
  · rw [State.enabled_of_in hcur hready hi]
    refine ⟨fun h => execIn_completes hcur ((Option.all_eq_true _ _).1 h), fun h => ?_⟩
    obtain ⟨n, hn, hsrc⟩ := exists_of_all_isSome_eq_false h
    exact execIn_stalls hcur hn hsrc
  · rw [State.enabled_of_out hcur hready hi]
    refine ⟨fun h => execOut_completes hcur ((Option.all_eq_true _ _).1 h), fun h => ?_⟩
    obtain ⟨n, hn, hdst⟩ := exists_of_all_isSome_eq_false h
    exact execOut_stalls hcur hn hdst

end Sys2Proof.Machine
end

section
/-! PROOFS. STOP, START and the unrecognized opcodes (R150 to R152): each is a step that one processor takes alone, and what
it changes beyond the end of the step (R133 to R135) is at most the run state. -/

namespace Sys2Proof.Machine

open Sys2Proof

/-! ## What the end of a step leaves unchanged (R133 to R135) -/

/-- The end of a step changes at most pc, the run state and the fault record. -/
theorem Proc.finish_frame (p : Proc) : { p.finish with state := p.state, pc := p.pc, fault := p.fault } = p := by
  rw [Proc.finish, Proc.guardPc]
  split
  next => rfl
  next =>
    split
    next => rfl
    next => rfl

/-- The checks at the end of a step are of RUNNING processors only: another takes the increment alone. -/
theorem Proc.finish_of_not_running {p : Proc} (h : p.state ≠ .running) : p.finish = p.setPc (p.pc + 1) := by
  have hguard : (p.setPc (p.pc + 1)).state ≠ .running := h
  rw [Proc.finish, Proc.guardPc, if_neg fun hc => hguard hc.1, if_neg fun hc => hguard hc.1]

/-! ## What each instruction makes of the processor of the turn -/

theorem exec_stop {s : State} {p : Proc} (hcur : s.current = some p) :
    exec .stop s = .next (s.setCurrent ((p.setRunState .halted).setPc (p.pc + 1))) := by
  have hfinish : (p.setRunState .halted).finish = (p.setRunState .halted).setPc (p.pc + 1) :=
    Proc.finish_of_not_running (by simp)
  rw [exec, execStop, ← hfinish]
  exact State.onCurrent_ok hcur rfl

theorem exec_start {s : State} {p : Proc} (hcur : s.current = some p) :
    exec .start s = .next (s.setCurrent (p.setRunState .running).finish) := by
  rw [exec, execStart]
  exact State.onCurrent_ok hcur rfl

theorem exec_unrecognized {s : State} {p : Proc} (op : BitVec 8) (hcur : s.current = some p) :
    exec (.unrecognized op) s = .next (s.setCurrent p.finish) := by
  rw [exec, execUnrecognized]
  exact State.onCurrent_ok hcur rfl

/-! ## The three statements -/

/-- Settles O28: the end of the step checks RUNNING processors only, so STOP leaves HALTED at pc + 1 whatever pc is. -/
theorem stopHalts : Obligations.StopHalts := by
  refine ⟨fun w hop => ?_, fun s p hcur => ?_⟩
  · obtain ⟨hstop, -⟩ := opcodeMap w
    exact hstop hop
  · exact ⟨_, _, exec_stop hcur, State.onlyCurrent_setCurrent hcur _, rfl, rfl, rfl⟩

/-- Settles O29: the end of the step is that of the processor already set RUNNING, whatever its state was. -/
theorem startForcesRunning : Obligations.StartForcesRunning := by
  refine ⟨fun w hop => ?_, fun s p hcur => ?_⟩
  · obtain ⟨-, hstart, -⟩ := opcodeMap w
    exact hstart hop
  · have hends := (p.setRunState .running).endsAt_finish
    have hframe := congrArg (Proc.setRunState · p.state) (p.setRunState .running).finish_frame
    exact ⟨_, _, exec_start hcur, State.onlyCurrent_setCurrent hcur _, hends, hframe⟩

/-- Settles O30: only the end of the step changes the processor. -/
theorem unrecognizedIsNoOp : Obligations.UnrecognizedIsNoOp := by
  refine ⟨fun w hop => decode_of_unrecognizedOp (unrecognizedOp_iff.2 hop), fun s p op hcur => ?_⟩
  exact ⟨_, _, exec_unrecognized op hcur, State.onlyCurrent_setCurrent hcur _, p.endsAt_finish, p.finish_frame⟩

end Sys2Proof.Machine
end

section
/-! PROOFS. The partner of an IN or OUT (R160 to R162, R170 to R175): what an endpoint is bound to says who its producer
and its consumer are, and these say who has a step and what the instruction answers. -/

namespace Sys2Proof.Machine

open Sys2Proof

/-! ## The port operand (R160) -/

theorem checkPort_eq_some {numPorts n : Nat} {x : Int} :
    checkPort numPorts x = some n ↔ x = (n : Int) ∧ n < numPorts := by
  rw [checkPort, Option.ite_none_right_eq_some, Option.some.injEq]
  omega

theorem checkPort_eq_none {numPorts : Nat} {x : Int} (h : x < 0 ∨ (numPorts : Int) ≤ x) :
    checkPort numPorts x = none :=
  if_neg (by omega)

/-! ## What an endpoint is bound to (R170) -/

theorem bindingOf_of_stdin {w : Wiring} {e : Endpoint} (h : w.stdinPort = some e) : bindingOf w e = .stdin :=
  if_pos h

theorem bindingOf_of_stdout {w : Wiring} {e : Endpoint} (hin : w.stdinPort ≠ some e) (hout : w.stdoutPort = some e) :
    bindingOf w e = .stdout := by
  rw [bindingOf, if_neg hin, if_pos hout]

/-- A channel binding names two ends of one listed channel. -/
theorem channelPeer_eq_some {cs : List (Endpoint × Endpoint)} {e q : Endpoint} (h : channelPeer cs e = some q) :
    ∃ c ∈ cs, c = (e, q) ∨ c = (q, e) := by
  induction cs with
  | nil => cases h
  | cons c cs ih =>
    rw [channelPeer] at h
    split at h
    next he => exact ⟨c, List.mem_cons_self, .inl (Prod.ext he (Option.some.inj h))⟩
    next =>
      split at h
      next he => exact ⟨c, List.mem_cons_self, .inr (Prod.ext (Option.some.inj h) he)⟩
      next =>
        obtain ⟨d, hd, hends⟩ := ih h
        exact ⟨d, List.mem_cons_of_mem _ hd, hends⟩

theorem channelPeer_ne_none {cs : List (Endpoint × Endpoint)} {c : Endpoint × Endpoint} {e : Endpoint} (hc : c ∈ cs)
    (he : c.1 = e ∨ c.2 = e) : channelPeer cs e ≠ none := by
  induction cs with
  | nil => cases hc
  | cons d ds ih =>
    rw [channelPeer]
    split
    next => exact Option.some_ne_none _
    next h1 =>
      split
      next => exact Option.some_ne_none _
      next h2 =>
        obtain rfl | hds := List.mem_cons.1 hc
        · exact absurd he (not_or.2 ⟨h1, h2⟩)
        · exact ih hds

theorem channelPeer_of_binding {w : Wiring} {e q : Endpoint} (h : bindingOf w e = .channel q) :
    channelPeer w.channels e = some q := by
  rw [bindingOf] at h
  split at h
  next => cases h
  next =>
    split at h
    next => cases h
    next =>
      split at h
      next hpeer => rw [hpeer, Binding.channel.inj h]
      next => cases h

/-- The endpoint at the other end of a channel is one of a listed channel's two. -/
theorem mem_channel_of_binding {w : Wiring} {e q : Endpoint} (h : bindingOf w e = .channel q) :
    ∃ c ∈ w.channels, c.1 = q ∨ c.2 = q := by
  obtain ⟨c, hc, rfl | rfl⟩ := channelPeer_eq_some (channelPeer_of_binding h)
  · exact ⟨_, hc, .inr rfl⟩
  · exact ⟨_, hc, .inl rfl⟩

/-- The other end of a channel is not unbound (R170). -/
theorem binding_ne_channel_of_unbound {w : Wiring} {e q : Endpoint} (hq : bindingOf w q = .unbound) :
    bindingOf w e ≠ .channel q := by
  intro h
  obtain ⟨c, hc, hend⟩ := mem_channel_of_binding h
  have hpeer := channelPeer_ne_none hc hend
  rw [bindingOf] at hq
  split at hq
  next => cases hq
  next =>
    split at hq
    next => cases hq
    next =>
      split at hq
      next => cases hq
      next hnone => exact hpeer hnone

/-- In a valid wiring the other end of a channel is bound to neither stdin nor stdout (R242). -/
theorem WiringValid.binding_ne_channel {w : Wiring} {n : Nat} (hw : WiringValid w n) {q : Endpoint}
    (hq : w.stdinPort = some q ∨ w.stdoutPort = some q) (e : Endpoint) : bindingOf w e ≠ .channel q := by
  intro h
  obtain ⟨c, hc, hend⟩ := mem_channel_of_binding h
  have hchannel : q ∈ w.channels.flatMap (fun c => [c.1, c.2]) :=
    List.mem_flatMap.2 ⟨c, hc, by simpa [eq_comm] using hend⟩
  have hfeed : q ∈ w.stdinPort.toList ++ w.stdoutPort.toList := by simpa using hq
  have hnodup := hw.boundOnce
  rw [boundEndpoints, List.append_assoc] at hnodup
  exact List.disjoint_of_nodup_append hnodup hchannel hfeed

/-! ## Partners (R171, R173, R174) -/

/-- A ready processor at the matching instruction on the endpoint's port is the partner there. -/
theorem State.partner_of_ready {s : State} {port? : Instr → Option (BitVec 32)} {e : Endpoint} {r : Proc}
    {f : BitVec 32} (hr : s.procs[e.proc]? = some r) (hready : r.ready = true)
    (hf : r.nextInstr.bind port? = some f) (hport : checkPort s.wiring.numPorts (immI f) = some e.port) :
    s.partner port? e = some r := by
  simp only [State.partner, hr, hf, hready, hport, and_self, if_true]

theorem State.producer_of_stdin {s : State} {e : Endpoint} (h : s.wiring.stdinPort = some e) :
    s.producer e = s.stdin.head?.map fun t => .line t s.stdin.tail := by
  simp only [State.producer, bindingOf_of_stdin h]
  cases s.stdin <;> rfl

theorem State.consumer_of_stdin {s : State} {e : Endpoint} (h : s.wiring.stdinPort = some e) :
    s.consumer e = none := by
  simp only [State.consumer, bindingOf_of_stdin h]

theorem State.producer_of_stdout {s : State} {e : Endpoint} (h : bindingOf s.wiring e = .stdout) :
    s.producer e = none := by
  simp only [State.producer, h]

theorem State.consumer_of_stdout {s : State} {e : Endpoint} (h : bindingOf s.wiring e = .stdout) :
    s.consumer e = some .sink := by
  simp only [State.consumer, h]

theorem State.producer_of_unbound {s : State} {e : Endpoint} (h : bindingOf s.wiring e = .unbound) :
    s.producer e = none := by
  simp only [State.producer, h]

theorem State.consumer_of_unbound {s : State} {e : Endpoint} (h : bindingOf s.wiring e = .unbound) :
    s.consumer e = none := by
  simp only [State.consumer, h]

theorem State.producer_of_channel {s : State} {e q : Endpoint} (h : bindingOf s.wiring e = .channel q) :
    s.producer e = if q.proc = e.proc then none else (s.partner outPort? q).map (.processor q) := by
  simp only [State.producer, h]

theorem State.consumer_of_channel {s : State} {e q : Endpoint} (h : bindingOf s.wiring e = .channel q) :
    s.consumer e = if q.proc = e.proc then none else (s.partner inPort? q).map (.processor q) := by
  simp only [State.consumer, h]

/-- A producer on a channel is the partner at the other end. -/
theorem State.exists_partner_of_producer {s : State} {e q : Endpoint} (h : bindingOf s.wiring e = .channel q)
    (hsrc : (s.producer e).isSome = true) : ∃ r, s.partner outPort? q = some r := by
  rw [State.producer_of_channel h] at hsrc
  split at hsrc
  next => cases hsrc
  next => exact Option.isSome_iff_exists.1 (Option.isSome_map .. ▸ hsrc)

/-- A consumer on a channel is the partner at the other end. -/
theorem State.exists_partner_of_consumer {s : State} {e q : Endpoint} (h : bindingOf s.wiring e = .channel q)
    (hdst : (s.consumer e).isSome = true) : ∃ r, s.partner inPort? q = some r := by
  rw [State.consumer_of_channel h] at hdst
  split at hdst
  next => cases hdst
  next => exact Option.isSome_iff_exists.1 (Option.isSome_map .. ▸ hdst)

/-! ## Who has a step at IN and OUT (R136) -/

section

variable {s : State} {k n : Nat} {p : Proc} {f : BitVec 32} (hp : s.procs[k]? = some p)
  (hn : checkPort s.wiring.numPorts (immI f) = some n)
include hp hn

theorem State.enabled_of_producer (hready : p.ready = true) (hi : p.nextInstr = some (.in_ f)) {src : Producer}
    (hsrc : s.producer ⟨k, n⟩ = some src) : s.enabled k = true := by
  rw [State.enabled_of_in hp hready hi, hn, Option.all_some, hsrc, Option.isSome_some]

theorem State.enabled_of_consumer (hready : p.ready = true) (hi : p.nextInstr = some (.out f)) {dst : Consumer}
    (hdst : s.consumer ⟨k, n⟩ = some dst) : s.enabled k = true := by
  rw [State.enabled_of_out hp hready hi, hn, Option.all_some, hdst, Option.isSome_some]

theorem State.not_enabled_of_no_producer (hi : p.nextInstr = some (.in_ f)) (hsrc : s.producer ⟨k, n⟩ = none) :
    s.enabled k = false := by
  rw [Bool.eq_false_iff]
  intro henabled
  obtain ⟨hsome, -⟩ := State.partner_of_enabled henabled hp hi hn
  rw [hsrc] at hsome
  cases hsome rfl

theorem State.not_enabled_of_no_consumer (hi : p.nextInstr = some (.out f)) (hdst : s.consumer ⟨k, n⟩ = none) :
    s.enabled k = false := by
  rw [Bool.eq_false_iff]
  intro henabled
  obtain ⟨-, hsome⟩ := State.partner_of_enabled henabled hp hi hn
  rw [hdst] at hsome
  cases hsome rfl

end

/-! ## IN and OUT with a partner, or with a port out of range (R160 to R162) -/

section

variable {s : State} {p : Proc} {f : BitVec 32} (hcur : s.current = some p)
include hcur

theorem execIn_of_producer {n : Nat} {src : Producer} (hn : checkPort s.wiring.numPorts (immI f) = some n)
    (hsrc : s.producer ⟨s.turn, n⟩ = some src) : execIn f s = .next (s.receive ⟨s.turn, n⟩ p src) := by
  simp only [execIn, hcur, hn, hsrc]

theorem execOut_of_consumer {n : Nat} {dst : Consumer} (hn : checkPort s.wiring.numPorts (immI f) = some n)
    (hdst : s.consumer ⟨s.turn, n⟩ = some dst) : execOut f s = .next (s.deliver ⟨s.turn, n⟩ p dst) := by
  simp only [execOut, hcur, hn, hdst]

theorem execIn_of_port_out_of_range (hn : checkPort s.wiring.numPorts (immI f) = none) :
    execIn f s = .next (s.setCurrent (p.raise (.portRange (immI f)))) := by
  simp only [execIn, hcur, hn]

theorem execOut_of_port_out_of_range (hn : checkPort s.wiring.numPorts (immI f) = none) :
    execOut f s = .next (s.setCurrent (p.raise (.portRange (immI f)))) := by
  simp only [execOut, hcur, hn]

end

/-- Settles O46: the port check comes before the partner. -/
theorem portRangeFault : Obligations.PortRangeFault := by
  intro s p f i hi hcur hrange
  have hn : checkPort s.wiring.numPorts (immI f) = none := checkPort_eq_none hrange
  have honly := State.onlyCurrent_setCurrent hcur (p.raise (.portRange (immI f)))
  obtain rfl | rfl := hi
  · refine ⟨fun hready hi => ?_, _, _, execIn_of_port_out_of_range hcur hn, honly, p.onlyFaulted_raise _⟩
    rw [State.enabled_of_in hcur hready hi, hn, Option.all_none]
  · refine ⟨fun hready hi => ?_, _, _, execOut_of_port_out_of_range hcur hn, honly, p.onlyFaulted_raise _⟩
    rw [State.enabled_of_out hcur hready hi, hn, Option.all_none]

end Sys2Proof.Machine
end

section
/-! PROOFS. A processor that waits at IN or OUT (R173 to R175, R243): a step of another processor moves it only as the
partner on a channel, so at an endpoint that is no end of a channel it waits for ever. -/

namespace Sys2Proof.Machine

open Sys2Proof

/-- Every instruction but IN and OUT is a step that the processor of the turn takes alone (R136). -/
theorem exec_eq_onCurrent {i : Instr} (hin : inPort? i = none) (hout : outPort? i = none) (s : State) :
    ∃ g, exec i s = s.onCurrent g := by
  cases i with
  | in_ f => cases hin
  | out f => cases hout
  | load _ | store _ | add _ | sub _ | mul _ | div _ | loadind _ | storeind _ | dumpreg => exact ⟨_, rfl⟩
  | stop | start | dumpprog | loadnum _ | addnum _ | subnum _ | mulnum _ | divnum _ | jump _ | jumpneg _ | jumppos _
  | jumpnull _ | unrecognized _ =>
    simp only [exec, execStop, execStart, execDumpprog, execLoadnum, execAddnum, execSubnum, execMulnum, execDivnum,
      execJump, execJumpneg, execJumppos, execJumpnull, execUnrecognized]
    exact ⟨_, rfl⟩

/-- Processor k is at the other end of the channel of some endpoint, ready for the joint step there (R171). -/
def State.JointWith (s : State) (k : Nat) : Prop :=
  ∃ e q r port?, bindingOf s.wiring e = .channel q ∧ q.proc = k ∧ (port? = inPort? ∨ port? = outPort?) ∧
    s.partner port? q = some r

theorem State.setCurrent_others (s : State) (p' : Proc) {k : Nat} (hk : k ≠ s.turn) :
    (s.setCurrent p').procs[k]? = s.procs[k]? :=
  List.getElem?_set_ne hk.symm

theorem State.transfer_others (s : State) (src : Endpoint) (p : Proc) (dst : Endpoint) (q : Proc) {k : Nat}
    (hsrc : k ≠ src.proc) (hdst : k ≠ dst.proc) : (s.transfer src p dst q).procs[k]? = s.procs[k]? := by
  rw [State.transfer, List.getElem?_set_ne hdst.symm, List.getElem?_set_ne hsrc.symm]

theorem execIn_others {f : BitVec 32} {s t : State} (h : execIn f s = .next t) {k : Nat} (hk : k ≠ s.turn)
    (hjoint : ¬s.JointWith k) : t.procs[k]? = s.procs[k]? := by
  rw [execIn] at h
  split at h
  next => cases h
  next p hcur =>
    split at h
    next => cases h; exact s.setCurrent_others _ hk
    next n hn =>
      split at h
      next => cases h
      next src hsrc =>
        cases h
        obtain ⟨l, rest, rfl, -, -⟩ | ⟨q, r, rfl, -, hbound, hr⟩ := State.producer_eq_some hsrc
        · rw [State.receive]
          split
          next => exact s.setCurrent_others _ hk
          next => exact s.setCurrent_others _ hk
        · exact s.transfer_others _ _ _ _ (fun hq => hjoint ⟨_, q, r, _, hbound, hq.symm, .inr rfl, hr⟩) hk

theorem execOut_others {f : BitVec 32} {s t : State} (h : execOut f s = .next t) {k : Nat} (hk : k ≠ s.turn)
    (hjoint : ¬s.JointWith k) : t.procs[k]? = s.procs[k]? := by
  rw [execOut] at h
  split at h
  next => cases h
  next p hcur =>
    split at h
    next => cases h; exact s.setCurrent_others _ hk
    next n hn =>
      split at h
      next => cases h
      next dst hdst =>
        cases h
        obtain ⟨rfl, -⟩ | ⟨q, r, rfl, -, hbound, hr⟩ := State.consumer_eq_some hdst
        · exact s.setCurrent_others _ hk
        · exact s.transfer_others _ _ _ _ hk fun hq => hjoint ⟨_, q, r, _, hbound, hq.symm, .inl rfl, hr⟩

theorem inPort?_eq_some {i : Instr} {f : BitVec 32} (h : inPort? i = some f) : i = .in_ f := by
  cases i with
  | in_ g => rw [Option.some.inj h]
  | _ => cases h

theorem outPort?_eq_some {i : Instr} {f : BitVec 32} (h : outPort? i = some f) : i = .out f := by
  cases i with
  | out g => rw [Option.some.inj h]
  | _ => cases h

/-- An instruction changes the processor of the turn, and another only as its partner on a channel. -/
theorem exec_others {i : Instr} {s t : State} (h : exec i s = .next t) {k : Nat} (hk : k ≠ s.turn)
    (hjoint : ¬s.JointWith k) : t.procs[k]? = s.procs[k]? := by
  cases hin : inPort? i with
  | some f =>
    obtain rfl := inPort?_eq_some hin
    exact execIn_others h hk hjoint
  | none =>
    cases hout : outPort? i with
    | some f =>
      obtain rfl := outPort?_eq_some hout
      exact execOut_others h hk hjoint
    | none =>
      obtain ⟨g, hg⟩ := exec_eq_onCurrent hin hout s
      obtain ⟨p, p', -, -, rfl⟩ := State.onCurrent_next (hg.symm.trans h)
      exact s.setCurrent_others p' hk

/-- A processor at IN or OUT whose endpoint is no other end of a channel is nobody's partner. -/
theorem State.not_jointWith {s : State} {k n : Nat} {p : Proc} {f : BitVec 32} (hp : s.procs[k]? = some p)
    (hi : p.nextInstr = some (.in_ f) ∨ p.nextInstr = some (.out f))
    (hn : checkPort s.wiring.numPorts (immI f) = some n) (hpeer : ∀ e, bindingOf s.wiring e ≠ .channel ⟨k, n⟩) :
    ¬s.JointWith k := by
  rintro ⟨e, ⟨j, m⟩, r, port?, hbound, rfl, hport, hr⟩
  obtain ⟨hproc, -, g, hg, hm⟩ := State.partner_eq_some hr
  obtain rfl : p = r := Option.some.inj (hp.symm.trans hproc)
  have hgf : g = f := by
    obtain ⟨i, hnext, hg⟩ := Option.bind_eq_some_iff.1 hg
    obtain rfl | rfl := hport
    · simpa [hnext, inPort?_eq_some hg] using hi
    · simpa [hnext, outPort?_eq_some hg] using hi
  rw [hgf, hn, Option.some.injEq] at hm
  exact hpeer e (hm ▸ hbound)

/-- A processor without a step that waits at such an endpoint stays as it is in every step. -/
theorem step_keeps_waiting {s t : State} (hstep : step s = .next t) {k n : Nat} {p : Proc} {f : BitVec 32}
    (hp : s.procs[k]? = some p) (hi : p.nextInstr = some (.in_ f) ∨ p.nextInstr = some (.out f))
    (hn : checkPort s.wiring.numPorts (immI f) = some n) (hpeer : ∀ e, bindingOf s.wiring e ≠ .channel ⟨k, n⟩)
    (hwaits : s.enabled k = false) : t.procs[k]? = some p := by
  obtain ⟨j, i, u, -, henabled, -, hexec, rfl⟩ := step_next hstep
  have hjk : k ≠ j := by
    rintro rfl
    cases hwaits.symm.trans henabled
  have hjoint : ¬(s.setTurn j).JointWith k := State.not_jointWith (s := s.setTurn j) hp hi hn hpeer
  exact (exec_others hexec hjk hjoint).trans hp

/-- Every step leaves a processor that waits at the stdin or stdout port of a valid wiring, and keeps the wiring. -/
theorem WiringValid.step_keeps_wait {s t : State} (hw : WiringValid s.wiring s.procs.length)
    (hstep : step s = .next t) {k n : Nat} {p : Proc} {f : BitVec 32} (hp : s.procs[k]? = some p)
    (hi : p.nextInstr = some (.in_ f) ∨ p.nextInstr = some (.out f))
    (hn : checkPort s.wiring.numPorts (immI f) = some n)
    (hq : s.wiring.stdinPort = some ⟨k, n⟩ ∨ s.wiring.stdoutPort = some ⟨k, n⟩) (hwaits : s.enabled k = false) :
    t.procs[k]? = some p ∧ t.wiring = s.wiring ∧ WiringValid t.wiring t.procs.length := by
  obtain ⟨hwiring, hlength, -⟩ := step_frame hstep
  exact ⟨step_keeps_waiting hstep hp hi hn (hw.binding_ne_channel hq) hwaits, hwiring,
    by rw [hwiring, hlength]; exact hw⟩

/-- Settles O51: an unbound endpoint has neither partner nor peer, and on a channel the partner is the one of R171. -/
theorem unboundOrUnmatchedEndpointsStall : Obligations.UnboundOrUnmatchedEndpointsStall := by
  intro s k p f n i port? hi hp hnext hf hlt
  have hn : checkPort s.wiring.numPorts (immI f) = some n := checkPort_eq_some.2 ⟨hf, hlt⟩
  refine ⟨fun hunbound => ?_, fun q hbound henabled => ?_⟩
  · have hstep : s.enabled k = false → ∀ t, step s = .next t →
        t.procs[k]? = some p ∧ bindingOf t.wiring ⟨k, n⟩ = .unbound := fun hwaits t ht => by
      obtain ⟨hwiring, -⟩ := step_frame ht
      have hports := hi.imp (fun h => h.1 ▸ hnext) (fun h => h.1 ▸ hnext)
      exact ⟨step_keeps_waiting ht hp hports hn (fun _ => binding_ne_channel_of_unbound hunbound) hwaits,
        hwiring ▸ hunbound⟩
    obtain ⟨rfl, -⟩ | ⟨rfl, -⟩ := hi
    · have hsrc : s.producer ⟨k, n⟩ = none := State.producer_of_unbound hunbound
      have hwaits := State.not_enabled_of_no_producer hp hn hnext hsrc
      exact ⟨hwaits, execIn_stalls (s := s.setTurn k) hp hn hsrc, hstep hwaits⟩
    · have hdst : s.consumer ⟨k, n⟩ = none := State.consumer_of_unbound hunbound
      have hwaits := State.not_enabled_of_no_consumer hp hn hnext hdst
      exact ⟨hwaits, execOut_stalls (s := s.setTurn k) hp hn hdst, hstep hwaits⟩
  · obtain ⟨hin, hout⟩ := State.partner_of_enabled henabled hp hnext hn
    have hpartner : ∃ r, s.partner port? q = some r := by
      obtain ⟨rfl, rfl⟩ | ⟨rfl, rfl⟩ := hi
      · exact State.exists_partner_of_producer hbound (hin rfl)
      · exact State.exists_partner_of_consumer hbound (hout rfl)
    obtain ⟨r, hr⟩ := hpartner
    obtain ⟨hproc, hready, g, hg, hport⟩ := State.partner_eq_some hr
    obtain ⟨hrunning, hnofault⟩ := Proc.ready_iff.1 hready
    obtain ⟨j, hj, hjg⟩ := Option.bind_eq_some_iff.1 hg
    exact ⟨r, j, g, hproc, hrunning, hnofault, hj, hjg, (checkPort_eq_some.1 hport).1⟩

end Sys2Proof.Machine
end

section
/-! PROOFS. IN and OUT on the stdin feed (R173), on the stdout sink (R174) and on a channel (R171). -/

namespace Sys2Proof.Machine

open Sys2Proof

/-! ## The stdin feed (R173) -/

/-- At the stdin port an IN past the end of the feed waits, and so does every OUT. -/
theorem State.not_enabled_at_stdin {s : State} {k n : Nat} {p : Proc} {f : BitVec 32} (hp : s.procs[k]? = some p)
    (hn : checkPort s.wiring.numPorts (immI f) = some n) (hstdin : s.wiring.stdinPort = some ⟨k, n⟩)
    (hi : (p.nextInstr = some (.in_ f) ∧ s.stdin = []) ∨ p.nextInstr = some (.out f)) : s.enabled k = false := by
  obtain ⟨hi, hend⟩ | hi := hi
  · exact State.not_enabled_of_no_producer hp hn hi (by rw [State.producer_of_stdin hstdin, hend]; rfl)
  · exact State.not_enabled_of_no_consumer hp hn hi (State.consumer_of_stdin hstdin)

/-- What an IN makes of the next line of the feed: its value, or PortDecode. -/
theorem State.receive_line {s : State} {p : Proc} (hcur : s.current = some p) (e : Endpoint) (line : Text)
    (rest : List Text) :
    ∃ p', ({ s with stdin := rest } : State).OnlyCurrent (s.receive e p (.line line rest)) p' ∧
      (∀ x, decodeText (portNan s.ticks) line = some x →
        p'.acc = x ∧ p.EndsAt p' (p.pc + 1) ∧ p'.portHist = p.portHist ++ [.stdinLine e.port line] ∧
        p'.mmu = p.mmu ∧ p'.dumpOut = p.dumpOut ∧ p.SameProgram p') ∧
      (decodeText (portNan s.ticks) line = none → p.OnlyFaulted p' (.portDecode e.port)) := by
  have honly := State.onlyCurrent_setCurrent (s := { s with stdin := rest }) hcur
  rw [State.receive]
  cases decodeText (portNan s.ticks) line with
  | some x =>
    refine ⟨_, honly _, fun y hy => ?_, nofun⟩
    obtain rfl := Option.some.inj hy
    exact ⟨by simp, Proc.endsAt_finish_of rfl rfl rfl, by simp, by simp, by simp, by simp, by simp⟩
  | none => exact ⟨_, honly _, nofun, fun _ => p.onlyFaulted_raise _⟩

/-- The feed stays at its end. -/
theorem step_keeps_feed_end {s t : State} (hstep : step s = .next t) (hend : s.stdin = []) : t.stdin = [] := by
  obtain ⟨-, -, -, hsuffix⟩ := step_frame hstep
  exact List.suffix_nil.1 (hend ▸ hsuffix)

/-- Settles O48: the producer at the stdin port is the next line, if there is one, and there is no consumer. -/
theorem stdinFeed : Obligations.StdinFeed := by
  intro s k p f n hp hf hlt hstdin
  have hn : checkPort s.wiring.numPorts (immI f) = some n := checkPort_eq_some.2 ⟨hf, hlt⟩
  have hwaits := State.not_enabled_at_stdin hp hn hstdin
  refine ⟨fun line rest hfeed => ?_, fun hend => ?_, ?_, fun hi => hwaits (.inr hi), fun hw hi t ht => ?_⟩
  · have hsrc : s.producer ⟨k, n⟩ = some (.line line rest) := by rw [State.producer_of_stdin hstdin, hfeed]; rfl
    obtain ⟨p', hline⟩ := State.receive_line (s := s.setTurn k) hp ⟨k, n⟩ line rest
    exact ⟨fun hready hi => State.enabled_of_producer hp hn hready hi hsrc, _, p',
      execIn_of_producer (s := s.setTurn k) hp hn hsrc, hline⟩
  · have hsrc : s.producer ⟨k, n⟩ = none := by rw [State.producer_of_stdin hstdin, hend]; rfl
    exact ⟨execIn_stalls (s := s.setTurn k) hp hn hsrc, fun hi => hwaits (.inl ⟨hi, hend⟩),
      fun t ht => step_keeps_feed_end ht hend⟩
  · exact execOut_stalls (s := s.setTurn k) hp hn (State.consumer_of_stdin hstdin)
  · obtain ⟨hproc, hwiring, hvalid⟩ :=
      hw.step_keeps_wait ht hp (hi.imp_left And.left) hn (.inl hstdin) (hwaits hi)
    exact ⟨hproc, State.not_enabled_at_stdin hproc (hwiring ▸ hn) (hwiring ▸ hstdin)
      (hi.imp_left (And.imp_right (step_keeps_feed_end ht))), hwiring, hvalid⟩

/-! ## The stdout sink (R174) -/

/-- Settles O49: the consumer at the stdout port is always the sink, and there is no producer. -/
theorem stdoutSink : Obligations.StdoutSink := by
  intro s k p f n hp hf hlt hstdin hstdout
  have hn : checkPort s.wiring.numPorts (immI f) = some n := checkPort_eq_some.2 ⟨hf, hlt⟩
  have hbound := bindingOf_of_stdout hstdin hstdout
  have hdst := State.consumer_of_stdout hbound
  have hsrc := State.producer_of_stdout hbound
  refine ⟨fun hready hi => State.enabled_of_consumer hp hn hready hi hdst, ?_, ?_,
    fun hi => State.not_enabled_of_no_producer hp hn hi hsrc, fun hw hi t ht => ?_⟩
  · exact ⟨_, (p.recordPort (.stdoutLine n (encodeText p.acc))).finish,
      execOut_of_consumer (s := s.setTurn k) hp hn hdst,
      State.onlyCurrent_setCurrent (s := { s with turn := k, stdout := s.stdout ++ [encodeText p.acc] }) hp _,
      by simp, Proc.endsAt_finish_of rfl rfl rfl, by simp, by simp, by simp, by simp, by simp⟩
  · exact execIn_stalls (s := s.setTurn k) hp hn hsrc
  · obtain ⟨hproc, hwiring, hvalid⟩ := hw.step_keeps_wait ht hp (.inl hi) hn (.inr hstdout)
      (State.not_enabled_of_no_producer hp hn hi hsrc)
    exact ⟨hproc, State.not_enabled_of_no_producer hproc (hwiring ▸ hn) hi
      (State.producer_of_stdout (hwiring ▸ hbound)), hwiring, hvalid⟩

/-! ## The rendezvous (R171) -/

/-- A channel between two ports of one processor has neither producer nor consumer. -/
theorem State.no_partner_on_own_channel {s : State} {k n m : Nat}
    (hbound : bindingOf s.wiring ⟨k, n⟩ = .channel ⟨k, m⟩) :
    s.producer ⟨k, n⟩ = none ∧ s.consumer ⟨k, n⟩ = none :=
  ⟨(State.producer_of_channel hbound).trans (if_pos rfl), (State.consumer_of_channel hbound).trans (if_pos rfl)⟩

/-- Settles O50: each of the two is the other's partner, so both instructions answer the same transfer. -/
theorem rendezvousTransfer : Obligations.RendezvousTransfer := by
  refine ⟨fun s k a f n m ha hf hlt hbound hi => ?_, ?_⟩
  · have hn : checkPort s.wiring.numPorts (immI f) = some n := checkPort_eq_some.2 ⟨hf, hlt⟩
    obtain ⟨hsrc, hdst⟩ := State.no_partner_on_own_channel hbound
    obtain hi | hi := hi
    · exact State.not_enabled_of_no_consumer ha hn hi hdst
    · exact State.not_enabled_of_no_producer ha hn hi hsrc
  · intro s P Q p q fp fq a b hPQ ha hb haready hbready hout hin hfp hfq hplt hqlt hPbound hQbound
    have hp : checkPort s.wiring.numPorts (immI fp) = some p := checkPort_eq_some.2 ⟨hfp, hplt⟩
    have hq : checkPort s.wiring.numPorts (immI fq) = some q := checkPort_eq_some.2 ⟨hfq, hqlt⟩
    have hreceiver : s.partner inPort? ⟨Q, q⟩ = some b :=
      State.partner_of_ready hb hbready (by rw [hin]; rfl) hq
    have hsender : s.partner outPort? ⟨P, p⟩ = some a :=
      State.partner_of_ready ha haready (by rw [hout]; rfl) hp
    have hdst : s.consumer ⟨P, p⟩ = some (.processor ⟨Q, q⟩ b) := by
      rw [State.consumer_of_channel hPbound, if_neg hPQ.symm, hreceiver, Option.map_some]
    have hsrc : s.producer ⟨Q, q⟩ = some (.processor ⟨P, p⟩ a) := by
      rw [State.producer_of_channel hQbound, if_neg hPQ, hsender, Option.map_some]
    exact ⟨State.enabled_of_consumer ha hp haready hout hdst, State.enabled_of_producer hb hq hbready hin hsrc,
      _, _, _, rfl, execOut_of_consumer (s := s.setTurn P) ha hp hdst,
      execIn_of_producer (s := s.setTurn Q) hb hq hsrc, by simp, by simp, by simp, by simp,
      Proc.endsAt_finish_of rfl rfl rfl, Proc.endsAt_finish_of rfl rfl rfl, by simp, by simp, by simp, by simp,
      ⟨by simp, by simp⟩, ⟨by simp, by simp⟩⟩

end Sys2Proof.Machine
end

section
/-! PROOFS. What crosses a channel (R171, R176): a number as itself, and for a NaN one that may be any. -/

namespace Sys2Proof.Machine

open Sys2Proof

/-- The NaN of a draw, a fraction of 0 standing for 1: the exponent field between the draw's sign and its fraction. -/
theorem toNat_anyNan (b : BitVec 53) :
    (anyNan b).toNat = b.toNat / 2 ^ 52 * 2 ^ 63 + F64.infMag + max 1 (b.toNat % 2 ^ 52) := by
  have hlt := b.isLt
  have hsign : (b.extractLsb' 52 1).toNat = b.toNat / 2 ^ 52 := by
    rw [BitVec.extractLsb'_toNat, Nat.shiftRight_eq_div_pow]
    omega
  have hlow : (b.extractLsb' 0 52).toNat = b.toNat % 2 ^ 52 := by
    rw [BitVec.extractLsb'_toNat, Nat.shiftRight_zero]
  have hfrac : (if b.extractLsb' 0 52 = 0#52 then 1#52 else b.extractLsb' 0 52).toNat = max 1 (b.toNat % 2 ^ 52) := by
    rw [← hlow]
    split
    next h => rw [h]; rfl
    next h => exact (max_eq_right (Nat.pos_of_ne_zero fun h0 => h (BitVec.eq_of_toNat_eq h0))).symm
  rw [anyNan, BitVec.toNat_append, ← Nat.shiftLeft_add_eq_or_of_lt (BitVec.isLt _), BitVec.toNat_append,
    ← Nat.shiftLeft_add_eq_or_of_lt (BitVec.isLt _), hsign, hfrac, Nat.shiftLeft_eq, Nat.shiftLeft_eq, F64.infMag]
  simp only [BitVec.toNat_ofNat]
  omega

theorem isNan_anyNan (b : BitVec 53) : F64.isNan (anyNan b) = true := by
  have hlt := b.isLt
  rw [F64.isNan, F64.mag, toNat_anyNan, decide_eq_true_eq, F64.infMag]
  omega

/-- The draw of a NaN's own sign and fraction is that NaN. -/
theorem exists_anyNan_eq {x : F64} (h : F64.isNan x = true) : ∃ b, anyNan b = x := by
  have hlt := x.isLt
  rw [F64.isNan, F64.mag, decide_eq_true_eq, F64.infMag] at h
  refine ⟨BitVec.ofNat 53 (x.toNat / 2 ^ 63 * 2 ^ 52 + x.toNat % 2 ^ 52), BitVec.eq_of_toNat_eq ?_⟩
  rw [toNat_anyNan, BitVec.toNat_ofNat, F64.infMag]
  omega

/-- Settles O53: a number is put through as it is, and for a NaN some draw is. -/
theorem wireKeepsNumbers : Obligations.WireKeepsNumbers := by
  refine ⟨fun t v h => ?_, fun t v h => ?_, fun x hx => exists_anyNan_eq hx⟩
  · rw [wire, h, if_neg Bool.false_ne_true]
  · rw [wire, h, if_pos rfl]
    exact isNan_anyNan _

end Sys2Proof.Machine
end

section
/-! PROOFS. The text of a number reads back as that number (R176). The search for the shortest decimal ends at one that
reads back, the last one tried being exact; and reading its positional notation gives that decimal again. -/

namespace Sys2Proof.Machine

open Sys2Proof

/-! ## Decimals that read back -/

/-- A magnitude's own exact value rounds to it. -/
theorem F64.roundMag_magUnits {m den : Nat} (hden : 0 < den) (hm : m ≤ F64.infMag) :
    F64.roundMag (F64.magUnits m * den) den = m := by
  obtain ⟨l, hlo, hhi, -, hdown⟩ := F64.roundMag_eq (F64.magUnits m * den) hden
  have hlm : l ≤ m := F64.magUnits_strictMono.le_iff_le.1 (Nat.le_of_mul_le_mul_right hlo hden)
  have hml : m < l + 1 := F64.magUnits_strictMono.lt_iff_lt.1 (Nat.lt_of_mul_lt_mul_right hhi)
  obtain rfl : l = m := by omega
  have hnot : ¬F64.RoundsUp (F64.magUnits l * den) den l := by
    rw [F64.RoundsUp, Nat.add_mul]
    omega
  rw [hdown hnot, min_eq_right hm]

/-- What `decimalAt` finds reads back as the magnitude. -/
theorem decimalMag_of_decimalAt {mag u c : Nat} {q : Int} (h : decimalAt mag u q = some c) :
    decimalMag c (-q) = mag := by
  simp only [decimalAt] at h
  split at h
  next hbelow => cases h; exact hbelow.1
  next =>
    split at h
    next habove => cases h; exact habove
    next => cases h

theorem decimalMag_natCast (c k : Nat) : decimalMag c (k : Int) =
    if c = 0 then 0 else if 400 < k then F64.infMag else F64.roundMag (c * 10 ^ k * 2 ^ 1074) 1 := rfl

theorem decimalMag_neg (c : Nat) {k : Nat} (hk : 0 < k) : decimalMag c (-(k : Int)) =
    if Nat.log2 c + 400 < k then 0 else F64.roundMag (c * 2 ^ 1074) (10 ^ k) := by
  obtain ⟨e, rfl⟩ := Nat.exists_eq_add_one.2 hk
  rfl

theorem decimalDiv_natCast_fst (u k : Nat) : (decimalDiv u (k : Int)).1 = u * 10 ^ k / 2 ^ 1074 := rfl

theorem five_pow_mul_two_pow (k : Nat) : 5 ^ k * 2 ^ k = 10 ^ k := (Nat.mul_pow 5 2 k).symm

/-- A whole number of units of 2^-k is a whole multiple of 10^-k. -/
theorem mul_ten_pow_div_two_pow (u k : Nat) : u * 10 ^ k / 2 ^ k = u * 5 ^ k := by
  rw [← five_pow_mul_two_pow, ← Nat.mul_assoc, Nat.mul_div_cancel _ (Nat.two_pow_pos k)]

theorem le_log2_mul_five_pow {u : Nat} (hu : 0 < u) (k : Nat) : k ≤ Nat.log2 (u * 5 ^ k) := by
  have hfive : 0 < 5 ^ k := Nat.pow_pos (by decide)
  rw [Nat.le_log2 (Nat.mul_pos hu hfive).ne']
  exact (Nat.pow_le_pow_left (by decide) k).trans (Nat.le_mul_of_pos_left _ hu)

/-- At 1074 places the decimal of a value is exact, and reads back. -/
theorem decimalMag_exact {m : Nat} (hpos : 0 < m) (hm : m ≤ F64.infMag) :
    decimalMag (decimalDiv (F64.magUnits m) (1074 : Nat)).1 (-(1074 : Nat)) = m := by
  have hunits : 0 < F64.magUnits m := F64.magUnits_zero ▸ F64.magUnits_strictMono hpos
  have hlog := le_log2_mul_five_pow hunits 1074
  rw [decimalDiv_natCast_fst, mul_ten_pow_div_two_pow, decimalMag_neg _ (by decide), if_neg (by omega), Nat.mul_assoc,
    five_pow_mul_two_pow]
  exact F64.roundMag_magUnits (pow_pos (by decide) _) hm

/-- The search ends at a decimal that reads back. -/
theorem decimalMag_shortestFrom {m : Nat} (hpos : 0 < m) (hm : m ≤ F64.infMag) {fuel : Nat} {q : Int}
    (hq : q + fuel = 1074) {r : Nat × Int} (hr : shortestFrom m (F64.magUnits m) fuel q = r) :
    decimalMag r.1 (-r.2) = m := by
  induction fuel generalizing q with
  | zero =>
    obtain rfl : q = (1074 : Nat) := by omega
    subst hr
    exact decimalMag_exact hpos hm
  | succ fuel ih =>
    rw [shortestFrom] at hr
    split at hr
    next c hc => subst hr; exact decimalMag_of_decimalAt hc
    next => exact ih (by omega) hr

/-- Zeros may stand in the coefficient as well as in the exponent. -/
theorem decimalMag_mul_ten_pow {c k : Nat} (h : decimalMag c (k : Int) < F64.infMag) :
    decimalMag (c * 10 ^ k) (0 : Nat) = decimalMag c (k : Int) := by
  rw [decimalMag_natCast] at h ⊢
  rw [decimalMag_natCast]
  obtain rfl | hc := Nat.eq_zero_or_pos c
  · rw [Nat.zero_mul, if_pos rfl, if_pos rfl]
  · have hck : 0 < c * 10 ^ k := Nat.mul_pos hc (Nat.pow_pos (by decide))
    rw [if_neg hc.ne'] at h ⊢
    rw [if_neg hck.ne', if_neg (by decide), Nat.pow_zero, Nat.mul_one]
    split at h
    next => exact absurd h (Nat.lt_irrefl _)
    next hk => rw [if_neg hk]

/-! ## Reading a decimal literal -/

/-- Digits are read up to a point. -/
theorem readDigits_point {ds fs : Text} (h : ∀ c ∈ ds, c.isDigit = true) (n acc : Nat) :
    readDigits (ds ++ '.' :: fs) n acc = (n + ds.length, Nat.ofDigitChars 10 ds acc, '.' :: fs) := by
  induction ds generalizing n acc with
  | nil => rw [Nat.ofDigitChars_nil]; rfl
  | cons c cs ih =>
    obtain ⟨hc, hcs⟩ := List.forall_mem_cons.1 h
    rw [List.cons_append, readDigits, digitVal_eq_some hc]
    simp only [ih hcs, List.length_cons, Nat.ofDigitChars_cons, Nat.mul_comm 10, Nat.succ_add_eq_add_succ]
    rfl

/-- A sign before a digit is read alone, and a digit without one as it stands. -/
theorem readSign_signed (neg : Bool) {ds rest : Text} (hds : ∀ c ∈ ds, c.isDigit = true) (hne : ds ≠ []) :
    readSign ((if neg then ['-'] else []) ++ (ds ++ rest)) = (neg, ds ++ rest) := by
  obtain ⟨d, ds', rfl⟩ := List.exists_cons_of_ne_nil hne
  have hd := hds d List.mem_cons_self
  cases neg with
  | true => rfl
  | false =>
    rw [if_neg Bool.false_ne_true, List.nil_append]
    unfold readSign
    split
    next h => cases h; cases hd
    next h => cases h; cases hd
    next => rfl

/-- A literal of digits alone. -/
theorem parseDecimal_digits (neg : Bool) {ds : Text} (hds : ∀ c ∈ ds, c.isDigit = true) (hne : ds ≠ []) :
    parseDecimal ((if neg then ['-'] else []) ++ ds) = some (neg, Nat.ofDigitChars 10 ds 0, 0) := by
  have hsign := readSign_signed neg (rest := []) hds hne
  rw [List.append_nil] at hsign
  rw [parseDecimal, hsign]
  simp only [readDigits_of_isDigit hds, Nat.zero_add]
  rw [if_neg (List.length_pos_iff.2 hne).ne']
  rfl

/-- A literal with a fraction: the digits on both sides of the point are one coefficient. -/
theorem parseDecimal_point (neg : Bool) {ds fs : Text} (hds : ∀ c ∈ ds, c.isDigit = true)
    (hfs : ∀ c ∈ fs, c.isDigit = true) (hdsne : ds ≠ []) (hfsne : fs ≠ []) :
    parseDecimal ((if neg then ['-'] else []) ++ (ds ++ '.' :: fs)) =
      some (neg, Nat.ofDigitChars 10 (ds ++ fs) 0, -(fs.length : Int)) := by
  rw [parseDecimal, readSign_signed neg hds hdsne]
  simp only [readDigits_point hds, readDigits_of_isDigit hfs, Nat.zero_add]
  rw [if_neg (List.length_pos_iff.2 hdsne).ne', if_neg (List.length_pos_iff.2 hfsne).ne', Nat.ofDigitChars_append,
    readExponent, Option.map_some, zero_sub]

/-- A text that is a decimal literal is none of the named values. -/
theorem decodeText_of_parseDecimal {nan : F64} {t : Text} {neg : Bool} {c : Nat} {e : Int}
    (h : parseDecimal t = some (neg, c, e)) : decodeText nan t = some (F64.ofMag neg (decimalMag c e)) := by
  have hne : ∀ w, parseDecimal w = none → t ≠ w := by
    rintro w hw rfl
    cases h.symm.trans hw
  rw [decodeText, if_neg (not_or.2 ⟨hne _ rfl, hne _ rfl⟩), if_neg (hne _ rfl), if_neg (hne _ rfl), decimalToF64, h]
  rfl

/-! ## Reading positional notation -/

theorem ofDigitChars_natDigits (n : Nat) : Nat.ofDigitChars 10 (natDigits n) 0 = n := Nat.ofDigitChars_ten_toDigits

theorem natDigits_ne_nil (n : Nat) : natDigits n ≠ [] := Nat.toDigits_ne_nil

theorem isDigit_of_mem_zeros {k : Nat} {c : Char} (h : c ∈ List.replicate k '0') : c.isDigit = true :=
  List.eq_of_mem_replicate h ▸ rfl

theorem positional_zero (c : Nat) : positional c 0 = natDigits c := rfl

theorem positional_of_neg (c : Nat) {k : Nat} (hk : 0 < k) :
    positional c (-(k : Int)) = natDigits c ++ List.replicate k '0' := by
  obtain ⟨j, rfl⟩ := Nat.exists_eq_add_one.2 hk
  rfl

/-- Positional notation with q > 0 is the numeral, with zeros before it, cut q digits before its end. -/
theorem positional_of_pos (c : Nat) {q : Nat} (hq : 0 < q) : ∃ k ds fs,
    positional c (q : Int) = ds ++ '.' :: fs ∧ ds ++ fs = List.replicate k '0' ++ natDigits c ∧
      ds ≠ [] ∧ fs.length = q := by
  obtain ⟨q, rfl⟩ := Nat.exists_eq_add_one.2 hq
  set ds := List.replicate (q + 1 + 1 - (natDigits c).length) '0' ++ natDigits c with hds
  have hlength : q + 1 < ds.length := by
    rw [hds, List.length_append, List.length_replicate]
    omega
  refine ⟨_, ds.take (ds.length - (q + 1)), ds.drop (ds.length - (q + 1)), rfl, List.take_append_drop .., ?_, ?_⟩
  · rw [← List.length_pos_iff, List.length_take]
    omega
  · rw [List.length_drop]
    omega

/-- The positional notation of c*10^-q parses as a decimal of the same magnitude. -/
theorem parseDecimal_positional (neg : Bool) {c : Nat} {q : Int} (hfin : decimalMag c (-q) < F64.infMag) :
    ∃ coeff exp, parseDecimal ((if neg then ['-'] else []) ++ positional c q) = some (neg, coeff, exp) ∧
      decimalMag coeff exp = decimalMag c (-q) := by
  have hdigits : ∀ d ∈ natDigits c, d.isDigit = true := fun _ => isDigit_of_mem_natDigits
  obtain ⟨k, hq⟩ := q.eq_nat_or_neg
  obtain rfl | hk := Nat.eq_zero_or_pos k
  · obtain rfl : q = 0 := by omega
    rw [positional_zero, parseDecimal_digits neg hdigits (natDigits_ne_nil c), ofDigitChars_natDigits]
    exact ⟨c, 0, rfl, rfl⟩
  obtain rfl | rfl := hq
  · obtain ⟨j, ds, fs, htext, hcut, hds, hfs⟩ := positional_of_pos c hk
    have hcutDigits : ∀ d ∈ ds ++ fs, d.isDigit = true :=
      hcut ▸ List.forall_mem_append.2 ⟨fun _ => isDigit_of_mem_zeros, hdigits⟩
    obtain ⟨hdsDigits, hfsDigits⟩ := List.forall_mem_append.1 hcutDigits
    have hfsne : fs ≠ [] := List.length_pos_iff.1 (hfs ▸ hk)
    rw [htext, parseDecimal_point neg hdsDigits hfsDigits hds hfsne, hcut, hfs, Nat.ofDigitChars_append,
      Nat.ofDigitChars_replicate_zero, Nat.mul_zero, ofDigitChars_natDigits]
    exact ⟨_, _, rfl, rfl⟩
  · have hzeros : ∀ d ∈ natDigits c ++ List.replicate k '0', d.isDigit = true :=
      List.forall_mem_append.2 ⟨hdigits, fun _ => isDigit_of_mem_zeros⟩
    have hne := List.append_ne_nil_of_left_ne_nil (natDigits_ne_nil c) (List.replicate k '0')
    rw [positional_of_neg c hk, parseDecimal_digits neg hzeros hne, Nat.ofDigitChars_append,
      Nat.ofDigitChars_replicate_zero, ofDigitChars_natDigits, Nat.mul_comm]
    rw [neg_neg] at hfin ⊢
    exact ⟨_, _, rfl, decimalMag_mul_ten_pow hfin⟩

/-! ## The round trip -/

@[simp] theorem F64.ofMag_sign_mag (v : F64) : F64.ofMag (F64.sign v) (F64.mag v) = v := by
  have hlt := v.isLt
  refine BitVec.eq_of_toNat_eq ?_
  rw [F64.ofMag, F64.mag, F64.sign, BitVec.msb_eq_decide, BitVec.toNat_ofNat]
  simp only [decide_eq_true_eq]
  split <;> omega

/-- The text of a finite magnitude is the positional notation of a decimal that reads back. -/
theorem shortestText_eq_positional {v : F64} (h : F64.isFinite v = true) :
    ∃ c q, shortestText v = positional c q ∧ decimalMag c (-q) = F64.mag v := by
  rw [shortestText]
  split
  next hzero => exact ⟨0, 0, rfl, (of_decide_eq_true hzero).symm⟩
  next hzero =>
    have hpos : 0 < F64.mag v := Nat.pos_of_ne_zero fun h0 => hzero (decide_eq_true h0)
    exact ⟨_, _, rfl, decimalMag_shortestFrom hpos (of_decide_eq_true h).le (by decide) rfl⟩

/-- Settles O52: the text of a finite value is a literal of its sign and its magnitude; the infinities have names. -/
theorem textCodecRoundTrip : Obligations.TextCodecRoundTrip := by
  intro nan v hnan
  rw [encodeText, hnan, if_neg Bool.false_ne_true]
  split
  next hinf =>
    have hv : F64.ofMag (F64.sign v) F64.infMag = v := of_decide_eq_true hinf ▸ F64.ofMag_sign_mag v
    rw [← hv, F64.sign_ofMag_infMag]
    cases F64.sign v <;> rfl
  next hinf =>
    have hfin : F64.mag v < F64.infMag :=
      lt_of_le_of_ne (not_lt.1 (of_decide_eq_false hnan)) fun h => hinf (decide_eq_true h)
    obtain ⟨c, q, htext, hmag⟩ := shortestText_eq_positional (decide_eq_true hfin)
    obtain ⟨coeff, exp, hparse, hsame⟩ := parseDecimal_positional (F64.sign v) (hmag ▸ hfin)
    rw [htext, decodeText_of_parseDecimal hparse, hsame, hmag, F64.ofMag_sign_mag]

end Sys2Proof.Machine
end

section
/-! PROOFS. LOAD, STORE, LOADNUM, LOADIND and STOREIND (R180 to R185): each is a step that one processor takes alone. It
ends by a cause raised (R250), or at the end of the step with an accumulator and an engine that its accesses give. -/

namespace Sys2Proof.Machine

open Sys2Proof

/-! ## ToIndex (R180) -/

theorem F64.toInt?_eq_some_iff {x : F64} {i : Int} :
    F64.toInt? x = some i ↔ F64.isFinite x = true ∧ F64.fixed x = i * 2 ^ 1074 := by
  have hunit : (2 : Int) ^ 1074 ≠ 0 := pow_ne_zero _ two_ne_zero
  rw [F64.toInt?]
  split
  next h =>
    obtain ⟨hfin, hwhole⟩ := h
    rw [Option.some.injEq, Int.ediv_eq_iff_eq_mul_left hunit (Int.dvd_of_emod_eq_zero hwhole)]
    exact (and_iff_right hfin).symm
  next h =>
    refine iff_of_false (by simp) fun ⟨hfin, hvalue⟩ => h ⟨hfin, ?_⟩
    rw [hvalue, Int.mul_emod_left]

theorem toIndex_eq_ok_iff {x : F64} {i : Int} : toIndex x = .ok i ↔ F64.toInt? x = some i := by
  rw [toIndex]
  split
  next h => rw [h, Except.ok.injEq, Option.some.injEq]
  next h => simp [h]

theorem toIndex_of_toInt?_eq_none {x : F64} (h : F64.toInt? x = none) :
    toIndex x = .error (.addressError (.pointer x)) := by
  simp only [toIndex, h]

/-- Settles O36: `toInt?` tests that the value is a whole multiple of 2^1074 units, and divides by them. -/
theorem toIndexIsExact : Obligations.ToIndexIsExact := by
  refine fun x => ⟨fun i => toIndex_eq_ok_iff.trans F64.toInt?_eq_some_iff, fun hnone => ?_⟩
  refine toIndex_of_toInt?_eq_none (Option.eq_none_iff_forall_ne_some.2 fun i hi => ?_)
  exact hnone ⟨i, F64.toInt?_eq_some_iff.1 hi⟩

/-! ## How a step of one processor ends -/

/-- p' is p at the end of a step that left the accumulator `v` and the engine `m` and advanced pc. -/
structure Proc.FinishedWith (p p' : Proc) (v : F64) (m : Mmu) : Prop where
  acc : p'.acc = v
  mmu : p'.mmu = m
  ends : p.EndsAt p' (p.pc + 1)
  program : p.SameProgram p'
  records : p.SameRecords p'

theorem Proc.finishedWith_finish (p : Proc) (v : F64) (m : Mmu) :
    p.FinishedWith ((p.setMmu m).setAcc v).finish v m where
  acc := by simp
  mmu := by simp
  ends := Proc.endsAt_finish_of rfl rfl rfl
  program := ⟨by simp, by simp⟩
  records := ⟨by simp, by simp⟩

section
variable {s : State} {p : Proc} {f : Proc → Except Fault Proc} (hcur : s.current = some p)
include hcur

theorem State.onCurrent_finishedWith {v : F64} {m : Mmu} (hf : f p = .ok ((p.setMmu m).setAcc v).finish) :
    ∃ t p', s.onCurrent f = .next t ∧ s.OnlyCurrent t p' ∧ p.FinishedWith p' v m :=
  ⟨_, _, State.onCurrent_ok hcur hf, State.onlyCurrent_setCurrent hcur _, p.finishedWith_finish v m⟩

/-- `q` is the processor that raises, which may have a memory access behind it. -/
theorem State.onCurrent_onlyFaulted {q : Proc} {c : Cause} (hf : f p = .ok (q.raise c)) :
    ∃ t p', s.onCurrent f = .next t ∧ s.OnlyCurrent t p' ∧ q.OnlyFaulted p' c :=
  ⟨_, _, State.onCurrent_ok hcur hf, State.onlyCurrent_setCurrent hcur _, q.onlyFaulted_raise c⟩

end

/-! ## Accesses of an index in range -/

/-- All that a read of an index in range does (R70). -/
theorem Mmu.Inv.read_in_range {m : Mmu} (h : m.Inv) (i : VIndex) :
    ∃ m', m.read (i.toNat : Int) = .ok (m.value i, m') ∧ m'.Inv ∧ m.Accessed m' i none ∧
      (∀ a, m'.value a = m.value a) ∧
      m'.faultLog = m.faultLog ++ (if (m.pte (vpn i)).present then [] else [vpn i]) := by
  obtain ⟨m', hread, hinv, hval, hlog⟩ := h.read (checkIndex_toNat i)
  exact ⟨m', hread, hinv, h.read_accessed (checkIndex_toNat i) hread, hval, hlog⟩

/-- All that a write to an index in range does (R71). -/
theorem Mmu.Inv.write_in_range {m : Mmu} (h : m.Inv) (i : VIndex) (v : F64) :
    ∃ m', m.write (i.toNat : Int) v = .ok m' ∧ m.Accessed m' i (some v) ∧ m'.value i = v ∧
      (∀ a, a ≠ i → m'.value a = m.value a) ∧ (m'.pte (vpn i)).dirty = true := by
  obtain ⟨m', hwrite, -, hval, hdirty, -⟩ := h.write v (checkIndex_toNat i)
  exact ⟨m', hwrite, h.write_accessed (checkIndex_toNat i) hwrite, by rw [hval, if_pos rfl],
    fun a ha => by rw [hval, if_neg ha], hdirty⟩

/-! ## The pointer access (R139, R184, R185) -/

section
variable (k : Int → Proc → Except Fault Proc)

theorem Proc.withPointer_out_of_range (p : Proc) {i : Int} (h : i < 0 ∨ 65536 ≤ i) :
    p.withPointer i k = .ok (p.raise (.addressError (.index i))) :=
  p.withRead_out_of_range h _

theorem Proc.withPointer_ok {p : Proc} {i a : Int} {x : F64} {m : Mmu} (hread : p.mmu.read i = .ok (x, m))
    (ha : toIndex x = .ok a) : p.withPointer i k = k a (p.setMmu m) := by
  rw [Proc.withPointer, Proc.withRead_ok hread, ha]

theorem Proc.withPointer_error {p : Proc} {i : Int} {x : F64} {m : Mmu} {c : Cause}
    (hread : p.mmu.read i = .ok (x, m)) (hc : toIndex x = .error c) :
    p.withPointer i k = .ok ((p.setMmu m).raise c) := by
  rw [Proc.withPointer, Proc.withRead_ok hread, hc]

end

/-! ## What each instruction makes of the processor of the turn -/

section
variable {s : State} {p : Proc} {idx : BitVec 32} {m : Mmu} (hcur : s.current = some p)
include hcur

theorem exec_loadnum (c : F64) :
    ∃ t p', exec (.loadnum c) s = .next t ∧ s.OnlyCurrent t p' ∧ p.FinishedWith p' c p.mmu :=
  State.onCurrent_finishedWith (f := fun p => .ok (p.setAcc c).finish) hcur rfl

theorem exec_load {x : F64} (hread : p.mmu.read idx.toInt = .ok (x, m)) :
    ∃ t p', exec (.load idx) s = .next t ∧ s.OnlyCurrent t p' ∧ p.FinishedWith p' x m :=
  State.onCurrent_finishedWith hcur (Proc.withRead_ok hread _)

theorem exec_store (hwrite : p.mmu.write idx.toInt p.acc = .ok m) :
    ∃ t p', exec (.store idx) s = .next t ∧ s.OnlyCurrent t p' ∧ p.FinishedWith p' p.acc m :=
  State.onCurrent_finishedWith hcur (Proc.withWrite_ok hwrite _)

theorem exec_loadind {x y : F64} {a : Int} {m' : Mmu} (hread : p.mmu.read idx.toInt = .ok (x, m))
    (ha : toIndex x = .ok a) (hread' : m.read a = .ok (y, m')) :
    ∃ t p', exec (.loadind idx) s = .next t ∧ s.OnlyCurrent t p' ∧ p.FinishedWith p' y m' :=
  State.onCurrent_finishedWith hcur
    ((Proc.withPointer_ok _ hread ha).trans (Proc.withRead_ok (p := p.setMmu m) hread' _))

theorem exec_storeind {x : F64} {a : Int} {m' : Mmu} (hread : p.mmu.read idx.toInt = .ok (x, m))
    (ha : toIndex x = .ok a) (hwrite : m.write a p.acc = .ok m') :
    ∃ t p', exec (.storeind idx) s = .next t ∧ s.OnlyCurrent t p' ∧ p.FinishedWith p' p.acc m' :=
  State.onCurrent_finishedWith hcur
    ((Proc.withPointer_ok _ hread ha).trans (Proc.withWrite_ok (p := p.setMmu m) hwrite _))

end

/-- The rows of the opcode map for this family. -/
theorem decode_loadStore (w : InstrWord) :
    (opField w = 0x05#8 → decode w = .load (immIField w)) ∧ (opField w = 0x06#8 → decode w = .store (immIField w)) ∧
    (opField w = 0x07#8 → decode w = .loadnum (immFField w)) ∧
    (opField w = 0x14#8 → decode w = .loadind (immIField w)) ∧
    (opField w = 0x15#8 → decode w = .storeind (immIField w)) := by
  obtain ⟨-, -, -, -, hload, hstore, hloadnum, -, -, -, -, -, -, -, -, -, -, -, -, hloadind, hstoreind, -⟩ := opcodeMap w
  exact ⟨hload, hstore, hloadnum, hloadind, hstoreind⟩

/-! ## The five statements -/

/-- Settles O31: the accumulator is the literal, and the rest is the end of the step. -/
theorem loadnumLoadsLiteral : Obligations.LoadnumLoadsLiteral := by
  refine ⟨fun w => ?_, fun s p c hcur => ?_⟩
  · obtain ⟨-, -, hloadnum, -⟩ := decode_loadStore w
    exact hloadnum
  · obtain ⟨t, p', hexec, honly, hacc, hmmu, hends, hprogram, hrecords⟩ := exec_loadnum hcur c
    exact ⟨t, p', hexec, honly, hacc, hends, hmmu, hprogram, hrecords⟩

/-- Settles O32: the engine is the one that the read leaves. -/
theorem loadReadsMemory : Obligations.LoadReadsMemory := by
  refine ⟨fun w => ?_, fun s p idx i hcur hinv hidx => ?_,
    fun s p idx hcur h => State.onCurrent_onlyFaulted hcur (p.withRead_out_of_range h _)⟩
  · obtain ⟨hload, -⟩ := decode_loadStore w
    exact hload
  · obtain ⟨m, hread, -, haccessed, hval, hlog⟩ := hinv.read_in_range i
    obtain ⟨t, p', hexec, honly, hacc, rfl, hends, hprogram, hrecords⟩ := exec_load hcur (hidx ▸ hread)
    exact ⟨t, p', hexec, honly, hacc, hends, hread, haccessed, hval, hlog, hprogram, hrecords⟩

/-- Settles O33: the engine is the one that the write leaves. -/
theorem storeWritesMemory : Obligations.StoreWritesMemory := by
  refine ⟨fun w => ?_, fun s p idx i hcur hinv hidx => ?_,
    fun s p idx hcur h => State.onCurrent_onlyFaulted hcur (p.withWrite_out_of_range h _ _)⟩
  · obtain ⟨-, hstore, -⟩ := decode_loadStore w
    exact hstore
  · obtain ⟨m, hwrite, haccessed, hself, hothers, hdirty⟩ := hinv.write_in_range i p.acc
    obtain ⟨t, p', hexec, honly, hacc, rfl, hends, hprogram, hrecords⟩ := exec_store hcur (hidx ▸ hwrite)
    exact ⟨t, p', hexec, honly, hacc, hends, hwrite, haccessed, hself, hothers, hdirty, hprogram, hrecords⟩

/-- Settles O34: the second read meets the invariants and the V that the first one kept. -/
theorem loadindReadsThroughPointer : Obligations.LoadindReadsThroughPointer := by
  refine ⟨fun w => ?_, fun s p idx hcur => ⟨fun h => ?_, fun i hinv hidx => ?_⟩⟩
  · obtain ⟨-, -, -, hloadind, -⟩ := decode_loadStore w
    exact hloadind
  · exact State.onCurrent_onlyFaulted hcur (p.withPointer_out_of_range _ h)
  · obtain ⟨m, hread, hinv', haccessed, hval, -⟩ := hinv.read_in_range i
    have hcell : p.mmu.read idx.toInt = .ok (p.mmu.value i, m) := hidx ▸ hread
    refine ⟨m, hread, haccessed, hval, fun a ha => ?_, fun a ha hrange => ?_, fun c hc => ?_⟩
    · obtain ⟨m', hread', -, haccessed', hval', -⟩ := hinv'.read_in_range a
      rw [hval] at hread'
      obtain ⟨t, p', hexec, honly, hacc, rfl, hends, hprogram, hrecords⟩ := exec_loadind hcur hcell ha hread'
      exact ⟨t, p', hexec, honly, hacc, hends, hread', haccessed', fun b => (hval' b).trans (hval b),
        hprogram, hrecords⟩
    · exact State.onCurrent_onlyFaulted hcur
        ((Proc.withPointer_ok _ hcell ha).trans ((p.setMmu m).withRead_out_of_range hrange _))
    · exact State.onCurrent_onlyFaulted hcur (Proc.withPointer_error _ hcell hc)

/-- Settles O35: the write meets the invariants and the V that the read of the pointer kept. -/
theorem storeindWritesThroughPointer : Obligations.StoreindWritesThroughPointer := by
  refine ⟨fun w => ?_, fun s p idx hcur => ⟨fun h => ?_, fun i hinv hidx => ?_⟩⟩
  · obtain ⟨-, -, -, -, hstoreind⟩ := decode_loadStore w
    exact hstoreind
  · exact State.onCurrent_onlyFaulted hcur (p.withPointer_out_of_range _ h)
  · obtain ⟨m, hread, hinv', haccessed, hval, -⟩ := hinv.read_in_range i
    have hcell : p.mmu.read idx.toInt = .ok (p.mmu.value i, m) := hidx ▸ hread
    refine ⟨m, hread, haccessed, hval, fun a ha => ?_, fun a ha hrange => ?_, fun c hc => ?_⟩
    · obtain ⟨m', hwrite, haccessed', hself, hothers, hdirty⟩ := hinv'.write_in_range a p.acc
      obtain ⟨t, p', hexec, honly, hacc, rfl, hends, hprogram, hrecords⟩ := exec_storeind hcur hcell ha hwrite
      exact ⟨t, p', hexec, honly, hacc, hends, hwrite, haccessed', hself,
        fun b hb => (hothers b hb).trans (hval b), hdirty, hprogram, hrecords⟩
    · exact State.onCurrent_onlyFaulted hcur
        ((Proc.withPointer_ok _ hcell ha).trans ((p.setMmu m).withWrite_out_of_range hrange _ _))
    · exact State.onCurrent_onlyFaulted hcur (Proc.withPointer_error _ hcell hc)

end Sys2Proof.Machine
end

section
/-! PROOFS. The arithmetic instructions (R204 to R211) as steps of one processor alone, the special-value table of the
four operations (R203), and the draw of a quiet NaN (R201). -/

namespace Sys2Proof.Machine

open Sys2Proof

/-! ## The two operand forms -/

section
variable {s : State} {p : Proc} (hcur : s.current = some p) (op : F64 → F64 → F64)
include hcur

theorem State.onCurrent_arithLit (c : F64) :
    ∃ t p', s.onCurrent (fun p => p.arithLit op c) = .next t ∧ s.OnlyCurrent t p' ∧
      p.FinishedWith p' (op p.acc c) p.mmu :=
  State.onCurrent_finishedWith (f := fun p => p.arithLit op c) hcur rfl

theorem State.onCurrent_arithMem {i : Int} {x : F64} {m : Mmu} (hread : p.mmu.read i = .ok (x, m)) :
    ∃ t p', s.onCurrent (fun p => p.arithMem op i) = .next t ∧ s.OnlyCurrent t p' ∧
      p.FinishedWith p' (op p.acc x) m :=
  State.onCurrent_finishedWith (f := fun p => p.arithMem op i) hcur (Proc.withRead_ok hread _)

theorem State.onCurrent_arithMem_out_of_range {i : Int} (h : i < 0 ∨ 65536 ≤ i) :
    ∃ t p', s.onCurrent (fun p => p.arithMem op i) = .next t ∧ s.OnlyCurrent t p' ∧
      p.OnlyFaulted p' (.addressError (.index i)) :=
  State.onCurrent_onlyFaulted (f := fun p => p.arithMem op i) hcur (p.withRead_out_of_range h _)

end

/-- Settles O38: the engine is the one that the read leaves. -/
theorem memoryArithmetic : Obligations.MemoryArithmetic := by
  refine ⟨fun w => ?_, fun s p idx i op hi hcur => ?_⟩
  · obtain ⟨-, -, -, -, -, -, -, hadd, hsub, hmul, hdiv, -⟩ := opcodeMap w
    exact ⟨hadd, hsub, hmul, hdiv⟩
  have hexec : exec i s = s.onCurrent fun p => p.arithMem (op (arithNan s.ticks)) idx.toInt := by
    obtain ⟨rfl, rfl⟩ | ⟨rfl, rfl⟩ | ⟨rfl, rfl⟩ | ⟨rfl, rfl⟩ := hi <;> rfl
  rw [hexec]
  refine ⟨fun j hinv hidx => ?_, fun h => State.onCurrent_arithMem_out_of_range hcur _ h⟩
  obtain ⟨m, hread, -, haccessed, hval, hlog⟩ := hinv.read_in_range j
  obtain ⟨t, p', hnext, honly, hacc, rfl, hends, hprogram, hrecords⟩ :=
    State.onCurrent_arithMem hcur (op (arithNan s.ticks)) (hidx ▸ hread)
  exact ⟨t, p', hnext, honly, hacc, hends, hread, haccessed, hval, hlog, hprogram, hrecords⟩

/-- Settles O37: the accumulator takes the result, and the rest is the end of the step. -/
theorem literalArithmetic : Obligations.LiteralArithmetic := by
  refine ⟨fun w => ?_, fun s p c i op hi hcur => ?_⟩
  · obtain ⟨-, -, -, -, -, -, -, -, -, -, -, haddnum, hsubnum, hmulnum, hdivnum, -⟩ := opcodeMap w
    exact ⟨haddnum, hsubnum, hmulnum, hdivnum⟩
  have hexec : exec i s = s.onCurrent fun p => p.arithLit (op (arithNan s.ticks)) c := by
    obtain ⟨rfl, rfl⟩ | ⟨rfl, rfl⟩ | ⟨rfl, rfl⟩ | ⟨rfl, rfl⟩ := hi <;> rfl
  obtain ⟨t, p', hnext, honly, hacc, hmmu, hends, hprogram, hrecords⟩ :=
    State.onCurrent_arithLit hcur (op (arithNan s.ticks)) c
  exact ⟨t, p', hexec.trans hnext, honly, hacc, hends, hmmu, hprogram, hrecords⟩

/-! ## Special values (R203) -/

theorem F64.isNan_of_isZero {x : F64} (h : F64.isZero x = true) : F64.isNan x = false := by
  rw [F64.isNan, of_decide_eq_true h, decide_eq_false (by decide)]

@[simp] theorem F64.isNan_neg (x : F64) : F64.isNan (F64.neg x) = F64.isNan x := by
  rw [F64.isNan, F64.isNan, F64.mag_neg]

/-- A number that is no zero lies above the zeros exactly if its sign bit is clear. -/
theorem F64.zero_lt_eq_not_sign {c : F64} (hnan : F64.isNan c = false) (hz : F64.isZero c = false) :
    F64.lt 0#64 c = !F64.sign c := by
  have hpos : 0 < F64.mag c := Nat.pos_of_ne_zero (of_decide_eq_false hz)
  rw [F64.lt, hnan, show F64.isNan 0#64 = false by decide, show F64.place 0#64 = 0 by decide, F64.place]
  cases F64.sign c <;> simp [hpos]

section
variable (nan : F64) {x y z z' c i : F64}

theorem F64.add_of_isNan (h : F64.isNan x = true ∨ F64.isNan y = true) : F64.add nan x y = nan := by
  rw [F64.add, if_pos (by rwa [Bool.or_eq_true])]

theorem F64.sub_of_isNan (h : F64.isNan x = true ∨ F64.isNan y = true) : F64.sub nan x y = nan :=
  F64.add_of_isNan nan (by rwa [F64.isNan_neg])

theorem F64.mul_of_isNan (h : F64.isNan x = true ∨ F64.isNan y = true) : F64.mul nan x y = nan := by
  rw [F64.mul, if_pos (by rwa [Bool.or_eq_true])]

theorem F64.div_of_isNan (h : F64.isNan x = true ∨ F64.isNan y = true) : F64.div nan x y = nan := by
  rw [F64.div, if_pos (by rwa [Bool.or_eq_true])]

theorem F64.mul_zero_inf (hz : F64.isZero z = true) (hi : F64.isInf i = true) : F64.mul nan z i = nan := by
  simp [F64.mul, hz, hi]

theorem F64.mul_inf_zero (hi : F64.isInf i = true) (hz : F64.isZero z = true) : F64.mul nan i z = nan := by
  simp [F64.mul, hz, hi]

theorem F64.div_zero_zero (hz : F64.isZero z = true) (hz' : F64.isZero z' = true) : F64.div nan z z' = nan := by
  simp [F64.div, hz, hz']

theorem F64.div_finite_zero (hc : F64.isFinite c = true) (hc' : F64.isZero c = false) (hz : F64.isZero z = true) :
    F64.div nan c z = F64.ofMag (F64.sign c != F64.sign z) F64.infMag := by
  simp [F64.div, F64.isNan_of_isFinite hc, F64.isNan_of_isZero hz, F64.isInf_of_isFinite hc, hc', hz]

theorem F64.sub_self_of_finite (hc : F64.isFinite c = true) : F64.sub nan c c = 0#64 := by
  have hexact : F64.fixed c + F64.fixed (F64.neg c) = 0 := by rw [F64.fixed_neg, add_neg_cancel]
  rw [F64.sub, F64.add_eq_of_finite nan hc (by rwa [F64.isFinite_neg]), if_pos hexact, hexact, Int.natAbs_zero,
    F64.roundMag_zero, F64.sign_neg, Bool.and_not_self]
  rfl

end

/-- Settles O41: the rows of values are those of the operations' definitions before the rounding, but for the exact zero
of c - c; the rows of literal operands are evaluated. -/
theorem specialValues : Obligations.SpecialValues := by
  refine fun nan => ⟨fun c hc hz => ?_, fun z z' => F64.div_zero_zero nan, fun i i' => F64.div_inf_inf nan,
    fun z i hz hi => ⟨F64.mul_zero_inf nan hz hi, F64.mul_inf_zero nan hi hz⟩,
    F64.add_inf_inf nan (by decide) (by decide), F64.add_inf_inf nan (by decide) (by decide),
    fun x y h => ⟨F64.add_of_isNan nan h, F64.sub_of_isNan nan h, F64.mul_of_isNan nan h, F64.div_of_isNan nan h⟩,
    ?_, ?_, F64.sub_self_of_finite nan (by decide), ?_, ?_⟩
  · rw [F64.div_finite_zero nan hc hz (by decide), F64.div_finite_zero nan hc hz (by decide),
      F64.zero_lt_eq_not_sign (F64.isNan_of_isFinite hc) hz]
    refine ⟨?_, ?_, F64.sub_self_of_finite nan hc⟩ <;> cases F64.sign c <;> decide
  · exact (F64.add_eq_of_finite nan (by decide) (by decide)).trans (by decide)
  · exact (F64.add_eq_of_finite nan (by decide) (by decide)).trans (by decide)
  · exact (F64.mul_eq_of_finite nan (by decide) (by decide)).trans (by decide +kernel)
  · exact (F64.add_eq_of_finite nan (by decide) (by decide)).trans (by decide +kernel)

/-! ## The draw of a quiet NaN (R201) -/

/-- The exponent field and the quiet bit between the draw's sign and its payload. -/
theorem toNat_quietNan (b : BitVec 52) :
    (quietNan b).toNat = b.toNat / 2 ^ 51 * 2 ^ 63 + 0xFFF * 2 ^ 51 + b.toNat % 2 ^ 51 := by
  have hlt := b.isLt
  rw [quietNan, BitVec.toNat_append, ← Nat.shiftLeft_add_eq_or_of_lt (BitVec.isLt _), BitVec.toNat_append,
    ← Nat.shiftLeft_add_eq_or_of_lt (BitVec.isLt _), BitVec.extractLsb'_toNat, BitVec.extractLsb'_toNat,
    Nat.shiftRight_eq_div_pow, Nat.shiftRight_zero, Nat.shiftLeft_eq, Nat.shiftLeft_eq]
  simp only [BitVec.toNat_ofNat]
  omega

theorem isNan_quietNan (b : BitVec 52) : F64.isNan (quietNan b) = true := by
  have hlt := b.isLt
  rw [F64.isNan, F64.mag, toNat_quietNan, decide_eq_true_eq, F64.infMag]
  omega

/-- The quiet bit (R201) in the arithmetic of the word. -/
theorem getLsbD_51_iff {x : F64} : x.getLsbD 51 = true ↔ x.toNat / 2 ^ 51 % 2 = 1 := by
  rw [BitVec.getLsbD, Nat.testBit_eq_decide_div_mod_eq, decide_eq_true_eq]

theorem getLsbD_quietNan (b : BitVec 52) : (quietNan b).getLsbD 51 = true := by
  rw [getLsbD_51_iff, toNat_quietNan]
  omega

/-- The draw of a quiet NaN's own sign and payload is that NaN. -/
theorem exists_quietNan_eq {x : F64} (hnan : F64.isNan x = true) (hquiet : x.getLsbD 51 = true) :
    ∃ b, quietNan b = x := by
  have hlt := x.isLt
  rw [F64.isNan, F64.mag, decide_eq_true_eq, F64.infMag] at hnan
  rw [getLsbD_51_iff] at hquiet
  refine ⟨BitVec.ofNat 52 (x.toNat / 2 ^ 63 * 2 ^ 51 + x.toNat % 2 ^ 51), BitVec.eq_of_toNat_eq ?_⟩
  rw [toNat_quietNan, BitVec.toNat_ofNat]
  omega

/-- Settles O42: every draw is a quiet NaN, and a quiet NaN is the draw of its own sign and payload. -/
theorem nanDrawCoversQuietNans : Obligations.NanDrawCoversQuietNans :=
  ⟨fun _ => ⟨isNan_quietNan _, getLsbD_quietNan _⟩, fun _ => exists_quietNan_eq⟩

end Sys2Proof.Machine
end

section
/-! PROOFS. The jumps (R221 to R224): one conditional jump, of which JUMP is the one always taken. The three conditions
as the sign of the accumulator's value (R225). -/

namespace Sys2Proof.Machine

open Sys2Proof

/-! ## A jump, taken or not -/

/-- A jump taken ends the step at its target, one not taken at pc + 1 (R220). -/
theorem Proc.endsAt_jumpIf (p : Proc) (taken : Bool) (target : Int) :
    p.EndsAt (p.jumpIf taken target) (if taken then target else p.pc + 1) := by
  cases taken with
  | false => exact p.endsAt_finish
  | true => exact Proc.endsAt_finish_of (q := p.jumpTo target) (Int.sub_add_cancel target 1) rfl rfl

/-- A jump changes at most pc, the run state and the fault record. -/
theorem Proc.jumpIf_frame (p : Proc) (taken : Bool) (target : Int) :
    { p.jumpIf taken target with state := p.state, pc := p.pc, fault := p.fault } = p := by
  cases taken with
  | false => exact p.finish_frame
  | true => exact congrArg (Proc.setPc · p.pc) (p.jumpTo target).finish_frame

/-- `cond` is the condition that the instruction tests the accumulator for. -/
theorem State.onCurrent_jumpIf {s : State} {p : Proc} (hcur : s.current = some p) (cond : F64 → Bool) (target : Int) :
    ∃ t p', s.onCurrent (fun p => .ok (p.jumpIf (cond p.acc) target)) = .next t ∧ s.OnlyCurrent t p' ∧
      p.EndsAt p' (if cond p.acc then target else p.pc + 1) ∧
      { p' with state := p.state, pc := p.pc, fault := p.fault } = p :=
  ⟨_, _, State.onCurrent_ok hcur rfl, State.onlyCurrent_setCurrent hcur _, p.endsAt_jumpIf _ _, p.jumpIf_frame _ _⟩

/-- The rows of the opcode map for this family. -/
theorem decode_jumps (w : InstrWord) :
    (opField w = 0x10#8 → decode w = .jump (immIField w)) ∧ (opField w = 0x11#8 → decode w = .jumpneg (immIField w)) ∧
    (opField w = 0x12#8 → decode w = .jumppos (immIField w)) ∧
    (opField w = 0x13#8 → decode w = .jumpnull (immIField w)) := by
  obtain ⟨-, -, -, -, -, -, -, -, -, -, -, -, -, -, -, hjump, hneg, hpos, hnull, -⟩ := opcodeMap w
  exact ⟨hjump, hneg, hpos, hnull⟩

/-- Settles O43: JUMP is the jump whose condition always holds. -/
theorem jumpLandsOnTarget : Obligations.JumpLandsOnTarget := by
  refine ⟨fun w => ?_, fun s p target hcur => State.onCurrent_jumpIf hcur (fun _ => true) target.toInt⟩
  obtain ⟨hjump, -⟩ := decode_jumps w
  exact hjump

/-- Settles O44: each of the three is the conditional jump on its comparison. -/
theorem conditionalJumps : Obligations.ConditionalJumps := by
  refine ⟨fun w => ?_, fun s p target i taken hi hcur => ?_⟩
  · obtain ⟨-, hconditional⟩ := decode_jumps w
    exact hconditional
  obtain ⟨rfl, rfl⟩ | ⟨rfl, rfl⟩ | ⟨rfl, rfl⟩ := hi
  · exact State.onCurrent_jumpIf hcur isNegative target.toInt
  · exact State.onCurrent_jumpIf hcur isPositive target.toInt
  · exact State.onCurrent_jumpIf hcur isNull target.toInt

/-! ## The three conditions (R14, R225) -/

/-- No comparison with a NaN holds. -/
theorem conditions_of_isNan {acc : F64} (h : F64.isNan acc = true) :
    isNegative acc = false ∧ isPositive acc = false ∧ isNull acc = false := by
  simp [isNegative, isPositive, isNull, F64.lt, F64.eq, h]

/-- The conditions are the sign of the value's place in the order of the numbers, in which the zeros have place 0. -/
theorem conditions_of_number {acc : F64} (h : F64.isNan acc = false) :
    isNegative acc = decide (F64.place acc < 0) ∧ isPositive acc = decide (0 < F64.place acc) ∧
    isNull acc = decide (F64.place acc = 0) := by
  have hnan : F64.isNan 0#64 = false := by decide
  have hplace : F64.place 0#64 = 0 := by decide
  simp [isNegative, isPositive, isNull, F64.lt, F64.eq, h, hnan, hplace]

theorem F64.units_pos_iff {x : F64} : 0 < F64.units x ↔ 0 < F64.mag x := by
  have hlt := F64.magUnits_strictMono.lt_iff_lt (a := 0) (b := F64.mag x)
  rwa [F64.magUnits_zero, ← F64.units_eq_magUnits] at hlt

/-- A value and its place have the same sign, since only the zeros have no units. -/
theorem F64.fixed_sign_iff_place (x : F64) :
    (F64.fixed x < 0 ↔ F64.place x < 0) ∧ (0 < F64.fixed x ↔ 0 < F64.place x) ∧
    (F64.fixed x = 0 ↔ F64.place x = 0) := by
  have hpos := F64.units_pos_iff (x := x)
  rw [F64.fixed, F64.place]
  split
  next => omega
  next => omega

theorem F64.place_of_isInf {x : F64} (h : F64.isInf x = true) :
    F64.place x = if F64.sign x then -(F64.infMag : Int) else (F64.infMag : Int) := by
  rw [F64.place, of_decide_eq_true h]

theorem conditions_of_isFinite {acc : F64} (h : F64.isFinite acc = true) :
    isNegative acc = decide (F64.fixed acc < 0) ∧ isPositive acc = decide (0 < F64.fixed acc) ∧
    isNull acc = decide (F64.fixed acc = 0) := by
  obtain ⟨hneg, hpos, hnull⟩ := F64.fixed_sign_iff_place acc
  simp only [hneg, hpos, hnull]
  exact conditions_of_number (F64.isNan_of_isFinite h)

theorem conditions_of_isInf {acc : F64} (h : F64.isInf acc = true) :
    isNegative acc = F64.sign acc ∧ isPositive acc = (!F64.sign acc) ∧ isNull acc = false := by
  obtain ⟨hneg, hpos, hnull⟩ := conditions_of_number (F64.isNan_of_isInf h)
  rw [hneg, hpos, hnull, F64.place_of_isInf h]
  cases F64.sign acc with
  | false => decide
  | true => decide

/-- Settles O45: a place is below, above or equal to 0, and exactly one of these. -/
theorem exactlyOneCondition : Obligations.ExactlyOneCondition := by
  refine fun acc => ⟨conditions_of_isNan, fun hnumber => ?_, conditions_of_isFinite, conditions_of_isInf⟩
  obtain ⟨hneg, hpos, hnull⟩ := conditions_of_number hnumber
  rw [hneg, hpos, hnull]
  obtain h | h | h := lt_trichotomy (F64.place acc) 0
  · exact .inl (by simp [h, h.le, h.ne])
  · exact .inr (.inr (by simp [h]))
  · exact .inr (.inl (by simp [h, h.le, h.ne']))

end Sys2Proof.Machine
end

section
/-! PROOFS. DUMPPROG (R232): its records are the loaded words, numbered by their slots. -/

namespace Sys2Proof.Machine

open Sys2Proof

/-- A program no longer than the store has one record for each loaded word. -/
theorem Proc.length_dumpProgram {p : Proc} (hlen : p.progLen ≤ 200) : p.dumpProgram.length = p.progLen := by
  rw [Proc.dumpProgram, List.length_map, List.length_zipIdx, List.length_take, Vector.length_toList,
    Nat.min_eq_left hlen]

/-- The record at place k is that of slot k. -/
theorem Proc.getElem?_dumpProgram {p : Proc} {k : Fin 200} (hk : k.val < p.progLen) :
    p.dumpProgram[k.val]? = some (.progWord k.val p.prog[k]) := by
  have hslot : p.prog.toList[k.val]? = some p.prog[k] := by simp
  rw [Proc.dumpProgram, List.getElem?_map, List.getElem?_zipIdx, List.getElem?_take_of_lt hk, hslot, Nat.zero_add]
  rfl

theorem exec_dumpprog {s : State} {p : Proc} (hcur : s.current = some p) :
    exec .dumpprog s = .next (s.setCurrent (p.emitDump p.dumpProgram).finish) := by
  rw [exec, execDumpprog]
  exact State.onCurrent_ok hcur rfl

/-- Settles O56: one dump of the loaded words, and the end of the step. -/
theorem dumpprogEmitsProgram : Obligations.DumpprogEmitsProgram := by
  refine ⟨fun w => ?_, fun s p hcur hlen => ?_⟩
  · obtain ⟨-, -, -, -, -, -, -, -, -, -, -, -, -, -, -, -, -, -, -, -, -, -, hdumpprog, -⟩ := opcodeMap w
    exact hdumpprog
  · exact ⟨_, _, p.dumpProgram, exec_dumpprog hcur, State.onlyCurrent_setCurrent hcur _, by simp,
      Proc.length_dumpProgram hlen, fun k => Proc.getElem?_dumpProgram, Proc.endsAt_finish_of rfl rfl rfl,
      by simp, by simp, by simp, by simp, by simp⟩

end Sys2Proof.Machine
end

section
/-! PROOFS. What a state without a step is (R262): the end of the run, a faulted state or a deadlock. -/

namespace Sys2Proof.Machine

open Sys2Proof

/-- The test of the end of the run is R262's: every processor is HALTED with no fault. -/
theorem State.all_halted_eq_true_iff {s : State} :
    s.procs.all (fun p => p.state == .halted && p.fault.isNone) = true ↔ s.ended := by
  simp [State.ended]

theorem State.stopReason_of_ended {s : State} (h : s.ended) : s.stopReason = .runEnded :=
  if_pos (State.all_halted_eq_true_iff.2 h)

theorem State.stopReason_of_not_ended {s : State} (h : ¬ s.ended) :
    s.stopReason = if s.procs.any (fun p => p.fault.isSome) then .runFaulted else .deadlock :=
  if_neg (mt State.all_halted_eq_true_iff.1 h)

theorem State.stopReason_of_fault {s : State} {p : Proc} (hp : p ∈ s.procs) (hfault : p.fault ≠ none) :
    s.stopReason = .runFaulted := by
  rw [State.stopReason_of_not_ended fun hended => hfault (hended p hp).2]
  exact if_pos (List.any_eq_true.2 ⟨p, hp, Option.isSome_iff_ne_none.2 hfault⟩)

theorem State.stopReason_of_running {s : State} {p : Proc} (hp : p ∈ s.procs) (hrunning : p.state = .running)
    (hnofault : ∀ q ∈ s.procs, q.fault = none) : s.stopReason = .deadlock := by
  have hnotEnded : ¬ s.ended := fun hended => by simpa [hrunning] using (hended p hp).1
  have hany : ¬ s.procs.any (fun q => q.fault.isSome) := by simpa using hnofault
  rw [State.stopReason_of_not_ended hnotEnded, if_neg hany]

/-- Where no processor has a step, a step stops with the reason of the state. -/
theorem step_of_none_enabled {s : State} (h : ∀ k, s.enabled k = false) : step s = .fault s.stopReason := by
  simp only [step, State.pick_eq_none_iff.2 h]

/-- Settles O10: a step without a picked processor stops with the state's reason, which R262's cases determine. -/
theorem stuckStatesAreClassified : Obligations.StuckStatesAreClassified := by
  intro s hstuck
  rw [step_of_none_enabled hstuck]
  refine ⟨fun hended => ?_, fun ⟨p, hp, hfault⟩ => ?_, fun ⟨p, hp, hrunning⟩ hnofault => ?_⟩
  · rw [State.stopReason_of_ended hended]
  · rw [State.stopReason_of_fault hp hfault]
  · rw [State.stopReason_of_running hp hrunning hnofault]

end Sys2Proof.Machine
end
